-- ==== Sys2Proof/Word.lean ====
section
/-! DEFINITION. The word types of `checksum_folder` (spec/00_scope.md R6, R7). -/

namespace Sys2Proof

/-- One byte of an image or of a buffer. -/
abbrev Byte := BitVec 8

/-- One register or one descriptor word: 32 bits (R6, register width). -/
abbrev Word := BitVec 32

/-- A host address: 26 bits (R6, R60). -/
abbrev Addr := BitVec 26

/-- `zext_32` of a byte (R7, R99). -/
def Byte.toWord (b : Byte) : Word := BitVec.ofNat 32 b.toNat

end Sys2Proof
end

