-- ==== Sys2Proof/Syntax.lean ====
section
/-! DEFINITION. The commands of the block, one constructor per row of spec/opcode_table.json (R91), and
the transactions HOST makes (R104, R105). -/

namespace Sys2Proof

/-- The six commands (30_encoding R91). RESEAL carries its INPLACE bit: `reseal true` is RESEAL.IP. -/
inductive Instr where
  | hdrParse
  | parse
  | checksum
  | digest
  | verify
  | reseal (inplace : Bool)
deriving DecidableEq, Repr

/-- One HOST bus access (R104): `(W, n, a, v)` or `(R, n, a)`, with `n` the width in bytes. -/
inductive Access where
  | write (width : Nat) (addr : Addr) (value : Word)
  | read (width : Nat) (addr : Addr)
deriving DecidableEq, Repr

/-- One item of a HOST program: an access, or the polling loop WAIT of R105. -/
inductive HostItem where
  | access (a : Access)
  | wait
deriving DecidableEq, Repr

end Sys2Proof
end

