-- ==== Sys2Proof/WellFormed.lean ====
section
/-! DEFINITION. What the syntax requires of a term. -/

namespace Sys2Proof

/-- Every term of `Instr` is a command: what R92 asks of a command WORD (opcode in range, RSV zero, INPLACE
with RESEAL only) the type already has, and the decoder checks it of words. -/
def Instr.wellFormed : Instr → Bool
  | .hdrParse => true
  | .parse => true
  | .checksum => true
  | .digest => true
  | .verify => true
  | .reseal _ => true

/-- The transaction forms of R104 are W8/W16/W32 and R8/R16/R32. -/
def widthOk (width : Nat) : Bool := width == 1 || width == 2 || width == 4

/-- A transaction as R104 writes it: a width it has a form for, and a value of that many bytes. (The bus answers
every other width with BusFault, R62.) -/
def Access.wellFormed : Access → Bool
  | .write width _ value => widthOk width && decide (value.toNat < 2 ^ (8 * width))
  | .read width _ => widthOk width

/-- A HOST program's item (R104, R105). -/
def HostItem.wellFormed : HostItem → Bool
  | .access a => a.wellFormed
  | .wait => true

end Sys2Proof
end

