-- ==== Sys2Proof/Decode.lean ====
section
/-! DEFINITION. The command word: decoder (total, rejecting by name) and encoder (30_encoding R90 to R92, R102). -/

namespace Sys2Proof

/-- Why a string of bytes is no command. -/
inductive DecodeError where
  /-- fewer than the four bytes of a command word -/
  | incomplete
  /-- OP is `0x00` or `0x07`-`0xFF` (R91, R102) -/
  | illegalOpcode
  /-- RSV is not 0 (R92) -/
  | reservedBits
  /-- INPLACE with an opcode other than RESEAL (R92) -/
  | inplaceWithoutReseal
deriving DecidableEq, Repr

/-- OP, bits 7:0 (R90). -/
def opOf (w : Word) : Byte := w.extractLsb' 0 8

/-- INPLACE, bit 8 (R90). -/
def inplaceOf (w : Word) : Bool := w.getLsbD 8

/-- RSV, bits 31:9 (R90). -/
def rsvOf (w : Word) : BitVec 23 := w.extractLsb' 9 23

/-- A command other than RESEAL: INPLACE must be 0 (R92). -/
def plainCommand (inplace : Bool) (i : Instr) : Except DecodeError Instr :=
  if inplace then .error .inplaceWithoutReseal else .ok i

/-- The opcode map of R91 with R92's rule on INPLACE. -/
def decodeOp (op : Byte) (inplace : Bool) : Except DecodeError Instr :=
  if op = 0x01 then plainCommand inplace .hdrParse
  else if op = 0x02 then plainCommand inplace .parse
  else if op = 0x03 then plainCommand inplace .checksum
  else if op = 0x04 then plainCommand inplace .digest
  else if op = 0x05 then plainCommand inplace .verify
  else if op = 0x06 then .ok (.reseal inplace)
  else .error .illegalOpcode

/-- The command a word written to CMD stands for, or why it is illegal (R92). -/
def decodeWord (w : Word) : Except DecodeError Instr :=
  if rsvOf w = 0 then decodeOp (opOf w) (inplaceOf w) else .error .reservedBits

/-- A word from its four bytes, the first at the lowest address (R61). -/
def wordOfBytes (b0 b1 b2 b3 : Byte) : Word := b3 ++ b2 ++ b1 ++ b0

/-- The command at the head of a byte string, with the rest of the string. -/
def decode : List Byte → Except DecodeError (Instr × List Byte)
  | b0 :: b1 :: b2 :: b3 :: rest => (decodeWord (wordOfBytes b0 b1 b2 b3)).map fun i => (i, rest)
  | _ => .error .incomplete

/-- The opcode of a command (R91). -/
def Instr.op : Instr → Byte
  | .hdrParse => 0x01
  | .parse => 0x02
  | .checksum => 0x03
  | .digest => 0x04
  | .verify => 0x05
  | .reseal _ => 0x06

/-- The INPLACE bit of a command (R90). -/
def Instr.inplaceBit : Instr → Bool
  | .hdrParse => false
  | .parse => false
  | .checksum => false
  | .digest => false
  | .verify => false
  | .reseal inplace => inplace

/-- The command word: RSV = 0, INPLACE, OP (R90). -/
def encode (i : Instr) : Word := 0#23 ++ BitVec.ofBool i.inplaceBit ++ i.op

/-- The four bytes of a word, the least significant first (R61). -/
def bytesOfWord (w : Word) : List Byte :=
  [w.extractLsb' 0 8, w.extractLsb' 8 8, w.extractLsb' 16 8, w.extractLsb' 24 8]

/-- The command word's bytes as a HOST write of CMD moves them. -/
def encodeBytes (i : Instr) : List Byte := bytesOfWord (encode i)

/-- The word a table row's `nbits` low bits give: every bit above them is 0. -/
def tableWord (nbits w : Nat) : Word := BitVec.ofNat 32 (w % 2 ^ min nbits 32)

/-- What the decoder reads from an instruction whose bits, numbered as spec/opcode_table.json numbers them, are `w`. -/
def decodeTableWord (nbits w : Nat) : Option Instr :=
  match decode (bytesOfWord (tableWord nbits w)) with
  | .ok (i, _) => some i
  | .error _ => none

end Sys2Proof
end

