-- ==== Sys2Proof/Config.lean ====
section
/-! DEFINITION. The parameters and constants of `checksum_folder` (spec/00_scope.md R6). The two OPEN
parameters, CAP and H, are opaque: nothing can be proved of them but what their types say. -/

namespace Sys2Proof.Config

/-- `HDR_FIXED`: the fixed header region, offsets 0 to 7. -/
def hdrFixed : Nat := 8
/-- `HDR_EXT`: the extension region, offsets 8 to 23. -/
def hdrExt : Nat := 16
/-- `HDR_LEN`: the combined skip before the first segment record, 24 bytes. -/
def hdrLen : Nat := hdrFixed + hdrExt
/-- `MAGIC_VALUE`. -/
def magicValue : Byte := 0xE9
/-- `SEED`: the first value of the checksum fold (R161). -/
def seed : Byte := 0xEF
/-- `SEG_REC_HDR`: load_address and data_length. -/
def segRecHdr : Nat := 8
/-- `SEG_MAX`. -/
def segMax : Nat := 255
/-- `DIGEST_LEN`. -/
def digestLen : Nat := 32
/-- `MIN_DIGEST_LEN`: the smallest LEN of DIGEST. -/
def minDigestLen : Nat := 32
/-- `MIN_SLOT_LEN`: the smallest LEN of VERIFY and RESEAL. -/
def minSlotLen : Nat := 33
/-- The largest value the parameter CAP may have, `2^24`. -/
def maxCap : Nat := 16777216

/-- The OPEN parameter CAP, less one: it stands for any CAP from 1 to `2^24` (R6, D31; log 1). -/
opaque capLessOne : Fin 16777216

/-- `CAP`, the capacity in bytes of each of IMG and OUT: `1 <= CAP <= 2^24`. -/
def cap : Nat := capLessOne.val + 1

/-- The OPEN parameter `H`: a total deterministic function to 32-byte strings (R6, R180, D13; log 2).
The block applies it to strings of at most CAP - 32 bytes only. -/
opaque hash : List Byte → Vector Byte 32

/-- `H_separates` of R184: the named hypothesis that H tells two inputs apart. It is never derived. -/
def HSeparates (s t : List Byte) : Prop := s ≠ t → hash s ≠ hash t

end Sys2Proof.Config
end

