-- ==== Sys2Proof/Machine/State.lean ====
section
/-! DEFINITION. The state of the block (spec/10_state.md R20 to R44), of HOST beside it, and reset. Plain data. -/

namespace Sys2Proof.Machine

/-- Sparse cells by index: an index not listed is undefined (R11). The canonical form has indexes strictly rising. -/
abbrev Table (α : Type) := List (Nat × α)

/-- IMG or OUT: the defined bytes by offset. An unlisted offset is undefined, so reading it faults (R11, log 12). -/
abbrev Memory := List Host.Cell

/-- The canonical form of a sparse table: indexes strictly rising, so equal contents are equal data. -/
abbrev Table.wf {α : Type} (t : List (Nat × α)) : Prop := t.Pairwise fun x y => x.1 < y.1

/-- The canonical form of a memory (R42, R43). -/
abbrev Memory.wf (m : Memory) : Prop := Table.wf m

/-- The two byte buffers (R42, R43). -/
inductive Buf where
  | img
  | out
deriving DecidableEq, Repr

/-- The resealer states (R25, R200). The reserved value 7 has no constructor: it is never held. -/
inductive Fsm where
  | idle
  | loaded
  | headerValidated
  | checksumRecomputed
  | digestRecomputed
  | resealed
  | rejected
deriving DecidableEq, Repr

/-- One SEGTAB entry: LOAD_ADDR, DATA_LEN, DATA_OFF (R41). -/
structure SegDesc where
  loadAddr : Word
  dataLen : Word
  dataOff : Word
deriving DecidableEq, Repr

/-- The hidden sequencing state of a command in progress (R44), but for `fsm`, which the FSM register mirrors
and `State.fsm` holds for both (log 9). -/
structure Engine where
  /-- `op`: the opcode, latched at issue -/
  op : Byte
  /-- `inplace`: the INPLACE bit, latched at issue -/
  inplace : Bool
  /-- `L`: LEN latched at issue -/
  len : Word
  /-- `T`: the target buffer -/
  target : Buf
  /-- `c`: the walker cursor, an exact integer -/
  cursor : Nat
  /-- `i`: the walker's segment index -/
  index : Nat
  /-- `acc`: the fold accumulator -/
  acc : Byte
deriving DecidableEq, Repr

/-- No command in progress: the hidden state as reset and every completion leave it (DESIGN CHOICE, log 8). -/
def Engine.none : Engine :=
  { op := 0, inplace := false, len := 0, target := .img, cursor := 0, index := 0, acc := 0 }

/-- Whose step comes next (R69, R280): HOST's next access, ENGINE's completion, or a reset by the environment. -/
inductive Turn where
  | host
  | engine
  | reset
deriving DecidableEq, Repr

/-- Everything the spec gives the block (R20), and HOST and the interleaving as data (logs 3, 4, 5). -/
@[ext]
structure State where
  /-- CMD (R23) -/
  cmd : Word
  /-- STATUS (R24) -/
  status : Word
  /-- FSM (R25), and the hidden `fsm` of R44 (log 9) -/
  fsm : Fsm
  /-- LEN (R26) -/
  len : Word
  /-- ERR_CODE (R27) -/
  errCode : Word
  /-- ERR_FIELD (R28) -/
  errField : Word
  /-- ERR_OFFSET (R29) -/
  errOffset : Word
  /-- ERR_SEG (R30) -/
  errSeg : Word
  /-- MAGIC (R31) -/
  magic : Word
  /-- SEG_COUNT (R32) -/
  segCount : Word
  /-- SEG_DONE (R33) -/
  segDone : Word
  /-- CURSOR (R34) -/
  cursor : Word
  /-- TRAILER_START (R35) -/
  trailerStart : Word
  /-- CSUM (R36) -/
  csum : Word
  /-- CSUM_STORED (R37) -/
  csumStored : Word
  /-- CAP (R38): the capacity of IMG and of OUT, constant -/
  cap : Word
  /-- DIGEST0 to DIGEST7 (R39) -/
  digest : Vector Word 8
  /-- SEGTAB (R41) -/
  segtab : Table SegDesc
  /-- IMG (R42) -/
  img : Memory
  /-- OUT (R43) -/
  out : Memory
  /-- the hidden state (R44) -/
  eng : Engine
  /-- the MODEL's own: HOST's items still to come (R104, R105; log 4) -/
  pending : List HostItem
  /-- the MODEL's own: whose step comes next; used up, ENGINE moves first (R289; log 3) -/
  turns : List Turn
  /-- the MODEL's own: the values HOST's reads returned, newest first (R104; log 5) -/
  reads : List Word
deriving DecidableEq, Repr

/-- The model faults of R267. The spec gives the hardware no behaviour here; each ends the run, which is safe. -/
inductive Fault where
  /-- HOST or ENGINE read an undefined IMG, OUT or SEGTAB cell (R11). Raised by `memRead`, `readBytes` and the bus reads. Safe. -/
  | undefinedRead
  /-- HOST made an access of a width or alignment R62 does not allow. Raised by `busAccess`. Safe. -/
  | busFault
  /-- HOST made an access other than a 32-bit read of STATUS while BUSY = 1 (R283). Raised by `busAccess`. Safe. -/
  | hostHazard
deriving DecidableEq, Repr

/-- Why the model gives a step no meaning. -/
inductive Refusal where
  /-- A command without a meaning yet. No arm of `exec` answers it: every command has its meaning. Safe. -/
  | notModelled (mnemonic : String)
  /-- BUSY = 1 with a latched op that has no command rule (R95). Raised by `step`; no reachable state has it, since
  issue latches legal words only (log 10). Safe. -/
  | noCommandRule
deriving DecidableEq, Repr

/-- The block right after reset (R280, R281), with HOST not yet begun (log 4). -/
def State.reset : State :=
  { cmd := 0, status := 0, fsm := .idle, len := 0, errCode := 0, errField := 0, errOffset := 0, errSeg := 0,
    magic := 0, segCount := 0, segDone := 0, cursor := 0, trailerStart := 0, csum := 0, csumStored := 0,
    cap := BitVec.ofNat 32 Config.cap, digest := Vector.replicate 8 0, segtab := [], img := [], out := [],
    eng := Engine.none, pending := [], turns := [], reads := [] }

end Sys2Proof.Machine
end

