-- ==== Sys2Proof/Machine/Flags.lean ====
section
/-! DEFINITION. The fields of STATUS (10_state R24) and every way a rule writes them. -/

namespace Sys2Proof.Machine

/-- The bit numbers of STATUS (R24). -/
def busyBit : Nat := 0
def doneBit : Nat := 1
def errBit : Nat := 2
def resultValidBit : Nat := 3
def csumMismatchBit : Nat := 4
def digestMismatchBit : Nat := 5

/-- `STATUS.F <- b` for the field at bit `i` (R9). -/
def writeFlag (w : Word) (i : Nat) (b : Bool) : Word :=
  if b then w ||| (1#32 <<< i) else w &&& ~~~(1#32 <<< i)

/-- STATUS.BUSY. -/
def State.busy (s : State) : Bool := s.status.getLsbD busyBit
/-- STATUS.DONE. -/
def State.done (s : State) : Bool := s.status.getLsbD doneBit
/-- STATUS.ERR. -/
def State.err (s : State) : Bool := s.status.getLsbD errBit
/-- STATUS.RESULT_VALID. -/
def State.resultValid (s : State) : Bool := s.status.getLsbD resultValidBit
/-- STATUS.CSUM_MISMATCH. -/
def State.csumMismatch (s : State) : Bool := s.status.getLsbD csumMismatchBit
/-- STATUS.DIGEST_MISMATCH. -/
def State.digestMismatch (s : State) : Bool := s.status.getLsbD digestMismatchBit

/-- STATUS as an accepted command leaves it: `STATUS <- 0; STATUS.BUSY <- 1` (R93). -/
def statusIssued : Word := writeFlag 0 busyBit true

/-- STATUS as the success epilogue leaves it (R95): the mismatch bits keep what the command set. -/
def statusOk (w : Word) : Word :=
  writeFlag (writeFlag (writeFlag w busyBit false) doneBit true) resultValidBit true

/-- STATUS as the error epilogue leaves it (R256). -/
def statusError (w : Word) : Word :=
  writeFlag (writeFlag (writeFlag (writeFlag w busyBit false) doneBit true) errBit true) resultValidBit false

end Sys2Proof.Machine
end

