-- ==== Sys2Proof/Machine/Memory.lean ====
section
/-! DEFINITION. The named operations over IMG, OUT and SEGTAB (00_scope R8 to R11): one cell, a byte string, the copy. -/

namespace Sys2Proof.Machine

/-- The content of one cell, or none where it is undefined (R11). -/
def Table.get {α : Type} : List (Nat × α) → Nat → Option α
  | [], _ => none
  | (k, v) :: t, a => if k = a then some v else Table.get t a

/-- Write one cell, keeping the indexes rising. -/
def Table.set {α : Type} : List (Nat × α) → Nat → α → List (Nat × α)
  | [], a, v => [(a, v)]
  | (k, w) :: t, a, v =>
    if a < k then (a, v) :: (k, w) :: t
    else if a = k then (a, v) :: t
    else (k, w) :: Table.set t a v

/-- The cells below `n` from `src`, the others from `dst`: R201's loop "for a in 0 .. L-1: OUT[a] <- IMG[a]",
which copies an undefined cell as undefined and reads nothing. -/
def Table.copyBelow {α : Type} (src dst : List (Nat × α)) (n : Nat) : List (Nat × α) :=
  (src.filter fun x => x.1 < n) ++ (dst.filter fun x => n ≤ x.1)

/-- `B[a, a + n)` as a byte string, or none where a byte of it is undefined (R8, R9 `ReadBytes`, R11). -/
def Memory.bytes (m : Memory) : Nat → Nat → Option (List Byte)
  | _, 0 => some []
  | a, n + 1 => (Table.get m a).bind fun b => (Memory.bytes m (a + 1) n).map fun bs => b :: bs

/-- Write a byte string at offset `a`, its first byte lowest (R9 `MemWrite`). -/
def Memory.write (m : Memory) (a : Nat) : List Byte → Memory
  | [] => m
  | b :: bs => Memory.write (Table.set m a b) (a + 1) bs

/-- The little-endian value of a byte string (R8, `LE32` on four bytes). -/
def leNat : List Byte → Nat
  | [] => 0
  | b :: bs => b.toNat + 256 * leNat bs

/-- A word from at most four bytes, least significant first (R8, R61). -/
def leWord (bs : List Byte) : Word := BitVec.ofNat 32 (leNat bs)

end Sys2Proof.Machine
end

