-- ==== Sys2Proof/Machine/Ops.lean ====
section
/-! DEFINITION. The shared operations: outcomes of a micro-operation, the error entry `raise` (R256), the success
epilogue (R95), issue (R93, R94), reset (R280). There is no return from an error (R258): the error state stands
until the next issue or reset clears it. -/

namespace Sys2Proof.Machine

/-- The error codes of ERR_CODE (R100). -/
inductive ErrCode where
  | badMagic
  | truncated
  | tooShort
  | illegalCmd
  | badLength
deriving DecidableEq, Repr

/-- The numbers of R100. -/
def errCodeNumber : ErrCode → Word
  | .badMagic => 0x01
  | .truncated => 0x02
  | .tooShort => 0x03
  | .illegalCmd => 0x80
  | .badLength => 0x81

/-- The field codes of ERR_FIELD (R101). -/
inductive ErrField where
  | magic
  | header
  | segLoadAddr
  | segDataLen
  | segData
  | trailer
  | cmd
  | len
deriving DecidableEq, Repr

/-- The numbers of R101. -/
def errFieldNumber : ErrField → Word
  | .magic => 1
  | .header => 2
  | .segLoadAddr => 3
  | .segDataLen => 4
  | .segData => 5
  | .trailer => 6
  | .cmd => 7
  | .len => 8

/-- How a micro-operation ends: with a value, by `raise` (the epilogue already run, R256), or in a model fault. -/
inductive Res (α : Type) where
  | ok (a : α) (s : State)
  | raised (s : State)
  | fault (f : Fault)

/-- The next statement of a command rule: after a raise or a model fault no later statement runs (R256, R267). -/
def Res.andThen {α β : Type} (r : Res α) (k : α → State → Res β) : Res β :=
  match r with
  | .ok a s => k a s
  | .raised s => .raised s
  | .fault f => .fault f

/-- A completed command rule as a step of the machine: an error is a next state (R256). -/
def Res.toOutcome (r : Res Unit) : Host.Outcome State Fault Refusal :=
  match r with
  | .ok _ s => .next s
  | .raised s => .next s
  | .fault f => .fault f

/-- The end of a command: no hidden state outlives it but FSM, which its register mirrors (R44, log 8). -/
def discardHidden (s : State) : State := { s with eng := Engine.none }

/-- The error epilogue, the block's exception entry (R256), as a state. -/
def errorState (e : ErrCode) (field : ErrField) (offset seg : Nat) (s : State) : State :=
  discardHidden
    { s with
      errCode := errCodeNumber e
      errField := errFieldNumber field
      errOffset := BitVec.ofNat 32 offset
      errSeg := BitVec.ofNat 32 seg
      status := statusError s.status
      fsm := if s.fsm = .idle then .idle else .rejected }

/-- `raise E(field, offset, seg)` in a command rule (R9, R256). -/
def raise {α : Type} (e : ErrCode) (field : ErrField) (offset seg : Nat) (s : State) : Res α :=
  .raised (errorState e field offset seg s)

/-- `finish_ok()` (R95). -/
def finishOk (s : State) : Res Unit :=
  .ok () (discardHidden { s with status := statusOk s.status })

/-- The part of issue every word performs (R93): CMD is written, STATUS and the result registers are cleared. -/
def clearForIssue (w : Word) (s : State) : State :=
  { s with
    cmd := w
    status := 0
    errCode := 0, errField := 0, errOffset := 0, errSeg := 0
    magic := 0, segCount := 0, segDone := 0, cursor := 0
    trailerStart := 0, csum := 0, csumStored := 0, digest := Vector.replicate 8 0
    fsm := .idle }

/-- The part of issue an accepted word performs (R93): the latches, LOADED for RESEAL, BUSY. -/
def latchCommand (w : Word) (s : State) : State :=
  { s with
    eng := { Engine.none with op := opOf w, inplace := inplaceOf w, len := s.len }
    fsm := if opOf w = 0x06 then .loaded else s.fsm
    status := writeFlag s.status busyBit true }

/-- Issue accepted: what a legal word with `LEN <= CAP` does (R93). -/
def acceptCommand (w : Word) (s : State) : State := latchCommand w (clearForIssue w s)

/-- Issue (R93): a HOST write of `w` to CMD while BUSY = 0, one step. ILLEGAL_CMD comes before BAD_LENGTH (R257). -/
def issue (w : Word) (s : State) : State :=
  match decodeWord w with
  | .error _ => errorState .illegalCmd .cmd 0 0 (clearForIssue w s)
  | .ok _ =>
    if s.len.toNat > s.cap.toNat then errorState .badLength .len 0 0 (clearForIssue w s)
    else acceptCommand w s

/-- The reset event (R280): the registers, memories and hidden state of the block; CAP keeps the parameter, and HOST's
own data is no state of the block (log 18). -/
def resetBlock (s : State) : State :=
  { s with
    cmd := 0, status := 0, fsm := .idle, len := 0, errCode := 0, errField := 0, errOffset := 0, errSeg := 0
    magic := 0, segCount := 0, segDone := 0, cursor := 0, trailerStart := 0, csum := 0, csumStored := 0
    digest := Vector.replicate 8 0, segtab := [], img := [], out := [], eng := Engine.none }

end Sys2Proof.Machine
end

