-- ==== Sys2Proof/Machine/Operands.lean ====
section
/-! DEFINITION. The operand forms: the primitives of 00_scope R9 over the target buffer, the packing of a digest
(R39), and what each register shows (R23 to R40). -/

namespace Sys2Proof.Machine

/-- `L`: LEN as latched at issue, an exact integer (R44, R142). -/
def State.imageLen (s : State) : Nat := s.eng.len.toNat

/-- The buffer `T` names (R44). -/
def State.target (s : State) : Memory :=
  match s.eng.target with
  | .img => s.img
  | .out => s.out

/-- Replace the contents of the target buffer. -/
def State.setTarget (s : State) (m : Memory) : State :=
  match s.eng.target with
  | .img => { s with img := m }
  | .out => { s with out := m }

/-- `T <- IMG` or `T <- OUT`. -/
def selectTarget (b : Buf) (s : State) : State := { s with eng := { s.eng with target := b } }

/-- `MemRead(T, a, 1)` (R9): an undefined byte is the model fault UndefinedRead (R11). -/
def memReadByte (a : Nat) (s : State) : Res Byte :=
  match Table.get s.target a with
  | some b => .ok b s
  | none => .fault .undefinedRead

/-- `ReadBytes(T, a, a + n)` (R9, R11). -/
def readBytes (a n : Nat) (s : State) : Res (List Byte) :=
  match Memory.bytes s.target a n with
  | some bs => .ok bs s
  | none => .fault .undefinedRead

/-- `MemRead(T, a, 4)`: four consecutive bytes assembled by LE32, at any alignment (R9, R66, R99). -/
def memReadWord (a : Nat) (s : State) : Res Word :=
  (readBytes a 4 s).andThen fun bs s => .ok (leWord bs) s

/-- `MemWrite(T, a, 1, b)` (R9). -/
def memWriteByte (a : Nat) (b : Byte) (s : State) : State := s.setTarget (Table.set s.target a b)

/-- The packing of DIGEST0 to DIGEST7: `DIGESTk = LE32(d[4k, 4k+4))` (R39, R181). -/
def packDigest (d : Vector Byte 32) : Vector Word 8 :=
  Vector.ofFn fun k : Fin 8 => leWord [d[4 * k.val], d[4 * k.val + 1], d[4 * k.val + 2], d[4 * k.val + 3]]

/-- The encoding of FSM (R25). -/
def fsmCode : Fsm → Word
  | .idle => 0
  | .loaded => 1
  | .headerValidated => 2
  | .checksumRecomputed => 3
  | .digestRecomputed => 4
  | .resealed => 5
  | .rejected => 6

/-- What a 32-bit read of the register window gives at word number `k`, offset `4 * k` (R23 to R40). -/
def readReg (s : State) (k : Nat) : Word :=
  match k with
  | 0x0 => s.cmd
  | 0x1 => s.status
  | 0x2 => fsmCode s.fsm
  | 0x3 => s.len
  | 0x4 => s.errCode
  | 0x5 => s.errField
  | 0x6 => s.errOffset
  | 0x7 => s.errSeg
  | 0x8 => s.magic
  | 0x9 => s.segCount
  | 0xA => s.segDone
  | 0xB => s.cursor
  | 0xC => s.trailerStart
  | 0xD => s.csum
  | 0xE => s.csumStored
  | 0xF => s.cap
  | 0x10 => s.digest[0]
  | 0x11 => s.digest[1]
  | 0x12 => s.digest[2]
  | 0x13 => s.digest[3]
  | 0x14 => s.digest[4]
  | 0x15 => s.digest[5]
  | 0x16 => s.digest[6]
  | 0x17 => s.digest[7]
  | _ => 0

end Sys2Proof.Machine
end

