-- ==== Sys2Proof/Machine/Bus.lean ====
section
/-! DEFINITION. HOST's bus (spec/20_memory.md R60 to R65), the hazard rule (R283), WAIT and the pseudo-instructions (R105). -/

namespace Sys2Proof.Machine

/-- The regions of the host address map (R60), each with the offset in it. -/
inductive Region where
  | reg (offset : Nat)
  | segtab (offset : Nat)
  | img (offset : Nat)
  | out (offset : Nat)
  | unmapped
deriving DecidableEq, Repr

/-- The host address map (R60). -/
def regionOf (addr : Addr) : Region :=
  let a := addr.toNat
  if a < 0x100 then .reg a
  else if a < 0x1000 then .unmapped
  else if a < 0x2000 then .segtab (a - 0x1000)
  else if a < 0x1000000 then .unmapped
  else if a < 0x2000000 then .img (a - 0x1000000)
  else if a < 0x3000000 then .out (a - 0x2000000)
  else .unmapped

/-- A width of 1, 2 or 4 bytes at a multiple of it (R62). -/
def naturallyAligned (width : Nat) (addr : Addr) : Bool :=
  (width == 1 || width == 2 || width == 4) && addr.toNat % width == 0

/-- The widths and alignments R62 allows: REG and SEGTAB take aligned 32-bit accesses only. -/
def accessAllowed (width : Nat) (addr : Addr) : Bool :=
  match regionOf addr with
  | .reg _ => width == 4 && naturallyAligned width addr
  | .segtab _ => width == 4 && naturallyAligned width addr
  | _ => naturallyAligned width addr

/-- The bytes of a window read: at or above CAP a byte is unmapped and reads 0 (R60, R63); an undefined byte gives none (R11). -/
def windowBytes (m : Memory) (cap : Nat) : Nat → Nat → Option (List Byte)
  | _, 0 => some []
  | a, n + 1 =>
    (if a < cap then Table.get m a else some 0).bind fun b => (windowBytes m cap (a + 1) n).map fun bs => b :: bs

/-- A window write, byte by byte: at or above CAP a byte is unmapped and ignored (R60, R63, R64). -/
def windowWrite (m : Memory) (cap : Nat) : Nat → List Byte → Memory
  | _, [] => m
  | a, b :: bs => windowWrite (if a < cap then Table.set m a b else m) cap (a + 1) bs

/-- The low `width` bytes of a written value, least significant first (R61, R104; log 15). -/
def valueBytes (width : Nat) (v : Word) : List Byte := (bytesOfWord v).take width

/-- A 32-bit read of the SEGTAB window (R41, R60): the fourth word and the last 16 bytes read 0; an undefined entry gives none. -/
def readSegtab (t : Table SegDesc) (offset : Nat) : Option Word :=
  let i := offset / 16
  if i ≥ Config.segMax then some 0
  else
    match offset % 16 / 4 with
    | 0 => (Table.get t i).map SegDesc.loadAddr
    | 1 => (Table.get t i).map SegDesc.dataLen
    | 2 => (Table.get t i).map SegDesc.dataOff
    | _ => some 0

/-- What an allowed HOST read returns, or none on an undefined cell (R61, R63, R65, R11). -/
def busRead (width : Nat) (addr : Addr) (s : State) : Option Word :=
  match regionOf addr with
  | .reg o => some (readReg s (o / 4))
  | .segtab o => readSegtab s.segtab o
  | .img o => (windowBytes s.img s.cap.toNat o width).map leWord
  | .out o => (windowBytes s.out s.cap.toNat o width).map leWord
  | .unmapped => some 0

/-- What an allowed HOST write does: CMD issues, LEN and IMG are written, everything else is ignored (R40, R63, R64). -/
def busWrite (width : Nat) (addr : Addr) (v : Word) (s : State) : State :=
  match regionOf addr with
  | .reg 0x00 => issue v s
  | .reg 0x0C => { s with len := v }
  | .reg _ => s
  | .segtab _ => s
  | .img o => { s with img := windowWrite s.img s.cap.toNat o (valueBytes width v) }
  | .out _ => s
  | .unmapped => s

/-- The address of STATUS (R104). -/
def statusAddr : Addr := 0x4
/-- The address of CMD (R104). -/
def cmdAddr : Addr := 0x0
/-- The address of LEN (R104). -/
def lenAddr : Addr := 0xC
/-- The address of IMG offset `k` (R104). -/
def imgAddr (k : Nat) : Addr := BitVec.ofNat 26 (0x1000000 + k)

/-- The one access R283 allows while BUSY = 1: a 32-bit read of STATUS. -/
def isStatusRead (a : Access) : Bool := decide (a = .read 4 statusAddr)

/-- One HOST access, one step (R62, R65, R283). DESIGN CHOICE (log 7, safe): the spec gives no order among the rows of R267's
fault table that one access meets. HostHazard is tested first, then BusFault, and a cell is read, and can be UndefinedRead, only
by a read that passes both. -/
def busAccess (a : Access) (s : State) : Host.Outcome State Fault Refusal :=
  if s.busy && !isStatusRead a then .fault .hostHazard
  else
    match a with
    | .write width addr v =>
      if accessAllowed width addr then .next (busWrite width addr v s) else .fault .busFault
    | .read width addr =>
      if accessAllowed width addr then
        match busRead width addr s with
        | some v => .next { s with reads := v :: s.reads }
        | none => .fault .undefinedRead
      else .fault .busFault

/-- One read of WAIT's loop (R105): STATUS is read, and WAIT stays HOST's next item while bit 0 is 1. -/
def waitPoll (rest : List HostItem) (s : State) : State :=
  let v := readReg s 1
  { s with reads := v :: s.reads, pending := if v.getLsbD 0 then .wait :: rest else rest }

/-- HOST's step: its next item, or nothing when it has none. -/
def hostStep (s : State) : Host.Outcome State Fault Refusal :=
  match s.pending with
  | [] => .next s
  | .access a :: rest => busAccess a { s with pending := rest }
  | .wait :: rest => .next (waitPoll rest s)

/-- `LOADIMG [b0, ...]` from offset `k` (R105). -/
def loadImgFrom (k : Nat) : List Byte → List HostItem
  | [] => []
  | b :: bs => .access (.write 1 (imgAddr k) b.toWord) :: loadImgFrom (k + 1) bs

/-- `LOADIMG [b0, ...]` (R105). -/
def loadImg (bs : List Byte) : List HostItem := loadImgFrom 0 bs
/-- `SETLEN n` (R105). -/
def setLen (n : Word) : List HostItem := [.access (.write 4 lenAddr n)]
/-- `ISSUE m` (R105). -/
def issueItems (i : Instr) : List HostItem := [.access (.write 4 cmdAddr (encode i))]
/-- `RUN m`: ISSUE, then WAIT (R105). -/
def runItems (i : Instr) : List HostItem := issueItems i ++ [.wait]

end Sys2Proof.Machine
end

