-- ==== Sys2Proof/Machine/Digest.lean ====
section
/-! DEFINITION. The digest port and DIGEST (spec/43_digest.md). -/

namespace Sys2Proof.Machine

/-- `DigestOf(T, ts)` (R181): H over `[0, ts)` of the target buffer, shown in DIGEST0 to DIGEST7. -/
def digestOf (ts : Nat) (s : State) : Res (Vector Byte 32) :=
  (readBytes 0 ts s).andThen fun bs s =>
    let d := Config.hash bs
    .ok d { s with digest := packDigest d }

/-- `WriteTrailer(T, ts, d)` (R181): digest byte `k` at offset `ts + k`. -/
def writeTrailer (ts : Nat) (d : Vector Byte 32) (s : State) : State :=
  s.setTarget (Memory.write s.target ts d.toList)

/-- `TRAILER_START <- ts` (R35). -/
def setTrailerStart (ts : Nat) (s : State) : State := { s with trailerStart := BitVec.ofNat 32 ts }

/-- `ts = L - 32`, used only where `L >= 32` (R35, R98). -/
def trailerOffset (s : State) : Nat := s.imageLen - Config.digestLen

/-- DIGEST (R183). -/
def execDigest (s : State) : Host.Outcome State Fault Refusal :=
  let s := selectTarget .img s
  (if s.imageLen < Config.minDigestLen then raise .tooShort .trailer 0 0 s
   else
    (digestOf (trailerOffset s) (setTrailerStart (trailerOffset s) s)).andThen fun _ s => finishOk s).toOutcome

end Sys2Proof.Machine
end

