-- ==== Sys2Proof/Machine/HeaderParser.lean ====
section
/-! DEFINITION. `image_header_parser` and HDR_PARSE (spec/40_header_parser.md). -/

namespace Sys2Proof.Machine

/-- `HeaderParse(T)` (R120): length, then magic (R124); it returns the segment count. -/
def headerParse (s : State) : Res Nat :=
  if s.imageLen < Config.hdrLen then raise .truncated .header 0 0 s
  else
    (memReadByte 0 s).andThen fun m s =>
      let s := { s with magic := m.toWord }
      if m ≠ Config.magicValue then raise .badMagic .magic 0 0 s
      else
        (memReadByte 1 s).andThen fun n s =>
          .ok n.toNat { s with segCount := n.toWord }

/-- HDR_PARSE (R122). -/
def execHdrParse (s : State) : Host.Outcome State Fault Refusal :=
  ((headerParse (selectTarget .img s)).andThen fun _ s => finishOk s).toOutcome

end Sys2Proof.Machine
end

