-- ==== Sys2Proof/Machine/ChecksumFold.lean ====
section
/-! DEFINITION. The checksum fold unit's micro-operations (spec/42_checksum_fold.md R160 to R164). CHECKSUM itself
stands after the walker, which feeds the fold. -/

namespace Sys2Proof.Machine

/-- `fold(s, b)` (R160): the sequential 8-bit XOR. -/
def foldBytes (seed : Byte) (b : List Byte) : Byte := b.foldl (fun a x => a ^^^ x) seed

/-- `FoldInit()` (R164). -/
def foldInit (s : State) : State :=
  { s with eng := { s.eng with acc := Config.seed }, csum := Config.seed.toWord }

/-- `FoldBytes(T, a, m)` (R164): CSUM is written once, after the bytes. -/
def foldRange (a m : Nat) (s : State) : Res Unit :=
  (readBytes a m s).andThen fun bs s =>
    let acc := foldBytes s.eng.acc bs
    .ok () { s with eng := { s.eng with acc := acc }, csum := acc.toWord }

end Sys2Proof.Machine
end

