-- ==== Sys2Proof/Machine/SegmentWalker.lean ====
section
/-! DEFINITION. `segment_walker`, PARSE and CHECKSUM (spec/41_segment_walker.md, spec/42_checksum_fold.md R165). -/

namespace Sys2Proof.Machine

/-- The walk's start: `c <- 24; i <- 0; CURSOR <- 24; SEG_DONE <- 0`, and FoldInit when folding (R140). -/
def walkStart (fold : Bool) (s : State) : State :=
  let s := { s with eng := { s.eng with cursor := Config.hdrLen, index := 0 }
                    cursor := BitVec.ofNat 32 Config.hdrLen, segDone := 0 }
  if fold then foldInit s else s

/-- The end of an iteration: `c <- c + 8 + dl; i <- i + 1; CURSOR <- c; SEG_DONE <- i` (R140). -/
def walkAdvance (dl : Nat) (s : State) : State :=
  let c := s.eng.cursor + Config.segRecHdr + dl
  let i := s.eng.index + 1
  { s with eng := { s.eng with cursor := c, index := i }
           cursor := BitVec.ofNat 32 c, segDone := BitVec.ofNat 32 i }

/-- One iteration of the walk: the three checks in exact arithmetic, the descriptor, the fold, the advance (R140, R142, R144). -/
def walkRecord (fold : Bool) (s : State) : Res Unit :=
  let c := s.eng.cursor
  let i := s.eng.index
  if c + 4 > s.imageLen then raise .truncated .segLoadAddr c i s
  else
    (memReadWord c s).andThen fun la s =>
      if c + 8 > s.imageLen then raise .truncated .segDataLen (c + 4) i s
      else
        (memReadWord (c + 4) s).andThen fun dl s =>
          if c + 8 + dl.toNat > s.imageLen then raise .truncated .segData (c + 8) i s
          else
            let s := { s with segtab := Table.set s.segtab i ⟨la, dl, BitVec.ofNat 32 (c + 8)⟩ }
            let folded := if fold then foldRange (c + 8) dl.toNat s else .ok () s
            folded.andThen fun _ s => .ok () (walkAdvance dl.toNat s)

/-- The walk's loop, for the number of records still to walk (R140, R143). -/
def walkLoop (fold : Bool) : Nat → State → Res Unit
  | 0, s => .ok () s
  | k + 1, s => (walkRecord fold s).andThen fun _ s => walkLoop fold k s

/-- `Walk(T, n, fold)` (R140): it returns the walk end `e`. -/
def walk (n : Nat) (fold : Bool) (s : State) : Res Nat :=
  (walkLoop fold n (walkStart fold s)).andThen fun _ s => .ok s.eng.cursor s

/-- PARSE (R146): header and walk, no fold. -/
def execParse (s : State) : Host.Outcome State Fault Refusal :=
  ((headerParse (selectTarget .img s)).andThen fun n s =>
    (walk n false s).andThen fun _ s => finishOk s).toOutcome

/-- CHECKSUM (R165): header, walk and fold. -/
def execChecksum (s : State) : Host.Outcome State Fault Refusal :=
  ((headerParse (selectTarget .img s)).andThen fun n s =>
    (walk n true s).andThen fun _ s => finishOk s).toOutcome

end Sys2Proof.Machine
end

