-- ==== Sys2Proof/Machine/Verify.lean ====
section
/-! DEFINITION. VERIFY (spec/45_verify.md). -/

namespace Sys2Proof.Machine

/-- The slot read VERIFY and RESEAL share: `s <- MemRead(T, ts - 1, 1); CSUM_STORED <- zext_32(s)` (R37, R203, R230). -/
def readSlot (ts : Nat) (s : State) : Res Byte :=
  (memReadByte (ts - 1) s).andThen fun b s => .ok b { s with csumStored := b.toWord }

/-- `STATUS.CSUM_MISMATCH <- (acc != s)` (R230). -/
def findCsum (slot : Byte) (s : State) : State :=
  { s with status := writeFlag s.status csumMismatchBit (decide (s.eng.acc ≠ slot)) }

/-- `STATUS.DIGEST_MISMATCH <- (d != ReadBytes(T, ts, L))` (R230). -/
def findDigest (d : Vector Byte 32) (trailer : List Byte) (s : State) : State :=
  { s with status := writeFlag s.status digestMismatchBit (decide (d.toList ≠ trailer)) }

/-- VERIFY past its length check: both comparisons are always made (R230, R232). -/
def verifyTrailer (s : State) : Res Unit :=
  let ts := trailerOffset s
  (readSlot ts (setTrailerStart ts s)).andThen fun slot s =>
    (digestOf ts (findCsum slot s)).andThen fun d s =>
      (readBytes ts Config.digestLen s).andThen fun trailer s =>
        finishOk (findDigest d trailer s)

/-- VERIFY (R230). -/
def execVerify (s : State) : Host.Outcome State Fault Refusal :=
  ((headerParse (selectTarget .img s)).andThen fun n s =>
    (walk n true s).andThen fun _ s =>
      if s.imageLen < Config.minSlotLen then raise .tooShort .trailer 0 0 s
      else verifyTrailer s).toOutcome

end Sys2Proof.Machine
end

