-- ==== Sys2Proof/Machine/Reseal.lean ====
section
/-! DEFINITION. `digest_resealer`'s state machine and RESEAL (spec/44_reseal.md). -/

namespace Sys2Proof.Machine

/-- State LOADED (R201): the working buffer, `OUT[0, L)` copied from IMG cell for cell unless INPLACE. -/
def selectWorking (inplace : Bool) (s : State) : State :=
  if inplace then selectTarget .img s
  else selectTarget .out { s with out := Table.copyBelow s.img s.out s.imageLen }

/-- `fsm <- st; FSM <- st` (R200). -/
def enterFsm (st : Fsm) (s : State) : State := { s with fsm := st }

/-- Step 1, Loaded to HeaderValidated (R202). -/
def resealHeader (s : State) : Res Nat :=
  (headerParse s).andThen fun n s => .ok n (enterFsm .headerValidated s)

/-- Step 2, HeaderValidated to ChecksumRecomputed (R203): every raise comes before the slot write. It returns `ts`. -/
def resealChecksum (n : Nat) (s : State) : Res Nat :=
  (walk n true s).andThen fun _ s =>
    if s.imageLen < Config.minSlotLen then raise .tooShort .trailer 0 0 s
    else
      let ts := trailerOffset s
      (readSlot ts (setTrailerStart ts s)).andThen fun _ s =>
        .ok ts (enterFsm .checksumRecomputed (memWriteByte (ts - 1) s.eng.acc s))

/-- Step 3, ChecksumRecomputed to DigestRecomputed (R204): the digest of the UPDATED buffer (R207), then the trailer. -/
def resealDigest (ts : Nat) (s : State) : Res Unit :=
  (digestOf ts s).andThen fun d s => .ok () (enterFsm .digestRecomputed (writeTrailer ts d s))

/-- RESEAL and RESEAL.IP (R208), steps 1 to 4. -/
def execReseal (inplace : Bool) (s : State) : Host.Outcome State Fault Refusal :=
  ((resealHeader (selectWorking inplace s)).andThen fun n s =>
    (resealChecksum n s).andThen fun ts s =>
      (resealDigest ts s).andThen fun _ s => finishOk (enterFsm .resealed s)).toOutcome

end Sys2Proof.Machine
end

