-- ==== Sys2Proof/Machine/Dispatch.lean ====
section
/-! DEFINITION. One arm per command: the completion step's command rule (30_encoding R95). -/

namespace Sys2Proof.Machine

def exec (i : Instr) (s : State) : Host.Outcome State Fault Refusal :=
  match i with
  | .hdrParse => Sys2Proof.Machine.execHdrParse s
  | .parse => Sys2Proof.Machine.execParse s
  | .checksum => Sys2Proof.Machine.execChecksum s
  | .digest => Sys2Proof.Machine.execDigest s
  | .verify => Sys2Proof.Machine.execVerify s
  | .reseal inplace => Sys2Proof.Machine.execReseal inplace s

end Sys2Proof.Machine
end

