-- ==== Sys2Proof/Machine/Sequencer.lean ====
section
/-! DEFINITION. Which step comes next (R69, R95, R280, R289) and how ENGINE finds the command it performs. -/

namespace Sys2Proof.Machine

/-- Whose step comes next. With `turns` used up, ENGINE moves while BUSY = 1, else HOST: fairness (R289, log 3). -/
def nextTurn (s : State) : Turn :=
  match s.turns with
  | t :: _ => t
  | [] => if s.busy then .engine else .host

/-- The state with the turn taken off. -/
def popTurn (s : State) : State := { s with turns := s.turns.tail }

/-- The word of the command in progress: the latched OP and INPLACE, RSV = 0 (R44, R90). -/
def latchedWord (s : State) : Word := 0#23 ++ BitVec.ofBool s.eng.inplace ++ s.eng.op

/-- The command in progress, as the decoder reads it from the latched word. -/
def latchedInstr (s : State) : Option Instr :=
  match decode (bytesOfWord (latchedWord s)) with
  | .ok (i, _) => some i
  | .error _ => none

/-- ENGINE's step: none is enabled while BUSY = 0; else the completion step (R95). -/
def engineStep (s : State) : Host.Outcome State Fault Refusal :=
  if s.busy then
    match latchedInstr s with
    | some i => exec i s
    | none => .refused .noCommandRule
  else .next s

/-- The state in which a command word has been handed to ENGINE and ENGINE moves next. A legal word is accepted as
issue accepts it (R93), an illegal one completes with ILLEGAL_CMD as at issue (log 4). -/
def handWord (w : Word) (s : State) : State :=
  match decodeWord w with
  | .ok _ => { acceptCommand w s with turns := .engine :: s.turns }
  | .error _ => issue w s

end Sys2Proof.Machine
end

