-- ==== Sys2Proof/Machine/Step.lean ====
section
/-! DEFINITION. One step of the whole system: HOST, ENGINE or reset (R3, R69, R280). -/

namespace Sys2Proof.Machine

/-- One step of the total order of R69. -/
def step (s : State) : Host.Outcome State Fault Refusal :=
  match nextTurn s with
  | .host => hostStep (popTurn s)
  | .engine => engineStep (popTurn s)
  | .reset => .next (resetBlock (popTurn s))

/-- The table's instruction handed to ENGINE, so that the very next step performs it (log 4). -/
def State.withFetchWord (s : State) (nbits w : Nat) : State := handWord (tableWord nbits w) s

end Sys2Proof.Machine
end

