-- ==== Sys2Proof/Machine/Image.lean ====
section
/-! DEFINITION. The image format read off a buffer (30_encoding R96 to R98, 44_reseal R209), without the machine: the
terms in which claims say what a walk, a fold or a reseal must find. No step calls this file. -/

namespace Sys2Proof.Machine

/-- The 4-byte little-endian field at `a`, where its bytes are defined (R99). -/
def imageWord (m : Memory) (a : Nat) : Option Word := (Memory.bytes m a 4).map leWord

/-- The segment record at `c` when it lies whole within `[0, L)` (R97, R142). -/
def recordAt (m : Memory) (L c : Nat) : Option SegDesc :=
  (imageWord m c).bind fun la => (imageWord m (c + 4)).bind fun dl =>
    if c + 8 + dl.toNat ≤ L then some ⟨la, dl, BitVec.ofNat 32 (c + 8)⟩ else none

/-- The `n` back-to-back records from `c` on, in file order (R97, R103). -/
def recordsFrom (m : Memory) (L : Nat) : Nat → Nat → Option (List SegDesc)
  | 0, _ => some []
  | n + 1, c =>
    (recordAt m L c).bind fun d => (recordsFrom m L n (c + 8 + d.dataLen.toNat)).map fun ds => d :: ds

/-- The bytes the records take up: the sum of `8 + dl` (R97, R148). -/
def recordsSize (ds : List SegDesc) : Nat := (ds.map fun d => 8 + d.dataLen.toNat).sum

/-- The walk end `e = 24 + sum (8 + dl_i)` (R148). -/
def walkEnd (ds : List SegDesc) : Nat := Config.hdrLen + recordsSize ds

/-- The data of all records, `D_0 ++ ... ++ D_{n-1}` with `D_i = T[DATA_OFF_i, DATA_OFF_i + dl_i)` (R161). -/
def payload (m : Memory) : List SegDesc → Option (List Byte)
  | [] => some []
  | d :: ds =>
    (Memory.bytes m d.dataOff.toNat d.dataLen.toNat).bind fun b => (payload m ds).map fun bs => b ++ bs

/-- The checksum of an image whose records' data is `bs` (R161). -/
def checksumOf (bs : List Byte) : Byte := foldBytes Config.seed bs

/-- SEGTAB after the walk recorded `ds` from entry `i` on (R144). -/
def writeRecords (t : Table SegDesc) (i : Nat) : List SegDesc → Table SegDesc
  | [] => t
  | d :: ds => writeRecords (Table.set t i d) (i + 1) ds

/-- The image of length `L` in `m` has a valid header and `ds` are its records (R96, R97): what the header parser and
the walker accept. -/
structure Parses (m : Memory) (L : Nat) (n : Byte) (ds : List SegDesc) : Prop where
  /-- the header region is there -/
  header : 24 ≤ L
  /-- byte 0 is the sentinel -/
  magic : Table.get m 0 = some 0xE9
  /-- byte 1 is `segment_count` -/
  count : Table.get m 1 = some n
  /-- every record lies within the buffer -/
  records : recordsFrom m L n.toNat 24 = some ds

/-- How the record at `c` fails (R140, R252): the field reported and the offset recorded, in exact arithmetic. -/
inductive RecordFails (m : Memory) (L c : Nat) : ErrField → Nat → Prop where
  /-- `c + 4 > L` -/
  | loadAddr (h : L < c + 4) : RecordFails m L c .segLoadAddr c
  /-- else `c + 8 > L` -/
  | dataLen (h4 : c + 4 ≤ L) (hd : (imageWord m c).isSome = true) (h : L < c + 8) : RecordFails m L c .segDataLen (c + 4)
  /-- else `c + 8 + dl > L` -/
  | data (dl : Word) (h8 : c + 8 ≤ L) (hd : (imageWord m c).isSome = true) (hl : imageWord m (c + 4) = some dl)
      (h : L < c + 8 + dl.toNat) : RecordFails m L c .segData (c + 8)

/-- A well-formed image (R209): (2), (3) by `Parses`, (1), (4), (5) as stated, every byte defined. -/
structure WellFormedImage (m : Memory) (L cap : Nat) (n : Byte) (ds : List SegDesc) : Prop where
  /-- (1) -/
  fits : L ≤ cap
  /-- (2) and (3) -/
  parses : Parses m L n ds
  /-- (4) -/
  slot : 33 ≤ L
  /-- (5): the records end at or before the slot -/
  ends : walkEnd ds ≤ L - 33
  /-- `b` is a byte string: `[0, L)` is defined -/
  defined : (Memory.bytes m 0 L).isSome = true

end Sys2Proof.Machine
end

