-- ==== Sys2Proof/Safety.lean ====
section
/-! DEFINITION. What a sound state of the block is, in the terms claims use. -/

namespace Sys2Proof.Machine

/-- A word that shows a byte: bits 31:8 read 0 (R27, R28, R31, R32, R36, R37, R99). -/
abbrev isByte (w : Word) : Prop := w.toNat < 256

/-- The tables hold their canonical form and only cells that exist (R41 to R43). -/
structure MemInv (s : State) : Prop where
  imgWf : Memory.wf s.img
  outWf : Memory.wf s.out
  segtabWf : Table.wf s.segtab
  imgCap : ∀ x ∈ s.img, x.1 < s.cap.toNat
  outCap : ∀ x ∈ s.out, x.1 < s.cap.toNat
  segtabMax : ∀ x ∈ s.segtab, x.1 < 255

/-- The registers hold values their rules allow (R6, R27 to R38). -/
structure RegInv (s : State) : Prop where
  capMin : 1 ≤ s.cap.toNat
  capMax : s.cap.toNat ≤ 2 ^ 24
  errCode : isByte s.errCode
  errField : isByte s.errField
  errOffset : s.errOffset.toNat ≤ s.cap.toNat
  errSeg : s.errSeg.toNat ≤ 254
  magic : isByte s.magic
  segCount : isByte s.segCount
  segDone : s.segDone.toNat ≤ 255
  cursor : s.cursor.toNat ≤ s.cap.toNat
  trailerStart : s.trailerStart.toNat ≤ s.cap.toNat
  csum : isByte s.csum
  csumStored : isByte s.csumStored

/-- The values STATUS takes (R24): after reset, busy, after an error, after a success with VERIFY's findings. -/
def statusLegal (w : Word) : Prop :=
  w = 0 ∨ w = 0x01 ∨ w = 0x06 ∨ w = 0x0A ∨ w = 0x1A ∨ w = 0x2A ∨ w = 0x3A

/-- While no command is in progress the hidden state is discarded, and HOST can see only FSM 0, 5 and 6 (R25, R44). -/
structure IdleInv (s : State) : Prop where
  hidden : s.eng = Engine.none
  fsm : s.fsm = .idle ∨ s.fsm = .resealed ∨ s.fsm = .rejected

/-- While a command is in progress (R44, R93): BUSY alone is set, CMD holds the word of the command `i` latched, the
length fits, and FSM is LOADED exactly for RESEAL. -/
structure BusyInv (s : State) (i : Instr) : Prop where
  status : s.status = 0x01
  cmd : s.cmd = encode i
  op : s.eng.op = i.op
  inplace : s.eng.inplace = i.inplaceBit
  len : s.eng.len = s.len
  fits : s.imageLen ≤ s.cap.toNat
  fsm : s.fsm = if i.op = 0x06 then .loaded else .idle

/-- The invariant of every reachable state. -/
structure Inv (s : State) : Prop where
  mem : MemInv s
  regs : RegInv s
  status : statusLegal s.status
  idle : s.busy = false → IdleInv s
  busy : s.busy = true → ∃ i, BusyInv s i

/-- The block's own state: everything but HOST's items, the turns and HOST's reads (R20). -/
def sameBlock (s t : State) : Prop :=
  t = { s with pending := t.pending, turns := t.turns, reads := t.reads }

/-- HOST's step comes next and `a` is its access. -/
def hostMakes (s : State) (a : Access) (rest : List HostItem) : Prop :=
  nextTurn s = .host ∧ s.pending = .access a :: rest

/-- The state in which HOST's access has been taken off `pending`, and its turn off `turns`. -/
def afterItem (s : State) (rest : List HostItem) : State := { popTurn s with pending := rest }

/-- The width of an access in bytes (R104). -/
def accessWidth : Access → Nat
  | .write width _ _ => width
  | .read width _ => width

/-- The address of an access (R104). -/
def accessAddr : Access → Addr
  | .write _ addr _ => addr
  | .read _ addr => addr

/-- The accesses R62 allows, in the map's own numbers (R60). -/
def shapeAllowed (width : Nat) (addr : Addr) : Prop :=
  let a := addr.toNat
  if a < 0x100 ∨ (0x1000 ≤ a ∧ a < 0x2000) then width = 4 ∧ a % 4 = 0
  else width = 1 ∨ (width = 2 ∧ a % 2 = 0) ∨ (width = 4 ∧ a % 4 = 0)

/-- The unmapped addresses of R60: the holes, and the window offsets at or above CAP. -/
def unmappedByte (cap a : Nat) : Prop :=
  (0x100 ≤ a ∧ a < 0x1000) ∨ (0x2000 ≤ a ∧ a < 0x1000000) ∨ (0x1000000 + cap ≤ a ∧ a < 0x2000000) ∨
    (0x2000000 + cap ≤ a ∧ a < 0x3000000) ∨ 0x3000000 ≤ a

/-- The bytes that read 0 and discard writes: unmapped ones, and the reserved register offsets (R40, R63). -/
def readsAsZero (cap a : Nat) : Prop := unmappedByte cap a ∨ (0x60 ≤ a ∧ a < 0x100)

/-- The command `i` is about to complete: STATUS and FSM are as its issue left them (R93). -/
def started (i : Instr) (s : State) : Prop :=
  s.status = 0x01 ∧ s.fsm = if i.op = 0x06 then .loaded else .idle

/-- The error registers and STATUS after a command that ended in an error (R256). -/
def reports (t : State) (code field : Word) (offset seg : Nat) : Prop :=
  t.errCode = code ∧ t.errField = field ∧ t.errOffset = BitVec.ofNat 32 offset ∧ t.errSeg = BitVec.ofNat 32 seg ∧
    t.status = 0x06

/-- The commands that walk the records (R140). -/
def walks (i : Instr) : Prop := i ≠ .hdrParse ∧ i ≠ .digest

/-- The commands that need the slot and the trailer (R203, R230). -/
def needsSlot : Instr → Prop
  | .hdrParse => False
  | .parse => False
  | .checksum => False
  | .digest => False
  | .verify => True
  | .reseal _ => True

/-- The result buffer of RESEAL (R205). -/
def resultBuffer (inplace : Bool) (t : State) : Memory := if inplace then t.img else t.out

/-- Two buffers with the same cells in `[0, L)`. -/
def sameBytes (m m' : Memory) (L : Nat) : Prop := ∀ a < L, Table.get m a = Table.get m' a

/-- `a` is the offset of a data byte of one of the records (R97). -/
def isDataByte (ds : List SegDesc) (a : Nat) : Prop :=
  ∃ d ∈ ds, d.dataOff.toNat ≤ a ∧ a < d.dataOff.toNat + d.dataLen.toNat

/-- `n` steps of the machine. -/
def runSteps (n : Nat) (s : State) : Host.Outcome State Fault Refusal :=
  match n with
  | 0 => .next s
  | k + 1 =>
    match step s with
    | .next t => runSteps k t
    | .fault f => .fault f
    | .refused r => .refused r

end Sys2Proof.Machine
end

