-- ==== Sys2Proof/Certificates/Slice0/Obligations.lean ====
section
/-! DEFINITION. The statements for the provers, from the numbered rules of spec/. Where a statement gives the hidden state after
a completion as `Engine.none`, that clause is the model's choice (log 8), and so is what HOST's `pending`, `turns` and
`reads` hold (logs 3, 4, 5). -/

open Sys2Proof Sys2Proof.Machine

/-! Encoding. -/

/-- R90, R91: the decoder reads an encoded command back, whatever bytes follow. -/
def Obligations.DecodeInvertsEncode : Prop :=
  ∀ (i : Instr) (rest : List Byte), i.wellFormed = true → decode (encodeBytes i ++ rest) = .ok (i, rest)

/-- R90 to R92: a word stands for a command exactly when it is that command's encoding, so every word has at most
one meaning and no bit of it is dropped. -/
def Obligations.WordDecodesToExactlyItsEncoding : Prop :=
  ∀ (w : Word) (i : Instr), decodeWord w = .ok i ↔ w = encode i

/-- R92: the legal words, by OP = w mod 256, INPLACE = w / 256 mod 2, RSV = w / 512; issuing any other word completes at
once with ILLEGAL_CMD. -/
def Obligations.LegalWords : Prop :=
  ∀ w : Word,
    let legal := (1 ≤ w.toNat % 256 ∧ w.toNat % 256 ≤ 6) ∧ w.toNat / 512 = 0 ∧
      (w.toNat / 256 % 2 = 0 ∨ w.toNat % 256 = 6)
    ((∃ i, decodeWord w = .ok i) ↔ legal) ∧
      (¬ legal → ∀ (s : State) (rest : List HostItem), s.busy = false → hostMakes s (.write 4 cmdAddr w) rest →
        ∃ t, step s = .next t ∧ t.errCode = 0x80 ∧ t.busy = false ∧ t.done = true)

/-- R91: the full words of the opcode map. -/
def Obligations.SpecWordsDecode : Prop :=
  decodeWord 0x00000001 = .ok .hdrParse ∧ decodeWord 0x00000002 = .ok .parse ∧ decodeWord 0x00000003 = .ok .checksum ∧
    decodeWord 0x00000004 = .ok .digest ∧ decodeWord 0x00000005 = .ok .verify ∧
    decodeWord 0x00000006 = .ok (.reseal false) ∧ decodeWord 0x00000106 = .ok (.reseal true)

/-! Issue, sequencing and reset. -/

/-- R95: with BUSY = 1 and ENGINE's turn, the step is the completion step of the command latched; the turn is taken off. -/
def Obligations.StepPerformsLatchedCommand : Prop :=
  ∀ (s : State) (i : Instr), nextTurn s = .engine → s.busy = true → latchedInstr s = some i →
    step s = exec i (popTurn s)

/-- The model's hand-over (log 4): the word of any table row placed by `withFetchWord` is the command the very next
step performs, from the state its issue leaves (R93). -/
def Obligations.HandedWordRunsNext : Prop :=
  ∀ (s : State) (nbits w : Nat) (i : Instr), decodeTableWord nbits w = some i →
    step (s.withFetchWord nbits w) = exec i { acceptCommand (tableWord nbits w) s with turns := s.turns }

/-- R93, R94, R254, R255: what a HOST write of a word to CMD does, whole: the hazard while BUSY, the acceptance of a legal word
with its latches, BAD_LENGTH, ILLEGAL_CMD. (The item and the turn that `afterItem` takes off are the model's, logs 3, 4.) -/
def Obligations.IssueOfAWord : Prop :=
  ∀ (s : State) (w : Word) (rest : List HostItem), hostMakes s (.write 4 cmdAddr w) rest →
    let cleared : State :=
      { afterItem s rest with
        cmd := w, magic := 0, segCount := 0, segDone := 0, cursor := 0, trailerStart := 0, csum := 0, csumStored := 0
        digest := Vector.replicate 8 0, fsm := .idle, errOffset := 0, errSeg := 0 }
    (s.busy = true → step s = .fault .hostHazard) ∧
    (s.busy = false →
      (∀ i, decodeWord w = .ok i → s.len.toNat ≤ s.cap.toNat →
        ∃ t, step s = .next t ∧ t.eng.op = i.op ∧ t.eng.inplace = i.inplaceBit ∧ t.eng.len = s.len ∧
          t = { cleared with
            status := 0x01, errCode := 0, errField := 0, fsm := if i.op = 0x06 then .loaded else .idle
            eng := t.eng }) ∧
      (∀ i, decodeWord w = .ok i → s.cap.toNat < s.len.toNat →
        ∃ t, step s = .next t ∧ t = { cleared with status := 0x06, errCode := 0x81, errField := 8, eng := t.eng }) ∧
      (∀ e, decodeWord w = .error e →
        ∃ t, step s = .next t ∧ t = { cleared with status := 0x06, errCode := 0x80, errField := 7, eng := t.eng }))

/-- R95: when BUSY = 0, ENGINE has no enabled step: its turn changes nothing. -/
def Obligations.EngineIdleChangesNothing : Prop :=
  ∀ s : State, nextTurn s = .engine → s.busy = false → step s = .next (popTurn s)

/-- R280: a reset at any moment, BUSY or not: every register of the block at its reset value, every memory cell undefined,
no command in progress. HOST's own data stays (log 18), and the hidden state's value is the model's (log 8). -/
def Obligations.ResetAtAnyMoment : Prop :=
  ∀ s : State, nextTurn s = .reset →
    ∃ t, step s = .next t ∧
      t = { State.reset with cap := s.cap, pending := s.pending, turns := s.turns.tail, reads := s.reads } ∧
      t.busy = false ∧ (∀ a, Table.get t.img a = none ∧ Table.get t.out a = none ∧ Table.get t.segtab a = none)

/-- R281: the state after reset, as the register window shows it: every word 0 but CAP, which shows the parameter. -/
def Obligations.RegistersAfterReset : Prop :=
  ∀ k < 64, (readReg State.reset k).toNat = if k = 15 then Config.cap else 0

/-- R289 with the model's turns (log 3): a command in progress completes in a bounded number of steps while HOST polls, or its
completion step is the model fault UndefinedRead. -/
def Obligations.IssuedCommandCompletes : Prop :=
  ∀ (s : State) (k : Nat), Inv s → s.busy = true → s.turns = List.replicate k .host →
    (∀ x ∈ s.pending, x = .wait ∨ x = .access (.read 4 statusAddr)) →
    runSteps (k + 1) s = .fault .undefinedRead ∨ ∃ t, runSteps (k + 1) s = .next t ∧ t.busy = false ∧ t.done = true

/-- The model's WAIT (log 13, DESIGN CHOICE: WAIT is one item of HOST's, turned into one read of STATUS a step), after R105's
expansion: it reads STATUS and stays HOST's next item exactly while bit 0 of the value read is 1. -/
def Obligations.WaitPollsStatus : Prop :=
  ∀ (s : State) (rest : List HostItem), nextTurn s = .host → s.pending = .wait :: rest →
    step s = .next { afterItem s (if s.busy then .wait :: rest else rest) with reads := s.status :: s.reads }

/-! HOST's bus. -/

/-- R283 with the model's order of faults (log 7, DESIGN CHOICE): while BUSY = 1 the one access is a 32-bit read of STATUS, which
returns 1; anything else is HostHazard, an access of a shape R62 does not allow and a read of an undefined cell too, for which
the spec also names BusFault or UndefinedRead and gives no order. -/
def Obligations.BusyAllowsOnlyStatusReads : Prop :=
  ∀ (s : State) (a : Access) (rest : List HostItem), s.busy = true → hostMakes s a rest →
    (a ≠ .read 4 0x4 → step s = .fault .hostHazard) ∧
    (a = .read 4 0x4 → step s = .next { afterItem s rest with reads := s.status :: s.reads }) ∧
    (Inv s → s.status = 0x01)

/-- R62: the widths and alignments allowed; any other access, and no allowed one, is BusFault. (That a read of a shape not
allowed which also covers an undefined cell is BusFault, not UndefinedRead, is the model's choice, log 7.) -/
def Obligations.BusFaultExactlyOnBadShape : Prop :=
  ∀ (s : State) (a : Access) (rest : List HostItem), s.busy = false → hostMakes s a rest →
    (step s = .fault .busFault ↔ ¬ shapeAllowed (accessWidth a) (accessAddr a))

/-- R63: an unmapped byte reads 0 and a write to it is ignored; neither faults. The reserved register offsets behave the same. -/
def Obligations.UnmappedReadZeroWriteIgnored : Prop :=
  ∀ (s : State) (width : Nat) (addr : Addr) (rest : List HostItem), s.busy = false → shapeAllowed width addr →
    (hostMakes s (.read width addr) rest →
      (∀ t, step s = .next t → ∃ v, t.reads = v :: s.reads ∧
        ∀ k < width, readsAsZero s.cap.toNat (addr.toNat + k) → v.toNat / 256 ^ k % 256 = 0) ∧
      ((∀ k < width, readsAsZero s.cap.toNat (addr.toNat + k)) →
        step s = .next { afterItem s rest with reads := 0 :: s.reads })) ∧
    (∀ v, hostMakes s (.write width addr v) rest → (∀ k < width, readsAsZero s.cap.toNat (addr.toNat + k)) →
      step s = .next (afterItem s rest))

/-- R64, R40: writes to read-only and reserved registers, to SEGTAB and to OUT change no state; LEN stores every bit; a write
to IMG sets exactly the bytes written below CAP. -/
def Obligations.HostWrites : Prop :=
  ∀ (s : State) (width : Nat) (addr : Addr) (v : Word) (rest : List HostItem), s.busy = false →
    shapeAllowed width addr → hostMakes s (.write width addr v) rest →
    let a := addr.toNat
    ((a < 0x100 ∧ a ≠ 0 ∧ a ≠ 0xC) ∨ (0x1000 ≤ a ∧ a < 0x2000) ∨ (0x2000000 ≤ a ∧ a < 0x3000000) →
      step s = .next (afterItem s rest)) ∧
    (a = 0xC → step s = .next { afterItem s rest with len := v }) ∧
    (a = 0 → step s = .next (issue v (afterItem s rest))) ∧
    (0x1000000 ≤ a ∧ a < 0x2000000 →
      ∃ t, step s = .next t ∧ t = { afterItem s rest with img := t.img } ∧
        ∀ b, Table.get t.img b =
          if a - 0x1000000 ≤ b ∧ b < a - 0x1000000 + width ∧ b < s.cap.toNat then
            some (BitVec.ofNat 8 (v.toNat / 256 ^ (b - (a - 0x1000000))))
          else Table.get s.img b)

/-- R60, R61, R63, R65, R11: a read of any allowed shape in a window, one that runs across CAP among them (byte by byte, log 20):
the little-endian value of its bytes, those at or above CAP being 0, or the model fault when a byte below CAP is undefined. -/
def Obligations.WindowReads : Prop :=
  ∀ (s : State) (width o : Nat) (addr : Addr) (rest : List HostItem), s.busy = false → shapeAllowed width addr →
    hostMakes s (.read width addr) rest → o < 0x1000000 →
    ∀ m, (addr.toNat = 0x1000000 + o ∧ m = s.img) ∨ (addr.toNat = 0x2000000 + o ∧ m = s.out) →
      (∀ bs : List Byte, bs.length = width →
        (∀ k < width, bs[k]? = if o + k < s.cap.toNat then Table.get m (o + k) else some 0) →
        step s = .next { afterItem s rest with reads := BitVec.ofNat 32 (leNat bs) :: s.reads }) ∧
      ((∃ k < width, o + k < s.cap.toNat ∧ Table.get m (o + k) = none) → step s = .fault .undefinedRead)

/-- R8: LE32. -/
def Obligations.LittleEndianWord : Prop :=
  ∀ b0 b1 b2 b3 : Byte,
    (leWord [b0, b1, b2, b3]).toNat = b0.toNat + 2 ^ 8 * b1.toNat + 2 ^ 16 * b2.toNat + 2 ^ 24 * b3.toNat

/-- R65: a HOST read changes nothing of the block, and the same read made again returns the same value. -/
def Obligations.ReadsHaveNoSideEffect : Prop :=
  ∀ (s t : State) (width : Nat) (addr : Addr) (rest : List HostItem), hostMakes s (.read width addr) rest →
    step s = .next t →
    sameBlock s t ∧
      ∃ v, t.reads = v :: s.reads ∧
        ∀ (s' : State) (rest' : List HostItem), sameBlock s s' → hostMakes s' (.read width addr) rest' →
          ∃ u, step s' = .next u ∧ u.reads = v :: s'.reads

/-- R23 to R40: what a read of each word of the register window returns. -/
def Obligations.RegisterMap : Prop :=
  ∀ (s : State) (k : Nat) (addr : Addr) (rest : List HostItem), s.busy = false → k < 64 → addr.toNat = 4 * k →
    hostMakes s (.read 4 addr) rest →
    step s = .next
      { afterItem s rest with
        reads := ([s.cmd, s.status, fsmCode s.fsm, s.len, s.errCode, s.errField, s.errOffset, s.errSeg, s.magic,
          s.segCount, s.segDone, s.cursor, s.trailerStart, s.csum, s.csumStored, s.cap] ++ s.digest.toList).getD k 0
            :: s.reads }

/-- R25: the encoding of FSM. -/
def Obligations.FsmEncoding : Prop :=
  fsmCode .idle = 0 ∧ fsmCode .loaded = 1 ∧ fsmCode .headerValidated = 2 ∧ fsmCode .checksumRecomputed = 3 ∧
    fsmCode .digestRecomputed = 4 ∧ fsmCode .resealed = 5 ∧ fsmCode .rejected = 6

/-- R41, R60: the SEGTAB window: the three words of a defined entry, zero for the fourth word and for the last 16 bytes, the
model fault for an undefined entry. -/
def Obligations.SegtabReads : Prop :=
  ∀ (s : State) (i j : Nat) (addr : Addr) (rest : List HostItem), s.busy = false → i < 256 → j < 4 →
    addr.toNat = 0x1000 + 16 * i + 4 * j → hostMakes s (.read 4 addr) rest →
    ((j = 3 ∨ i = 255) → step s = .next { afterItem s rest with reads := 0 :: s.reads }) ∧
    (j < 3 → i < 255 →
      (∀ d, Table.get s.segtab i = some d →
        step s = .next { afterItem s rest with reads := [d.loadAddr, d.dataLen, d.dataOff].getD j 0 :: s.reads }) ∧
      (Table.get s.segtab i = none → step s = .fault .undefinedRead))

/-! The header parser. -/

/-- R120: HeaderParse over any target: its two errors in order, its result, the bytes it reads. -/
def Obligations.HeaderParseOutcome : Prop :=
  ∀ s : State,
    (s.imageLen < 24 → headerParse s = raise .truncated .header 0 0 s) ∧
    (24 ≤ s.imageLen →
      (Table.get s.target 0 = none → headerParse s = .fault .undefinedRead) ∧
      (∀ m : Byte, Table.get s.target 0 = some m → m ≠ 0xE9 →
        headerParse s = raise .badMagic .magic 0 0 { s with magic := m.toWord }) ∧
      (Table.get s.target 0 = some 0xE9 →
        (Table.get s.target 1 = none → headerParse s = .fault .undefinedRead) ∧
        (∀ n : Byte, Table.get s.target 1 = some n →
          headerParse s = .ok n.toNat { s with magic := 0xE9, segCount := n.toWord })))

/-- R122, R123: HDR_PARSE, whole: its success with the one new state, its two errors, its two model faults. -/
def Obligations.HdrParse : Prop :=
  ∀ s : State, started .hdrParse s →
    (s.imageLen < 24 →
      exec .hdrParse s = .next { s with status := 0x06, errCode := 0x02, errField := 2, errOffset := 0, errSeg := 0, eng := Engine.none }) ∧
    (24 ≤ s.imageLen →
      (Table.get s.img 0 = none → exec .hdrParse s = .fault .undefinedRead) ∧
      (∀ m : Byte, Table.get s.img 0 = some m → m ≠ 0xE9 →
        exec .hdrParse s = .next
          { s with magic := m.toWord, status := 0x06, errCode := 0x01, errField := 1, errOffset := 0, errSeg := 0, eng := Engine.none }) ∧
      (Table.get s.img 0 = some 0xE9 →
        (Table.get s.img 1 = none → exec .hdrParse s = .fault .undefinedRead) ∧
        (∀ n : Byte, Table.get s.img 1 = some n →
          exec .hdrParse s = .next { s with status := 0x0A, magic := 0xE9, segCount := n.toWord, eng := Engine.none })))

/-- R252 (a): TRUNCATED (HEADER) for every command but DIGEST, with all it leaves. RESEAL copies the cells of IMG first. -/
def Obligations.ShortImageIsTruncated : Prop :=
  ∀ (i : Instr) (s : State), i ≠ .digest → started i s → s.imageLen < 24 →
    ∃ t, exec i s = .next t ∧
      t = { s with
        status := 0x06, errCode := 0x02, errField := 2, errOffset := 0, errSeg := 0
        fsm := if i.op = 0x06 then .rejected else s.fsm
        out := t.out, eng := Engine.none } ∧
      ∀ a, Table.get t.out a = if i = .reseal false ∧ a < s.imageLen then Table.get s.img a else Table.get s.out a

/-- R251: BAD_MAGIC for every command but DIGEST, with all it leaves, and never for DIGEST. -/
def Obligations.BadMagicIsReported : Prop :=
  (∀ (i : Instr) (s : State) (m : Byte), i ≠ .digest → started i s → 24 ≤ s.imageLen → Table.get s.img 0 = some m →
    m ≠ 0xE9 →
    ∃ t, exec i s = .next t ∧
      t = { s with
        magic := m.toWord, status := 0x06, errCode := 0x01, errField := 1, errOffset := 0, errSeg := 0
        fsm := if i.op = 0x06 then .rejected else s.fsm
        out := t.out, eng := t.eng } ∧
      ∀ a, Table.get t.out a = if i = .reseal false ∧ a < s.imageLen then Table.get s.img a else Table.get s.out a) ∧
  (∀ s t : State, s.errCode = 0 → exec .digest s = .next t → t.errCode ≠ 0x01)

/-- R125: the header parser's outcome depends on L, on byte 0 when L >= 24, and on byte 1 when byte 0 is the sentinel. -/
def Obligations.HeaderOutcomeDependsOnTwoBytes : Prop :=
  ∀ s s' t : State, started .hdrParse s → started .hdrParse s' → s.imageLen = s'.imageLen →
    (24 ≤ s.imageLen → Table.get s.img 0 = Table.get s'.img 0) →
    (24 ≤ s.imageLen → Table.get s.img 0 = some 0xE9 → Table.get s.img 1 = Table.get s'.img 1) →
    s.errCode = s'.errCode → s.magic = s'.magic → s.segCount = s'.segCount →
    exec .hdrParse s = .next t →
    ∃ t', exec .hdrParse s' = .next t' ∧ t'.errCode = t.errCode ∧ t'.magic = t.magic ∧ t'.segCount = t.segCount ∧
      t'.status = t.status

/-! The walk, PARSE and CHECKSUM. -/

/-- R146, R144, R148: PARSE of an image whose records lie within it: the whole new state. -/
def Obligations.ParseSucceeds : Prop :=
  ∀ (s : State) (n : Byte) (ds : List SegDesc), started .parse s → Parses s.img s.imageLen n ds →
    ∃ t, exec .parse s = .next t ∧
      t = { s with
        status := 0x0A, magic := 0xE9, segCount := n.toWord, segDone := n.toWord
        cursor := BitVec.ofNat 32 (walkEnd ds), segtab := t.segtab, eng := Engine.none } ∧
      ∀ j, Table.get t.segtab j = if j < n.toNat then ds[j]? else Table.get s.segtab j

/-- R165, R161: CHECKSUM of an image whose records lie within it: the whole new state. -/
def Obligations.ChecksumSucceeds : Prop :=
  ∀ (s : State) (n : Byte) (ds : List SegDesc) (bs : List Byte), started .checksum s → Parses s.img s.imageLen n ds →
    payload s.img ds = some bs →
    ∃ t, exec .checksum s = .next t ∧
      t = { s with
        status := 0x0A, magic := 0xE9, segCount := n.toWord, segDone := n.toWord
        cursor := BitVec.ofNat 32 (walkEnd ds), csum := (checksumOf bs).toWord, segtab := t.segtab, eng := Engine.none } ∧
      ∀ j, Table.get t.segtab j = if j < n.toNat then ds[j]? else Table.get s.segtab j

/-- R252 (b), R143, R144, R164: every walking command on an image whose record `k` is the first that fails: the error recorded,
the records before it in SEGTAB, CURSOR, SEG_DONE and, but for PARSE, the partial fold; everything else as it was. -/
def Obligations.WalkStopsAtFirstBadRecord : Prop :=
  ∀ (i : Instr) (s : State) (n : Byte) (k : Nat) (ds : List SegDesc) (bs : List Byte) (f : ErrField) (o : Nat),
    walks i → started i s → 24 ≤ s.imageLen → Table.get s.img 0 = some 0xE9 → Table.get s.img 1 = some n →
    k < n.toNat → recordsFrom s.img s.imageLen k 24 = some ds → (i ≠ .parse → payload s.img ds = some bs) →
    RecordFails s.img s.imageLen (walkEnd ds) f o →
    ∃ t, exec i s = .next t ∧ reports t 0x02 (errFieldNumber f) o k ∧
      t = { s with
        status := 0x06, errCode := 0x02, errField := t.errField, errOffset := t.errOffset, errSeg := t.errSeg
        fsm := if i.op = 0x06 then .rejected else s.fsm
        magic := 0xE9, segCount := n.toWord, segDone := BitVec.ofNat 32 k, cursor := BitVec.ofNat 32 (walkEnd ds)
        csum := if i = .parse then s.csum else (checksumOf bs).toWord
        segtab := t.segtab, out := t.out, eng := Engine.none } ∧
      (∀ j, Table.get t.segtab j = if j < k then ds[j]? else Table.get s.segtab j) ∧
      ∀ a, Table.get t.out a = if i = .reseal false ∧ a < s.imageLen then Table.get s.img a else Table.get s.out a

/-- R147: the truncation law, for every walking command: cut at L', an image whose walk over L bytes ends at e fails with
TRUNCATED exactly when L' < e, from the header when L' < 24 and from a record otherwise; not cut before e it fails only with
TOO_SHORT, only where the slot and trailer do not fit, and otherwise succeeds on the trailer start of L'. -/
def Obligations.TruncationLaw : Prop :=
  ∀ (i : Instr) (s : State) (L : Nat) (n : Byte) (ds : List SegDesc), walks i → started i s → L < 2 ^ 32 →
    s.imageLen ≤ L → Parses s.img L n ds → (Memory.bytes s.img 0 L).isSome = true → s.errCode = 0 →
    ∃ t, exec i s = .next t ∧ (t.errCode = 0x02 ↔ s.imageLen < walkEnd ds) ∧
      (s.imageLen < 24 → t.errField = 2) ∧
      (24 ≤ s.imageLen → s.imageLen < walkEnd ds → t.errField = 3 ∨ t.errField = 4 ∨ t.errField = 5) ∧
      (walkEnd ds ≤ s.imageLen →
        (needsSlot i ∧ s.imageLen < 33 → reports t 0x03 6 0 0) ∧
        (¬(needsSlot i ∧ s.imageLen < 33) → t.resultValid = true ∧ t.errCode = 0 ∧
          (needsSlot i → t.trailerStart = BitVec.ofNat 32 (s.imageLen - 32))))

/-- R163: the fold does not depend on the order of the records, and may be taken in parts combined with XOR. -/
def Obligations.FoldIsOrderIndependent : Prop :=
  ∀ (parts parts' : List (List Byte)),
    (parts.Perm parts' → foldBytes 0xEF parts.flatten = foldBytes 0xEF parts'.flatten) ∧
    foldBytes 0xEF parts.flatten = parts.foldl (fun a p => a ^^^ foldBytes 0 p) 0xEF

/-- R166: the laws of the checksum, on two CHECKSUM commands: (1) no segments, (2) one data byte replaced, (3) it depends on
the data bytes through their XOR alone, so reordering them leaves it unchanged. -/
def Obligations.ChecksumLaws : Prop :=
  ∀ (s s' : State) (n n' : Byte) (ds ds' : List SegDesc) (bs bs' : List Byte),
    started .checksum s → started .checksum s' → Parses s.img s.imageLen n ds → Parses s'.img s'.imageLen n' ds' →
    payload s.img ds = some bs → payload s'.img ds' = some bs' →
    ∃ t t', exec .checksum s = .next t ∧ exec .checksum s' = .next t' ∧
      (n = 0 → t.csum = 0xEF) ∧
      (∀ p q x y, bs = p ++ x :: q → bs' = p ++ y :: q →
        t'.csum = t.csum ^^^ x.toWord ^^^ y.toWord ∧ (t'.csum = t.csum ↔ x = y)) ∧
      (t'.csum = t.csum ↔ foldBytes 0 bs' = foldBytes 0 bs) ∧
      (bs.Perm bs' → t'.csum = t.csum)

/-! DIGEST. -/

/-- R183: DIGEST, whole: TOO_SHORT below 32, else the digest of `[0, L - 32)`, the trailer not read. -/
def Obligations.DigestCommand : Prop :=
  ∀ s : State, started .digest s →
    (s.imageLen < 32 →
      exec .digest s = .next { s with status := 0x06, errCode := 0x03, errField := 6, errOffset := 0, errSeg := 0, eng := Engine.none }) ∧
    (32 ≤ s.imageLen →
      (∀ bs, Memory.bytes s.img 0 (s.imageLen - 32) = some bs →
        exec .digest s = .next
          { s with
            status := 0x0A, trailerStart := BitVec.ofNat 32 (s.imageLen - 32), digest := packDigest (Config.hash bs)
            eng := Engine.none }) ∧
      ((∃ a, a < s.imageLen - 32 ∧ Table.get s.img a = none) → exec .digest s = .fault .undefinedRead))

/-- R39: the packing of DIGEST0 to DIGEST7. -/
def Obligations.DigestPacking : Prop :=
  ∀ (d : Vector Byte 32) (k : Nat) (hk : k < 8),
    ((packDigest d)[k]).toNat =
      (d[4 * k]).toNat + 2 ^ 8 * (d[4 * k + 1]).toNat + 2 ^ 16 * (d[4 * k + 2]).toNat + 2 ^ 24 * (d[4 * k + 3]).toNat

/-- R185: DIGEST depends on L and on `IMG[0, L - 32)` alone: not on the trailer, OUT, SEGTAB or what earlier commands left. (With
`L < 32` it computes nothing, and the DIGEST registers stay as issue cleared them.) -/
def Obligations.DigestIsDeterministic : Prop :=
  ∀ s s' t : State, s.imageLen = s'.imageLen → sameBytes s.img s'.img (s.imageLen - 32) →
    (s.imageLen < 32 → s.digest = s'.digest) → exec .digest s = .next t → ∃ t', exec .digest s' = .next t' ∧ t'.digest = t.digest

/-! VERIFY. -/

/-- R230, R231: VERIFY of an image whose bytes are all defined: the whole new state, with both findings. -/
def Obligations.VerifyReportsFindings : Prop :=
  ∀ (s : State) (n : Byte) (ds : List SegDesc) (bs all : List Byte) (slot : Byte), started .verify s →
    Parses s.img s.imageLen n ds → payload s.img ds = some bs → 33 ≤ s.imageLen →
    Memory.bytes s.img 0 s.imageLen = some all → all[s.imageLen - 33]? = some slot →
    let d := Config.hash (all.take (s.imageLen - 32))
    ∃ t, exec .verify s = .next t ∧
      t = { s with
        status := 0x0A + (if checksumOf bs ≠ slot then 0x10 else 0) +
          (if d.toList ≠ all.drop (s.imageLen - 32) then 0x20 else 0)
        magic := 0xE9, segCount := n.toWord, segDone := n.toWord, cursor := BitVec.ofNat 32 (walkEnd ds)
        csum := (checksumOf bs).toWord, trailerStart := BitVec.ofNat 32 (s.imageLen - 32), csumStored := slot.toWord
        digest := packDigest d, segtab := t.segtab, eng := Engine.none } ∧
      ∀ j, Table.get t.segtab j = if j < n.toNat then ds[j]? else Table.get s.segtab j

/-- R253: TOO_SHORT of VERIFY and RESEAL, after a successful header parse and walk. -/
def Obligations.TooShortForSlot : Prop :=
  ∀ (i : Instr) (s : State) (n : Byte) (ds : List SegDesc) (bs : List Byte), needsSlot i → started i s →
    Parses s.img s.imageLen n ds → payload s.img ds = some bs → s.imageLen < 33 →
    ∃ t, exec i s = .next t ∧
      t = { s with
        status := 0x06, errCode := 0x03, errField := 6, errOffset := 0, errSeg := 0
        fsm := if i.op = 0x06 then .rejected else s.fsm
        magic := 0xE9, segCount := n.toWord, segDone := n.toWord, cursor := BitVec.ofNat 32 (walkEnd ds)
        csum := (checksumOf bs).toWord, segtab := t.segtab, out := t.out, eng := Engine.none } ∧
      (∀ j, Table.get t.segtab j = if j < n.toNat then ds[j]? else Table.get s.segtab j) ∧
      ∀ a, Table.get t.out a = if i = .reseal false ∧ a < s.imageLen then Table.get s.img a else Table.get s.out a

/-! RESEAL. -/

/-- R208, R201 to R205: RESEAL in both forms: the whole new state, and every byte of both buffers: the slot at L - 33, the
trailer from L - 32, the copied cells for INPLACE = 0, everything else as before. -/
def Obligations.ResealSucceeds : Prop :=
  ∀ (inplace : Bool) (s : State) (n : Byte) (ds : List SegDesc) (bs pre : List Byte) (old : Byte),
    started (.reseal inplace) s → Parses s.img s.imageLen n ds → payload s.img ds = some bs → 33 ≤ s.imageLen →
    Memory.bytes s.img 0 (s.imageLen - 33) = some pre → Table.get s.img (s.imageLen - 33) = some old →
    let L := s.imageLen
    let d := Config.hash (pre ++ [checksumOf bs])
    let written := fun a => if a = L - 33 then some (checksumOf bs) else d.toList[a - (L - 32)]?
    ∃ t, exec (.reseal inplace) s = .next t ∧
      t = { s with
        status := 0x0A, fsm := .resealed, magic := 0xE9, segCount := n.toWord, segDone := n.toWord
        cursor := BitVec.ofNat 32 (walkEnd ds), csum := (checksumOf bs).toWord
        trailerStart := BitVec.ofNat 32 (L - 32), csumStored := old.toWord, digest := packDigest d
        segtab := t.segtab, img := t.img, out := t.out, eng := Engine.none } ∧
      (∀ j, Table.get t.segtab j = if j < n.toNat then ds[j]? else Table.get s.segtab j) ∧
      (inplace = true → t.out = s.out ∧
        ∀ a, Table.get t.img a = if L - 33 ≤ a ∧ a < L then written a else Table.get s.img a) ∧
      (inplace = false → t.img = s.img ∧
        ∀ a, Table.get t.out a =
          if L - 33 ≤ a ∧ a < L then written a else if a < L then Table.get s.img a else Table.get s.out a)

/-- R207: after a successful RESEAL the digest is that of the UPDATED buffer: DIGEST and the trailer are H of `[0, ts)` of the
result, whose byte `ts - 1` is the new checksum. -/
def Obligations.DigestCoversNewChecksum : Prop :=
  ∀ (inplace : Bool) (s t : State), started (.reseal inplace) s → exec (.reseal inplace) s = .next t → t.status = 0x0A →
    ∃ bs ck, Memory.bytes (resultBuffer inplace t) 0 (s.imageLen - 32) = some bs ∧ bs.getLast? = some ck ∧
      t.csum = ck.toWord ∧ t.digest = packDigest (Config.hash bs) ∧
      Memory.bytes (resultBuffer inplace t) (s.imageLen - 32) 32 = some (Config.hash bs).toList

/-- R206: a failed RESEAL: FSM = REJECTED, no byte of IMG changed; with INPLACE = 0, `OUT[0, L)` equals `IMG[0, L)` cell for
cell. -/
def Obligations.FailedResealLeavesImage : Prop :=
  ∀ (inplace : Bool) (s t : State), started (.reseal inplace) s → exec (.reseal inplace) s = .next t → t.status ≠ 0x0A →
    t.status = 0x06 ∧ t.fsm = .rejected ∧ t.img = s.img ∧
      (inplace = false → ∀ a, Table.get t.out a = if a < s.imageLen then Table.get s.img a else Table.get s.out a) ∧
      (inplace = true → t.out = s.out)

/-- R200: where FSM goes: RESEALED or REJECTED from LOADED, as the command succeeds or fails; unmoved by every other command. -/
def Obligations.FsmTransitions : Prop :=
  ∀ (i : Instr) (s t : State), started i s → exec i s = .next t →
    ((∃ b, i = .reseal b) →
      (t.fsm = .resealed ∧ t.resultValid = true ∧ t.err = false) ∨ (t.fsm = .rejected ∧ t.resultValid = false ∧ t.err = true)) ∧
    ((¬∃ b, i = .reseal b) → t.fsm = .idle)

/-- R210: resealing the result of a RESEAL of a well-formed image gives the same buffer, in either mode each time, and the
result is itself well-formed. -/
def Obligations.ResealIsIdempotent : Prop :=
  ∀ (b b' : Bool) (s : State) (n : Byte) (ds : List SegDesc), started (.reseal b) s →
    WellFormedImage s.img s.imageLen s.cap.toNat n ds →
    ∃ t, exec (.reseal b) s = .next t ∧ t.status = 0x0A ∧
      WellFormedImage (resultBuffer b t) s.imageLen s.cap.toNat n ds ∧
      ∀ s', started (.reseal b') s' → s'.imageLen = s.imageLen → sameBytes s'.img (resultBuffer b t) s.imageLen →
        ∃ t', exec (.reseal b') s' = .next t' ∧ t'.status = 0x0A ∧
          sameBytes (resultBuffer b' t') (resultBuffer b t) s.imageLen

/-- R212: a VERIFY of the result of a RESEAL of a well-formed image reports no mismatch. -/
def Obligations.ResealThenVerifyIsClean : Prop :=
  ∀ (b : Bool) (s : State) (n : Byte) (ds : List SegDesc), started (.reseal b) s →
    WellFormedImage s.img s.imageLen s.cap.toNat n ds →
    ∃ t, exec (.reseal b) s = .next t ∧
      ∀ s', started .verify s' → s'.imageLen = s.imageLen → sameBytes s'.img (resultBuffer b t) s.imageLen →
        ∃ t', exec .verify s' = .next t' ∧ t'.status = 0x0A ∧ t'.csumMismatch = false ∧ t'.digestMismatch = false

/-- R233: where VERIFY ends with STATUS 0x0A, a RESEAL of the same bytes and length leaves them unchanged, well-formed or not. -/
def Obligations.VerifyCleanMakesResealNoop : Prop :=
  ∀ (b : Bool) (s t s' : State), started .verify s → exec .verify s = .next t → t.status = 0x0A →
    started (.reseal b) s' → s'.imageLen = s.imageLen → sameBytes s'.img s.img s.imageLen →
    ∃ t', exec (.reseal b) s' = .next t' ∧ t'.status = 0x0A ∧ sameBytes (resultBuffer b t') s.img s.imageLen

/-- R213: one data byte of a well-formed, consistently sealed image changed from `x` to `y`: RESEAL writes the slot byte
`old ^ x ^ y`; under `H_separates` for the two digest inputs the trailer differs too when `x` and `y` do. -/
def Obligations.EditThenReseal : Prop :=
  ∀ (b : Bool) (s : State) (n : Byte) (ds : List SegDesc) (img : Memory) (bs pre : List Byte) (a : Nat) (x y : Byte),
    started (.reseal b) s → WellFormedImage img s.imageLen s.cap.toNat n ds → payload img ds = some bs →
    Table.get img (s.imageLen - 33) = some (checksumOf bs) →
    Memory.bytes img 0 (s.imageLen - 32) = some pre →
    Memory.bytes img (s.imageLen - 32) 32 = some (Config.hash pre).toList →
    isDataByte ds a → Table.get img a = some x → s.img = Table.set img a y →
    ∃ t pre', exec (.reseal b) s = .next t ∧ t.status = 0x0A ∧
      Table.get (resultBuffer b t) (s.imageLen - 33) = some (checksumOf bs ^^^ x ^^^ y) ∧
      (checksumOf bs ^^^ x ^^^ y ≠ checksumOf bs ↔ x ≠ y) ∧
      Memory.bytes (resultBuffer b t) 0 (s.imageLen - 32) = some pre' ∧
      (x ≠ y → Config.HSeparates pre pre' →
        Memory.bytes (resultBuffer b t) (s.imageLen - 32) 32 ≠ some (Config.hash pre).toList)

/-! Frames and rules of the whole machine. -/

/-- R23, R26, R38, R44: no command writes CMD, LEN or CAP, touches HOST's data, or leaves hidden state behind (log 8). -/
def Obligations.CommandsKeepHostRegisters : Prop :=
  ∀ (i : Instr) (s t : State), exec i s = .next t →
    t.cmd = s.cmd ∧ t.len = s.len ∧ t.cap = s.cap ∧ t.pending = s.pending ∧ t.turns = s.turns ∧ t.reads = s.reads ∧
      t.eng = Engine.none

/-- R66, R42, R43: only RESEAL with INPLACE = 1 writes IMG, only RESEAL with INPLACE = 0 writes OUT, and neither outside
`[0, L)`. -/
def Obligations.OnlyResealWritesBuffers : Prop :=
  ∀ (i : Instr) (s t : State), exec i s = .next t →
    (i ≠ .reseal true → t.img = s.img) ∧ (i ≠ .reseal false → t.out = s.out) ∧
      ∀ a, s.imageLen ≤ a → Table.get t.img a = Table.get s.img a ∧ Table.get t.out a = Table.get s.out a

/-- R286, R144: SEGTAB entries at or above SEG_DONE were not written by the last command. -/
def Obligations.StaleEntriesStay : Prop :=
  ∀ (i : Instr) (s t : State), s.segDone = 0 → exec i s = .next t →
    ∀ j, t.segDone.toNat ≤ j → Table.get t.segtab j = Table.get s.segtab j

/-- R24, R95, R256: how a completed command leaves STATUS. The mismatch bits are VERIFY's alone. -/
def Obligations.CompletionStatus : Prop :=
  ∀ (i : Instr) (s t : State), started i s → exec i s = .next t →
    t.busy = false ∧ t.done = true ∧ (t.err != t.resultValid) = true ∧
      (t.csumMismatch = true ∨ t.digestMismatch = true → i = .verify ∧ t.resultValid = true) ∧
      ∀ k, 6 ≤ k → t.status.getLsbD k = false

/-- The model faults of VERIFY (R230: `[0, L)`) and RESEAL (R208: `[0, L - 32)`) on an image whose records lie within it and
whose length fits the slot and trailer: an undefined byte of that range is UndefinedRead (R11, R267). Where the header or a
record's own fields are undefined `UndefinedHeaderByteFaults` and `UndefinedRecordByteFaults` hold; DIGEST's range is in `DigestCommand`. -/
def Obligations.UndefinedByteFaults : Prop :=
  ∀ (i : Instr) (s : State) (n : Byte) (ds : List SegDesc) (a : Nat),
    needsSlot i → Parses s.img s.imageLen n ds → 33 ≤ s.imageLen →
    a < (if i = .verify then s.imageLen else s.imageLen - 32) → Table.get s.img a = none →
    exec i s = .fault .undefinedRead

/-- R280, R24 to R43: the state after reset satisfies the invariant. -/
def Obligations.ResetSatisfiesInvariant : Prop := Inv State.reset

/-- The invariant of R24 to R44 (buffers canonical and below CAP, SEGTAB below 255, byte registers below 256, STATUS a legal value,
nothing hidden while idle, a legal command latched while BUSY) is kept by EVERY step: HOST's, ENGINE's and reset. -/
def Obligations.StepKeepsInvariant : Prop :=
  ∀ s t : State, Inv s → step s = .next t → Inv t

/-- No step from a sound state is refused: every command that can be latched has its meaning. -/
def Obligations.SoundStatesAreNeverRefused : Prop :=
  ∀ (s : State) (r : Refusal), Inv s → step s ≠ .refused r

/-- R11, R122, R146, R165, R208, R230 ('Model faults'): for every command but DIGEST, with L >= 24, byte 0 undefined, or byte 0
the sentinel and byte 1 undefined, is the model fault UndefinedRead. -/
def Obligations.UndefinedHeaderByteFaults : Prop :=
  ∀ (i : Instr) (s : State), i ≠ .digest → 24 ≤ s.imageLen →
    (Table.get s.img 0 = none → exec i s = .fault .undefinedRead) ∧
    (Table.get s.img 0 = some 0xE9 → Table.get s.img 1 = none → exec i s = .fault .undefinedRead)

/-- R11, R146, R165, R208, R230 ('Model faults'): for every walking command that reaches record `k`, at `c`, an undefined byte
`a` is UndefinedRead where it lies in the record's load address (`c + 4 <= L`), in its data length (`c + 8 <= L`), or, for the
commands that fold, in its data once its three checks pass. -/
def Obligations.UndefinedRecordByteFaults : Prop :=
  ∀ (i : Instr) (s : State) (n : Byte) (k : Nat) (ds : List SegDesc) (a : Nat),
    walks i → 24 ≤ s.imageLen → Table.get s.img 0 = some 0xE9 → Table.get s.img 1 = some n →
    k < n.toNat → recordsFrom s.img s.imageLen k 24 = some ds → Table.get s.img a = none →
    let c := walkEnd ds
    (c ≤ a → a < c + 4 → c + 4 ≤ s.imageLen → exec i s = .fault .undefinedRead) ∧
    (c + 4 ≤ a → a < c + 8 → c + 8 ≤ s.imageLen → exec i s = .fault .undefinedRead) ∧
    (i ≠ .parse → ∀ d, recordAt s.img s.imageLen c = some d →
      d.dataOff.toNat ≤ a → a < d.dataOff.toNat + d.dataLen.toNat → exec i s = .fault .undefinedRead)
end

