-- ==== Sys2Proof/Laws/Memory.lean ====
section
/-! SUPPORT. The laws of the sparse tables: read after write, the canonical form, byte strings, the copy. -/

namespace Sys2Proof.Machine

variable {α : Type}

@[simp] theorem Table.get_nil (a : Nat) : Table.get ([] : List (Nat × α)) a = none := rfl

theorem Table.get_cons (k : Nat) (v : α) (t : List (Nat × α)) (a : Nat) :
    Table.get ((k, v) :: t) a = if k = a then some v else Table.get t a := rfl

/-- A read after a write: the written cell holds the value, every other cell what it held. -/
@[simp] theorem Table.get_set (t : List (Nat × α)) (a : Nat) (v : α) (b : Nat) :
    Table.get (Table.set t a v) b = if a = b then some v else Table.get t b := by
  induction t with
  | nil => simp [Table.set, Table.get]
  | cons x t ih =>
    obtain ⟨k, w⟩ := x
    simp only [Table.set]
    split
    · simp only [Table.get]
    · split
      · subst_vars; simp only [Table.get]; split <;> rfl
      · rename_i h1 h2
        simp only [Table.get, ih]
        by_cases hk : k = b
        · subst hk; simp [h2]
        · simp [hk]

/-- A cell below every listed index is undefined. -/
theorem Table.get_none_of_lt (t : List (Nat × α)) (a : Nat) (h : ∀ x ∈ t, a < x.1) : Table.get t a = none := by
  induction t with
  | nil => rfl
  | cons x t ih =>
    simp only [List.mem_cons, forall_eq_or_imp] at h
    have : x.1 ≠ a := by omega
    simp [Table.get, this, ih h.2]

theorem Table.mem_of_get {t : List (Nat × α)} {a : Nat} {v : α} (h : Table.get t a = some v) : (a, v) ∈ t := by
  induction t with
  | nil => simp at h
  | cons x t ih =>
    obtain ⟨k, w⟩ := x
    simp only [Table.get] at h
    split at h
    · simp_all
    · exact List.mem_cons_of_mem _ (ih h)

theorem Table.get_append (s t : List (Nat × α)) (a : Nat) :
    Table.get (s ++ t) a = (Table.get s a).or (Table.get t a) := by
  induction s with
  | nil => simp
  | cons x s ih =>
    simp only [List.cons_append, Table.get, ih]
    split <;> simp

theorem Table.get_filter (p : Nat → Bool) (t : List (Nat × α)) (a : Nat) :
    Table.get (t.filter fun x => p x.1) a = if p a then Table.get t a else none := by
  induction t with
  | nil => simp
  | cons x t ih =>
    obtain ⟨k, w⟩ := x
    by_cases hk : k = a
    · subst hk; by_cases hp : p k <;> simp [hp, Table.get, ih]
    · by_cases hp : p k <;> simp [hp, Table.get, ih, hk]

/-- The copy: cells below `n` come from the source, defined or not; the others stay (R201). -/
@[simp] theorem Table.get_copyBelow (src dst : List (Nat × α)) (n a : Nat) :
    Table.get (Table.copyBelow src dst n) a = if a < n then Table.get src a else Table.get dst a := by
  have h1 := Table.get_filter (fun k => decide (k < n)) src a
  have h2 := Table.get_filter (fun k => decide (n ≤ k)) dst a
  simp only [Table.copyBelow, Table.get_append, h1, h2, decide_eq_true_eq]
  by_cases h : a < n
  · have : ¬ n ≤ a := by omega
    simp [h, this]
  · have : n ≤ a := by omega
    simp [h, this]

/-- What the cells of a written table are: the new one, and old ones. -/
theorem Table.mem_set {t : List (Nat × α)} {a : Nat} {v : α} {x : Nat × α} (h : x ∈ Table.set t a v) :
    x = (a, v) ∨ x ∈ t := by
  induction t with
  | nil => simpa [Table.set] using h
  | cons y t ih =>
    obtain ⟨k, w⟩ := y
    simp only [Table.set] at h
    split at h
    · simpa using h
    · split at h
      · simp only [List.mem_cons] at h ⊢; tauto
      · simp only [List.mem_cons] at h ⊢
        rcases h with h | h
        · tauto
        · rcases ih h with h | h <;> tauto

/-- A write keeps the canonical form. -/
theorem Table.set_wf {t : List (Nat × α)} (h : Table.wf t) (a : Nat) (v : α) : Table.wf (Table.set t a v) := by
  induction t with
  | nil => simp [Table.set]
  | cons y t ih =>
    obtain ⟨k, w⟩ := y
    have hk : ∀ x ∈ t, k < x.1 := (List.pairwise_cons.1 h).1
    have ht : Table.wf t := (List.pairwise_cons.1 h).2
    simp only [Table.set]
    split
    · rename_i hlt
      refine List.pairwise_cons.2 ⟨fun x hx => ?_, h⟩
      rcases List.mem_cons.1 hx with rfl | hx
      · exact hlt
      · exact lt_trans hlt (hk x hx)
    · split
      · subst_vars; exact List.pairwise_cons.2 ⟨hk, ht⟩
      · refine List.pairwise_cons.2 ⟨fun x hx => ?_, ih ht⟩
        rcases Table.mem_set hx with rfl | hx
        · simp only; omega
        · exact hk x hx

/-- The copy keeps the canonical form. -/
theorem Table.copyBelow_wf {src dst : List (Nat × α)} (hs : Table.wf src) (hd : Table.wf dst) (n : Nat) :
    Table.wf (Table.copyBelow src dst n) := by
  refine List.pairwise_append.2 ⟨hs.filter _, hd.filter _, fun x hx y hy => ?_⟩
  simp only [List.mem_filter, decide_eq_true_eq] at hx hy
  omega

theorem Table.mem_copyBelow {src dst : List (Nat × α)} {n : Nat} {x : Nat × α}
    (h : x ∈ Table.copyBelow src dst n) : x ∈ src ∨ x ∈ dst := by
  simp only [Table.copyBelow, List.mem_append, List.mem_filter] at h
  tauto

/-- Two canonical tables with the same cells are equal. -/
theorem Table.ext_of_get {s t : List (Nat × α)} (hs : Table.wf s) (ht : Table.wf t)
    (h : ∀ a, Table.get s a = Table.get t a) : s = t := by
  induction s generalizing t with
  | nil =>
    cases t with
    | nil => rfl
    | cons y t => have := h y.1; simp [Table.get] at this
  | cons x s ih =>
    obtain ⟨k, v⟩ := x
    cases t with
    | nil => have := h k; simp [Table.get] at this
    | cons y t =>
      obtain ⟨j, w⟩ := y
      obtain ⟨hk, hs⟩ := List.pairwise_cons.1 hs
      obtain ⟨hj, ht⟩ := List.pairwise_cons.1 ht
      have hkj : k = j := by
        rcases lt_trichotomy k j with hlt | heq | hlt
        · have := h k
          rw [Table.get_none_of_lt ((j, w) :: t) k] at this
          · simp [Table.get] at this
          · intro x hx
            rcases List.mem_cons.1 hx with rfl | hx
            · exact hlt
            · exact lt_trans hlt (hj x hx)
        · exact heq
        · have := h j
          rw [Table.get_none_of_lt ((k, v) :: s) j] at this
          · simp [Table.get] at this
          · intro x hx
            rcases List.mem_cons.1 hx with rfl | hx
            · exact hlt
            · exact lt_trans hlt (hk x hx)
      subst hkj
      have hvw : v = w := by have := h k; simpa [Table.get] using this
      subst hvw
      congr 1
      refine ih ‹_› ‹_› fun a => ?_
      have := h a
      simp only [Table.get] at this
      by_cases hka : k = a
      · subst hka
        rw [Table.get_none_of_lt s k hk, Table.get_none_of_lt t k hj]
      · simpa [hka] using this

/-- Writing the value a cell already holds changes nothing. -/
theorem Table.set_same {t : List (Nat × α)} (h : Table.wf t) {a : Nat} {v : α} (hv : Table.get t a = some v) :
    Table.set t a v = t :=
  Table.ext_of_get (Table.set_wf h a v) h fun b => by
    rw [Table.get_set]; split
    · subst_vars; exact hv.symm
    · rfl

/-! Byte strings. -/

@[simp] theorem Memory.bytes_zero (m : Memory) (a : Nat) : Memory.bytes m a 0 = some [] := rfl

/-- A byte string is read exactly when every one of its bytes is defined, and holds them in order. -/
theorem Memory.bytes_eq_some {m : Memory} {a n : Nat} {bs : List Byte} :
    Memory.bytes m a n = some bs ↔ bs.length = n ∧ ∀ k < n, Table.get m (a + k) = bs[k]? := by
  induction n generalizing a bs with
  | zero =>
    simp only [Memory.bytes, Option.some.injEq]
    constructor
    · rintro rfl; simp
    · rintro ⟨h, -⟩; exact (List.length_eq_zero_iff.1 h).symm
  | succ n ih =>
    simp only [Memory.bytes]
    simp only [Option.bind_eq_some_iff, Option.map_eq_some_iff]
    constructor
    · rintro ⟨b, hb, bs', hbs, rfl⟩
      · obtain ⟨hl, hg⟩ := ih.1 hbs
        refine ⟨by simp [hl], fun k hk => ?_⟩
        cases k with
        | zero => simpa using hb
        | succ k => have := hg k (by omega); simpa [Nat.add_assoc, Nat.add_comm 1 k] using this
    · rintro ⟨hl, hg⟩
      cases bs with
      | nil => simp at hl
      | cons b bs =>
        have h0 := hg 0 (by omega)
        simp only [Nat.add_zero, List.getElem?_cons_zero] at h0
        have hr : Memory.bytes m (a + 1) n = some bs := by
          refine ih.2 ⟨by simpa using hl, fun k hk => ?_⟩
          have := hg (k + 1) (by omega)
          simpa [Nat.add_assoc, Nat.add_comm 1 k] using this
        simp [h0, hr]

theorem Memory.length_of_bytes {m : Memory} {a n : Nat} {bs : List Byte} (h : Memory.bytes m a n = some bs) :
    bs.length = n := (Memory.bytes_eq_some.1 h).1

/-- A byte string is defined exactly when every byte is. -/
theorem Memory.bytes_isSome {m : Memory} {a n : Nat} :
    (Memory.bytes m a n).isSome = true ↔ ∀ k < n, (Table.get m (a + k)).isSome = true := by
  induction n generalizing a with
  | zero => simp
  | succ n ih =>
    simp only [Memory.bytes]
    constructor
    · intro h k hk
      obtain ⟨_, h⟩ := Option.isSome_iff_exists.1 h
      simp only [Option.bind_eq_some_iff, Option.map_eq_some_iff] at h
      obtain ⟨b, hb, bs, hbs, -⟩ := h
      · cases k with
        | zero => simp [hb]
        | succ k =>
          have := (ih (a := a + 1)).1 (by simp [hbs]) k (by omega)
          simpa [Nat.add_assoc, Nat.add_comm 1 k] using this
    · intro h
      have h0 := h 0 (by omega)
      have hr := (ih (a := a + 1)).2 fun k hk => by
        have := h (k + 1) (by omega)
        simpa [Nat.add_assoc, Nat.add_comm 1 k] using this
      obtain ⟨b, hb⟩ := Option.isSome_iff_exists.1 h0
      obtain ⟨bs, hbs⟩ := Option.isSome_iff_exists.1 hr
      simp only [Nat.add_zero] at hb
      simp [hb, hbs]

/-- A byte string depends on its own cells alone. -/
theorem Memory.bytes_congr {m m' : Memory} {a n : Nat} (h : ∀ k < n, Table.get m (a + k) = Table.get m' (a + k)) :
    Memory.bytes m a n = Memory.bytes m' a n := by
  induction n generalizing a with
  | zero => rfl
  | succ n ih =>
    have h0 := h 0 (by omega)
    have hr := ih (a := a + 1) fun k hk => by
      have := h (k + 1) (by omega)
      simpa [Nat.add_assoc, Nat.add_comm 1 k] using this
    simp only [Nat.add_zero] at h0
    simp only [Memory.bytes, h0, hr]

/-- A byte string in two parts. -/
theorem Memory.bytes_add (m : Memory) (a n k : Nat) :
    Memory.bytes m a (n + k) =
      (Memory.bytes m a n).bind fun x => (Memory.bytes m (a + n) k).map fun y => x ++ y := by
  induction n generalizing a with
  | zero => simp
  | succ n ih =>
    have : n + 1 + k = (n + k) + 1 := by omega
    rw [this]
    simp only [Memory.bytes, ih]
    have hadd : a + 1 + n = a + (n + 1) := by omega
    rw [hadd]
    cases Table.get m a <;> cases Memory.bytes m (a + 1) n <;>
      cases Memory.bytes m (a + (n + 1)) k <;> simp

/-- What a written byte string leaves: its bytes in order, every other cell as before (R9, R181). -/
theorem Memory.get_write (m : Memory) (a : Nat) (bs : List Byte) (b : Nat) :
    Table.get (Memory.write m a bs) b =
      if a ≤ b ∧ b < a + bs.length then bs[b - a]? else Table.get m b := by
  induction bs generalizing m a with
  | nil => simp only [Memory.write, List.length_nil]; rw [if_neg (by omega)]
  | cons x bs ih =>
    simp only [Memory.write, ih, Table.get_set, List.length_cons]
    by_cases h1 : a + 1 ≤ b ∧ b < a + 1 + bs.length
    · have h2 : a ≤ b ∧ b < a + (bs.length + 1) := by omega
      have h3 : b - a = (b - (a + 1)) + 1 := by omega
      simp only [h1, h2, h3, and_self, if_true, List.getElem?_cons_succ]
    · by_cases h4 : a = b
      · subst h4; simp
      · have h2 : ¬(a ≤ b ∧ b < a + (bs.length + 1)) := by omega
        rw [if_neg h1, if_neg h2, if_neg h4]

theorem Memory.write_wf {m : Memory} (h : Memory.wf m) (a : Nat) (bs : List Byte) : Memory.wf (Memory.write m a bs) := by
  induction bs generalizing m a with
  | nil => exact h
  | cons b bs ih => exact ih (Table.set_wf h a b) (a + 1)

theorem Memory.mem_write {m : Memory} {a : Nat} {bs : List Byte} {x : Nat × Byte} (h : x ∈ Memory.write m a bs) :
    x ∈ m ∨ (a ≤ x.1 ∧ x.1 < a + bs.length) := by
  induction bs generalizing m a with
  | nil => exact .inl h
  | cons b bs ih =>
    rcases ih h with h | h
    · rcases Table.mem_set h with rfl | h
      · right; simp
      · exact .inl h
    · right; simp only [List.length_cons]; omega

/-- What a window write leaves: mapped bytes are written, bytes at or above CAP are ignored (R60, R63, R64). -/
theorem get_windowWrite (m : Memory) (cap a : Nat) (bs : List Byte) (b : Nat) :
    Table.get (windowWrite m cap a bs) b =
      if (a ≤ b ∧ b < a + bs.length) ∧ b < cap then bs[b - a]? else Table.get m b := by
  induction bs generalizing m a with
  | nil => simp only [windowWrite, List.length_nil]; rw [if_neg (by omega)]
  | cons x bs ih =>
    simp only [windowWrite, ih, List.length_cons]
    by_cases h1 : (a + 1 ≤ b ∧ b < a + 1 + bs.length) ∧ b < cap
    · have h2 : (a ≤ b ∧ b < a + (bs.length + 1)) ∧ b < cap := by omega
      have h3 : b - a = (b - (a + 1)) + 1 := by omega
      simp only [h1, h2, h3, and_self, if_true, List.getElem?_cons_succ]
    · by_cases h4 : a = b
      · subst h4; by_cases hc : a < cap <;> simp [hc]
      · have h2 : ¬((a ≤ b ∧ b < a + (bs.length + 1)) ∧ b < cap) := by omega
        rw [if_neg h1, if_neg h2]
        split <;> simp [h4]

theorem windowWrite_wf {m : Memory} (h : Memory.wf m) (cap a : Nat) (bs : List Byte) :
    Memory.wf (windowWrite m cap a bs) := by
  induction bs generalizing m a with
  | nil => exact h
  | cons b bs ih =>
    simp only [windowWrite]
    split
    · exact ih (Table.set_wf h a b) (a + 1)
    · exact ih h (a + 1)

theorem mem_windowWrite {m : Memory} {cap a : Nat} {bs : List Byte} {x : Nat × Byte}
    (h : x ∈ windowWrite m cap a bs) : x ∈ m ∨ x.1 < cap := by
  induction bs generalizing m a with
  | nil => exact .inl h
  | cons b bs ih =>
    rcases ih h with h | h
    · split at h
      · rename_i hc
        rcases Table.mem_set h with rfl | h
        · exact .inr hc
        · exact .inl h
      · exact .inl h
    · exact .inr h

/-- A window read is the byte string of R61 where every byte is mapped. -/
theorem windowBytes_mapped {m : Memory} {cap a n : Nat} (h : a + n ≤ cap) :
    windowBytes m cap a n = Memory.bytes m a n := by
  induction n generalizing a with
  | zero => rfl
  | succ n ih =>
    have : a < cap := by omega
    simp [windowBytes, Memory.bytes, this, ih (a := a + 1) (by omega)]

/-- Wholly above CAP a window read gives zero bytes (R60, R63). -/
theorem windowBytes_unmapped {m : Memory} {cap a n : Nat} (h : cap ≤ a) :
    windowBytes m cap a n = some (List.replicate n 0) := by
  induction n generalizing a with
  | zero => rfl
  | succ n ih =>
    have : ¬ a < cap := by omega
    simp [windowBytes, this, ih (a := a + 1) (by omega), List.replicate_succ]

/-! SEGTAB after a walk (R144). -/

theorem writeRecords_wf {t : Table SegDesc} (h : Table.wf t) (i : Nat) (ds : List SegDesc) :
    Table.wf (writeRecords t i ds) := by
  induction ds generalizing t i with
  | nil => exact h
  | cons d ds ih => exact ih (Table.set_wf h i d) (i + 1)

theorem get_writeRecords (t : Table SegDesc) (i : Nat) (ds : List SegDesc) (j : Nat) :
    Table.get (writeRecords t i ds) j =
      if i ≤ j ∧ j < i + ds.length then ds[j - i]? else Table.get t j := by
  induction ds generalizing t i with
  | nil => simp only [writeRecords, List.length_nil]; rw [if_neg (by omega)]
  | cons d ds ih =>
    simp only [writeRecords, ih, Table.get_set, List.length_cons]
    by_cases h1 : i + 1 ≤ j ∧ j < i + 1 + ds.length
    · have h2 : i ≤ j ∧ j < i + (ds.length + 1) := by omega
      have h3 : j - i = (j - (i + 1)) + 1 := by omega
      simp only [h1, h2, h3, and_self, if_true, List.getElem?_cons_succ]
    · by_cases h4 : i = j
      · subst h4; simp
      · have h2 : ¬(i ≤ j ∧ j < i + (ds.length + 1)) := by omega
        rw [if_neg h1, if_neg h2, if_neg h4]

theorem mem_writeRecords {t : Table SegDesc} {i : Nat} {ds : List SegDesc} {x : Nat × SegDesc}
    (h : x ∈ writeRecords t i ds) : x ∈ t ∨ (i ≤ x.1 ∧ x.1 < i + ds.length) := by
  induction ds generalizing t i with
  | nil => exact .inl h
  | cons d ds ih =>
    rcases ih h with h | h
    · rcases Table.mem_set h with rfl | h
      · right; simp
      · exact .inl h
    · right; simp only [List.length_cons]; omega

/-! The little-endian value. -/

theorem leNat_lt (bs : List Byte) : leNat bs < 256 ^ bs.length := by
  induction bs with
  | nil => simp [leNat]
  | cons b bs ih =>
    have hb := b.isLt
    simp only [leNat, List.length_cons, pow_succ]
    omega

end Sys2Proof.Machine
end

