-- ==== Sys2Proof/Laws/State.lean ====
section
/-! SUPPORT. One lemma per field per update of State, each true by rfl, so that no later proof unfolds an update. -/

namespace Sys2Proof.Machine

variable (s : State)

/-- The state after a header parse that succeeds: MAGIC and SEG_COUNT are written (R120). -/
def headed (n : Byte) (s : State) : State := { s with magic := 0xE9, segCount := n.toWord }

/-! `discardHidden`. -/

@[simp] theorem discardHidden_cmd : (discardHidden s).cmd = s.cmd := rfl
@[simp] theorem discardHidden_status : (discardHidden s).status = s.status := rfl
@[simp] theorem discardHidden_fsm : (discardHidden s).fsm = s.fsm := rfl
@[simp] theorem discardHidden_len : (discardHidden s).len = s.len := rfl
@[simp] theorem discardHidden_errCode : (discardHidden s).errCode = s.errCode := rfl
@[simp] theorem discardHidden_errField : (discardHidden s).errField = s.errField := rfl
@[simp] theorem discardHidden_errOffset : (discardHidden s).errOffset = s.errOffset := rfl
@[simp] theorem discardHidden_errSeg : (discardHidden s).errSeg = s.errSeg := rfl
@[simp] theorem discardHidden_magic : (discardHidden s).magic = s.magic := rfl
@[simp] theorem discardHidden_segCount : (discardHidden s).segCount = s.segCount := rfl
@[simp] theorem discardHidden_segDone : (discardHidden s).segDone = s.segDone := rfl
@[simp] theorem discardHidden_cursor : (discardHidden s).cursor = s.cursor := rfl
@[simp] theorem discardHidden_trailerStart : (discardHidden s).trailerStart = s.trailerStart := rfl
@[simp] theorem discardHidden_csum : (discardHidden s).csum = s.csum := rfl
@[simp] theorem discardHidden_csumStored : (discardHidden s).csumStored = s.csumStored := rfl
@[simp] theorem discardHidden_cap : (discardHidden s).cap = s.cap := rfl
@[simp] theorem discardHidden_digest : (discardHidden s).digest = s.digest := rfl
@[simp] theorem discardHidden_segtab : (discardHidden s).segtab = s.segtab := rfl
@[simp] theorem discardHidden_img : (discardHidden s).img = s.img := rfl
@[simp] theorem discardHidden_out : (discardHidden s).out = s.out := rfl
@[simp] theorem discardHidden_eng : (discardHidden s).eng = Engine.none := rfl
@[simp] theorem discardHidden_pending : (discardHidden s).pending = s.pending := rfl
@[simp] theorem discardHidden_turns : (discardHidden s).turns = s.turns := rfl
@[simp] theorem discardHidden_reads : (discardHidden s).reads = s.reads := rfl

/-! `errorState`. -/

@[simp] theorem errorState_cmd (e : ErrCode) (f : ErrField) (o g : Nat) : (errorState e f o g s).cmd = s.cmd := rfl
@[simp] theorem errorState_status (e : ErrCode) (f : ErrField) (o g : Nat) : (errorState e f o g s).status = statusError s.status := rfl
@[simp] theorem errorState_fsm (e : ErrCode) (f : ErrField) (o g : Nat) : (errorState e f o g s).fsm = if s.fsm = .idle then .idle else .rejected := rfl
@[simp] theorem errorState_len (e : ErrCode) (f : ErrField) (o g : Nat) : (errorState e f o g s).len = s.len := rfl
@[simp] theorem errorState_errCode (e : ErrCode) (f : ErrField) (o g : Nat) : (errorState e f o g s).errCode = errCodeNumber e := rfl
@[simp] theorem errorState_errField (e : ErrCode) (f : ErrField) (o g : Nat) : (errorState e f o g s).errField = errFieldNumber f := rfl
@[simp] theorem errorState_errOffset (e : ErrCode) (f : ErrField) (o g : Nat) : (errorState e f o g s).errOffset = BitVec.ofNat 32 o := rfl
@[simp] theorem errorState_errSeg (e : ErrCode) (f : ErrField) (o g : Nat) : (errorState e f o g s).errSeg = BitVec.ofNat 32 g := rfl
@[simp] theorem errorState_magic (e : ErrCode) (f : ErrField) (o g : Nat) : (errorState e f o g s).magic = s.magic := rfl
@[simp] theorem errorState_segCount (e : ErrCode) (f : ErrField) (o g : Nat) : (errorState e f o g s).segCount = s.segCount := rfl
@[simp] theorem errorState_segDone (e : ErrCode) (f : ErrField) (o g : Nat) : (errorState e f o g s).segDone = s.segDone := rfl
@[simp] theorem errorState_cursor (e : ErrCode) (f : ErrField) (o g : Nat) : (errorState e f o g s).cursor = s.cursor := rfl
@[simp] theorem errorState_trailerStart (e : ErrCode) (f : ErrField) (o g : Nat) : (errorState e f o g s).trailerStart = s.trailerStart := rfl
@[simp] theorem errorState_csum (e : ErrCode) (f : ErrField) (o g : Nat) : (errorState e f o g s).csum = s.csum := rfl
@[simp] theorem errorState_csumStored (e : ErrCode) (f : ErrField) (o g : Nat) : (errorState e f o g s).csumStored = s.csumStored := rfl
@[simp] theorem errorState_cap (e : ErrCode) (f : ErrField) (o g : Nat) : (errorState e f o g s).cap = s.cap := rfl
@[simp] theorem errorState_digest (e : ErrCode) (f : ErrField) (o g : Nat) : (errorState e f o g s).digest = s.digest := rfl
@[simp] theorem errorState_segtab (e : ErrCode) (f : ErrField) (o g : Nat) : (errorState e f o g s).segtab = s.segtab := rfl
@[simp] theorem errorState_img (e : ErrCode) (f : ErrField) (o g : Nat) : (errorState e f o g s).img = s.img := rfl
@[simp] theorem errorState_out (e : ErrCode) (f : ErrField) (o g : Nat) : (errorState e f o g s).out = s.out := rfl
@[simp] theorem errorState_eng (e : ErrCode) (f : ErrField) (o g : Nat) : (errorState e f o g s).eng = Engine.none := rfl
@[simp] theorem errorState_pending (e : ErrCode) (f : ErrField) (o g : Nat) : (errorState e f o g s).pending = s.pending := rfl
@[simp] theorem errorState_turns (e : ErrCode) (f : ErrField) (o g : Nat) : (errorState e f o g s).turns = s.turns := rfl
@[simp] theorem errorState_reads (e : ErrCode) (f : ErrField) (o g : Nat) : (errorState e f o g s).reads = s.reads := rfl

/-! `clearForIssue`. -/

@[simp] theorem clearForIssue_cmd (w : Word) : (clearForIssue w s).cmd = w := rfl
@[simp] theorem clearForIssue_status (w : Word) : (clearForIssue w s).status = 0 := rfl
@[simp] theorem clearForIssue_fsm (w : Word) : (clearForIssue w s).fsm = .idle := rfl
@[simp] theorem clearForIssue_len (w : Word) : (clearForIssue w s).len = s.len := rfl
@[simp] theorem clearForIssue_errCode (w : Word) : (clearForIssue w s).errCode = 0 := rfl
@[simp] theorem clearForIssue_errField (w : Word) : (clearForIssue w s).errField = 0 := rfl
@[simp] theorem clearForIssue_errOffset (w : Word) : (clearForIssue w s).errOffset = 0 := rfl
@[simp] theorem clearForIssue_errSeg (w : Word) : (clearForIssue w s).errSeg = 0 := rfl
@[simp] theorem clearForIssue_magic (w : Word) : (clearForIssue w s).magic = 0 := rfl
@[simp] theorem clearForIssue_segCount (w : Word) : (clearForIssue w s).segCount = 0 := rfl
@[simp] theorem clearForIssue_segDone (w : Word) : (clearForIssue w s).segDone = 0 := rfl
@[simp] theorem clearForIssue_cursor (w : Word) : (clearForIssue w s).cursor = 0 := rfl
@[simp] theorem clearForIssue_trailerStart (w : Word) : (clearForIssue w s).trailerStart = 0 := rfl
@[simp] theorem clearForIssue_csum (w : Word) : (clearForIssue w s).csum = 0 := rfl
@[simp] theorem clearForIssue_csumStored (w : Word) : (clearForIssue w s).csumStored = 0 := rfl
@[simp] theorem clearForIssue_cap (w : Word) : (clearForIssue w s).cap = s.cap := rfl
@[simp] theorem clearForIssue_digest (w : Word) : (clearForIssue w s).digest = Vector.replicate 8 0 := rfl
@[simp] theorem clearForIssue_segtab (w : Word) : (clearForIssue w s).segtab = s.segtab := rfl
@[simp] theorem clearForIssue_img (w : Word) : (clearForIssue w s).img = s.img := rfl
@[simp] theorem clearForIssue_out (w : Word) : (clearForIssue w s).out = s.out := rfl
@[simp] theorem clearForIssue_eng (w : Word) : (clearForIssue w s).eng = s.eng := rfl
@[simp] theorem clearForIssue_pending (w : Word) : (clearForIssue w s).pending = s.pending := rfl
@[simp] theorem clearForIssue_turns (w : Word) : (clearForIssue w s).turns = s.turns := rfl
@[simp] theorem clearForIssue_reads (w : Word) : (clearForIssue w s).reads = s.reads := rfl
@[simp] theorem clearForIssue_target (w : Word) : (clearForIssue w s).target = s.target := rfl
@[simp] theorem clearForIssue_imageLen (w : Word) : (clearForIssue w s).imageLen = s.imageLen := rfl

/-! `acceptCommand`. -/

@[simp] theorem acceptCommand_cmd (w : Word) : (acceptCommand w s).cmd = w := rfl
@[simp] theorem acceptCommand_status (w : Word) : (acceptCommand w s).status = statusIssued := rfl
@[simp] theorem acceptCommand_fsm (w : Word) : (acceptCommand w s).fsm = if opOf w = 0x06 then .loaded else .idle := rfl
@[simp] theorem acceptCommand_len (w : Word) : (acceptCommand w s).len = s.len := rfl
@[simp] theorem acceptCommand_errCode (w : Word) : (acceptCommand w s).errCode = 0 := rfl
@[simp] theorem acceptCommand_errField (w : Word) : (acceptCommand w s).errField = 0 := rfl
@[simp] theorem acceptCommand_errOffset (w : Word) : (acceptCommand w s).errOffset = 0 := rfl
@[simp] theorem acceptCommand_errSeg (w : Word) : (acceptCommand w s).errSeg = 0 := rfl
@[simp] theorem acceptCommand_magic (w : Word) : (acceptCommand w s).magic = 0 := rfl
@[simp] theorem acceptCommand_segCount (w : Word) : (acceptCommand w s).segCount = 0 := rfl
@[simp] theorem acceptCommand_segDone (w : Word) : (acceptCommand w s).segDone = 0 := rfl
@[simp] theorem acceptCommand_cursor (w : Word) : (acceptCommand w s).cursor = 0 := rfl
@[simp] theorem acceptCommand_trailerStart (w : Word) : (acceptCommand w s).trailerStart = 0 := rfl
@[simp] theorem acceptCommand_csum (w : Word) : (acceptCommand w s).csum = 0 := rfl
@[simp] theorem acceptCommand_csumStored (w : Word) : (acceptCommand w s).csumStored = 0 := rfl
@[simp] theorem acceptCommand_cap (w : Word) : (acceptCommand w s).cap = s.cap := rfl
@[simp] theorem acceptCommand_digest (w : Word) : (acceptCommand w s).digest = Vector.replicate 8 0 := rfl
@[simp] theorem acceptCommand_segtab (w : Word) : (acceptCommand w s).segtab = s.segtab := rfl
@[simp] theorem acceptCommand_img (w : Word) : (acceptCommand w s).img = s.img := rfl
@[simp] theorem acceptCommand_out (w : Word) : (acceptCommand w s).out = s.out := rfl
@[simp] theorem acceptCommand_eng (w : Word) : (acceptCommand w s).eng = { Engine.none with op := opOf w, inplace := inplaceOf w, len := s.len } := rfl
@[simp] theorem acceptCommand_pending (w : Word) : (acceptCommand w s).pending = s.pending := rfl
@[simp] theorem acceptCommand_turns (w : Word) : (acceptCommand w s).turns = s.turns := rfl
@[simp] theorem acceptCommand_reads (w : Word) : (acceptCommand w s).reads = s.reads := rfl

/-! `resetBlock`. -/

@[simp] theorem resetBlock_cmd : (resetBlock s).cmd = 0 := rfl
@[simp] theorem resetBlock_status : (resetBlock s).status = 0 := rfl
@[simp] theorem resetBlock_fsm : (resetBlock s).fsm = .idle := rfl
@[simp] theorem resetBlock_len : (resetBlock s).len = 0 := rfl
@[simp] theorem resetBlock_errCode : (resetBlock s).errCode = 0 := rfl
@[simp] theorem resetBlock_errField : (resetBlock s).errField = 0 := rfl
@[simp] theorem resetBlock_errOffset : (resetBlock s).errOffset = 0 := rfl
@[simp] theorem resetBlock_errSeg : (resetBlock s).errSeg = 0 := rfl
@[simp] theorem resetBlock_magic : (resetBlock s).magic = 0 := rfl
@[simp] theorem resetBlock_segCount : (resetBlock s).segCount = 0 := rfl
@[simp] theorem resetBlock_segDone : (resetBlock s).segDone = 0 := rfl
@[simp] theorem resetBlock_cursor : (resetBlock s).cursor = 0 := rfl
@[simp] theorem resetBlock_trailerStart : (resetBlock s).trailerStart = 0 := rfl
@[simp] theorem resetBlock_csum : (resetBlock s).csum = 0 := rfl
@[simp] theorem resetBlock_csumStored : (resetBlock s).csumStored = 0 := rfl
@[simp] theorem resetBlock_cap : (resetBlock s).cap = s.cap := rfl
@[simp] theorem resetBlock_digest : (resetBlock s).digest = Vector.replicate 8 0 := rfl
@[simp] theorem resetBlock_segtab : (resetBlock s).segtab = [] := rfl
@[simp] theorem resetBlock_img : (resetBlock s).img = [] := rfl
@[simp] theorem resetBlock_out : (resetBlock s).out = [] := rfl
@[simp] theorem resetBlock_eng : (resetBlock s).eng = Engine.none := rfl
@[simp] theorem resetBlock_pending : (resetBlock s).pending = s.pending := rfl
@[simp] theorem resetBlock_turns : (resetBlock s).turns = s.turns := rfl
@[simp] theorem resetBlock_reads : (resetBlock s).reads = s.reads := rfl

/-! `selectTarget`. -/

@[simp] theorem selectTarget_cmd (b : Buf) : (selectTarget b s).cmd = s.cmd := rfl
@[simp] theorem selectTarget_status (b : Buf) : (selectTarget b s).status = s.status := rfl
@[simp] theorem selectTarget_fsm (b : Buf) : (selectTarget b s).fsm = s.fsm := rfl
@[simp] theorem selectTarget_len (b : Buf) : (selectTarget b s).len = s.len := rfl
@[simp] theorem selectTarget_errCode (b : Buf) : (selectTarget b s).errCode = s.errCode := rfl
@[simp] theorem selectTarget_errField (b : Buf) : (selectTarget b s).errField = s.errField := rfl
@[simp] theorem selectTarget_errOffset (b : Buf) : (selectTarget b s).errOffset = s.errOffset := rfl
@[simp] theorem selectTarget_errSeg (b : Buf) : (selectTarget b s).errSeg = s.errSeg := rfl
@[simp] theorem selectTarget_magic (b : Buf) : (selectTarget b s).magic = s.magic := rfl
@[simp] theorem selectTarget_segCount (b : Buf) : (selectTarget b s).segCount = s.segCount := rfl
@[simp] theorem selectTarget_segDone (b : Buf) : (selectTarget b s).segDone = s.segDone := rfl
@[simp] theorem selectTarget_cursor (b : Buf) : (selectTarget b s).cursor = s.cursor := rfl
@[simp] theorem selectTarget_trailerStart (b : Buf) : (selectTarget b s).trailerStart = s.trailerStart := rfl
@[simp] theorem selectTarget_csum (b : Buf) : (selectTarget b s).csum = s.csum := rfl
@[simp] theorem selectTarget_csumStored (b : Buf) : (selectTarget b s).csumStored = s.csumStored := rfl
@[simp] theorem selectTarget_cap (b : Buf) : (selectTarget b s).cap = s.cap := rfl
@[simp] theorem selectTarget_digest (b : Buf) : (selectTarget b s).digest = s.digest := rfl
@[simp] theorem selectTarget_segtab (b : Buf) : (selectTarget b s).segtab = s.segtab := rfl
@[simp] theorem selectTarget_img (b : Buf) : (selectTarget b s).img = s.img := rfl
@[simp] theorem selectTarget_out (b : Buf) : (selectTarget b s).out = s.out := rfl
@[simp] theorem selectTarget_eng (b : Buf) : (selectTarget b s).eng = { s.eng with target := b } := rfl
@[simp] theorem selectTarget_pending (b : Buf) : (selectTarget b s).pending = s.pending := rfl
@[simp] theorem selectTarget_turns (b : Buf) : (selectTarget b s).turns = s.turns := rfl
@[simp] theorem selectTarget_reads (b : Buf) : (selectTarget b s).reads = s.reads := rfl

/-! `foldInit`. -/

@[simp] theorem foldInit_cmd : (foldInit s).cmd = s.cmd := rfl
@[simp] theorem foldInit_status : (foldInit s).status = s.status := rfl
@[simp] theorem foldInit_fsm : (foldInit s).fsm = s.fsm := rfl
@[simp] theorem foldInit_len : (foldInit s).len = s.len := rfl
@[simp] theorem foldInit_errCode : (foldInit s).errCode = s.errCode := rfl
@[simp] theorem foldInit_errField : (foldInit s).errField = s.errField := rfl
@[simp] theorem foldInit_errOffset : (foldInit s).errOffset = s.errOffset := rfl
@[simp] theorem foldInit_errSeg : (foldInit s).errSeg = s.errSeg := rfl
@[simp] theorem foldInit_magic : (foldInit s).magic = s.magic := rfl
@[simp] theorem foldInit_segCount : (foldInit s).segCount = s.segCount := rfl
@[simp] theorem foldInit_segDone : (foldInit s).segDone = s.segDone := rfl
@[simp] theorem foldInit_cursor : (foldInit s).cursor = s.cursor := rfl
@[simp] theorem foldInit_trailerStart : (foldInit s).trailerStart = s.trailerStart := rfl
@[simp] theorem foldInit_csum : (foldInit s).csum = Config.seed.toWord := rfl
@[simp] theorem foldInit_csumStored : (foldInit s).csumStored = s.csumStored := rfl
@[simp] theorem foldInit_cap : (foldInit s).cap = s.cap := rfl
@[simp] theorem foldInit_digest : (foldInit s).digest = s.digest := rfl
@[simp] theorem foldInit_segtab : (foldInit s).segtab = s.segtab := rfl
@[simp] theorem foldInit_img : (foldInit s).img = s.img := rfl
@[simp] theorem foldInit_out : (foldInit s).out = s.out := rfl
@[simp] theorem foldInit_eng : (foldInit s).eng = { s.eng with acc := Config.seed } := rfl
@[simp] theorem foldInit_pending : (foldInit s).pending = s.pending := rfl
@[simp] theorem foldInit_turns : (foldInit s).turns = s.turns := rfl
@[simp] theorem foldInit_reads : (foldInit s).reads = s.reads := rfl
@[simp] theorem foldInit_target : (foldInit s).target = s.target := rfl
@[simp] theorem foldInit_imageLen : (foldInit s).imageLen = s.imageLen := rfl

/-! `walkAdvance`. -/

@[simp] theorem walkAdvance_cmd (dl : Nat) : (walkAdvance dl s).cmd = s.cmd := rfl
@[simp] theorem walkAdvance_status (dl : Nat) : (walkAdvance dl s).status = s.status := rfl
@[simp] theorem walkAdvance_fsm (dl : Nat) : (walkAdvance dl s).fsm = s.fsm := rfl
@[simp] theorem walkAdvance_len (dl : Nat) : (walkAdvance dl s).len = s.len := rfl
@[simp] theorem walkAdvance_errCode (dl : Nat) : (walkAdvance dl s).errCode = s.errCode := rfl
@[simp] theorem walkAdvance_errField (dl : Nat) : (walkAdvance dl s).errField = s.errField := rfl
@[simp] theorem walkAdvance_errOffset (dl : Nat) : (walkAdvance dl s).errOffset = s.errOffset := rfl
@[simp] theorem walkAdvance_errSeg (dl : Nat) : (walkAdvance dl s).errSeg = s.errSeg := rfl
@[simp] theorem walkAdvance_magic (dl : Nat) : (walkAdvance dl s).magic = s.magic := rfl
@[simp] theorem walkAdvance_segCount (dl : Nat) : (walkAdvance dl s).segCount = s.segCount := rfl
@[simp] theorem walkAdvance_segDone (dl : Nat) : (walkAdvance dl s).segDone = BitVec.ofNat 32 (s.eng.index + 1) := rfl
@[simp] theorem walkAdvance_cursor (dl : Nat) : (walkAdvance dl s).cursor = BitVec.ofNat 32 (s.eng.cursor + 8 + dl) := rfl
@[simp] theorem walkAdvance_trailerStart (dl : Nat) : (walkAdvance dl s).trailerStart = s.trailerStart := rfl
@[simp] theorem walkAdvance_csum (dl : Nat) : (walkAdvance dl s).csum = s.csum := rfl
@[simp] theorem walkAdvance_csumStored (dl : Nat) : (walkAdvance dl s).csumStored = s.csumStored := rfl
@[simp] theorem walkAdvance_cap (dl : Nat) : (walkAdvance dl s).cap = s.cap := rfl
@[simp] theorem walkAdvance_digest (dl : Nat) : (walkAdvance dl s).digest = s.digest := rfl
@[simp] theorem walkAdvance_segtab (dl : Nat) : (walkAdvance dl s).segtab = s.segtab := rfl
@[simp] theorem walkAdvance_img (dl : Nat) : (walkAdvance dl s).img = s.img := rfl
@[simp] theorem walkAdvance_out (dl : Nat) : (walkAdvance dl s).out = s.out := rfl
@[simp] theorem walkAdvance_eng (dl : Nat) : (walkAdvance dl s).eng = { s.eng with cursor := s.eng.cursor + 8 + dl, index := s.eng.index + 1 } := rfl
@[simp] theorem walkAdvance_pending (dl : Nat) : (walkAdvance dl s).pending = s.pending := rfl
@[simp] theorem walkAdvance_turns (dl : Nat) : (walkAdvance dl s).turns = s.turns := rfl
@[simp] theorem walkAdvance_reads (dl : Nat) : (walkAdvance dl s).reads = s.reads := rfl
@[simp] theorem walkAdvance_target (dl : Nat) : (walkAdvance dl s).target = s.target := rfl
@[simp] theorem walkAdvance_imageLen (dl : Nat) : (walkAdvance dl s).imageLen = s.imageLen := rfl

/-! `setTrailerStart`. -/

@[simp] theorem setTrailerStart_cmd (ts : Nat) : (setTrailerStart ts s).cmd = s.cmd := rfl
@[simp] theorem setTrailerStart_status (ts : Nat) : (setTrailerStart ts s).status = s.status := rfl
@[simp] theorem setTrailerStart_fsm (ts : Nat) : (setTrailerStart ts s).fsm = s.fsm := rfl
@[simp] theorem setTrailerStart_len (ts : Nat) : (setTrailerStart ts s).len = s.len := rfl
@[simp] theorem setTrailerStart_errCode (ts : Nat) : (setTrailerStart ts s).errCode = s.errCode := rfl
@[simp] theorem setTrailerStart_errField (ts : Nat) : (setTrailerStart ts s).errField = s.errField := rfl
@[simp] theorem setTrailerStart_errOffset (ts : Nat) : (setTrailerStart ts s).errOffset = s.errOffset := rfl
@[simp] theorem setTrailerStart_errSeg (ts : Nat) : (setTrailerStart ts s).errSeg = s.errSeg := rfl
@[simp] theorem setTrailerStart_magic (ts : Nat) : (setTrailerStart ts s).magic = s.magic := rfl
@[simp] theorem setTrailerStart_segCount (ts : Nat) : (setTrailerStart ts s).segCount = s.segCount := rfl
@[simp] theorem setTrailerStart_segDone (ts : Nat) : (setTrailerStart ts s).segDone = s.segDone := rfl
@[simp] theorem setTrailerStart_cursor (ts : Nat) : (setTrailerStart ts s).cursor = s.cursor := rfl
@[simp] theorem setTrailerStart_trailerStart (ts : Nat) : (setTrailerStart ts s).trailerStart = BitVec.ofNat 32 ts := rfl
@[simp] theorem setTrailerStart_csum (ts : Nat) : (setTrailerStart ts s).csum = s.csum := rfl
@[simp] theorem setTrailerStart_csumStored (ts : Nat) : (setTrailerStart ts s).csumStored = s.csumStored := rfl
@[simp] theorem setTrailerStart_cap (ts : Nat) : (setTrailerStart ts s).cap = s.cap := rfl
@[simp] theorem setTrailerStart_digest (ts : Nat) : (setTrailerStart ts s).digest = s.digest := rfl
@[simp] theorem setTrailerStart_segtab (ts : Nat) : (setTrailerStart ts s).segtab = s.segtab := rfl
@[simp] theorem setTrailerStart_img (ts : Nat) : (setTrailerStart ts s).img = s.img := rfl
@[simp] theorem setTrailerStart_out (ts : Nat) : (setTrailerStart ts s).out = s.out := rfl
@[simp] theorem setTrailerStart_eng (ts : Nat) : (setTrailerStart ts s).eng = s.eng := rfl
@[simp] theorem setTrailerStart_pending (ts : Nat) : (setTrailerStart ts s).pending = s.pending := rfl
@[simp] theorem setTrailerStart_turns (ts : Nat) : (setTrailerStart ts s).turns = s.turns := rfl
@[simp] theorem setTrailerStart_reads (ts : Nat) : (setTrailerStart ts s).reads = s.reads := rfl
@[simp] theorem setTrailerStart_target (ts : Nat) : (setTrailerStart ts s).target = s.target := rfl
@[simp] theorem setTrailerStart_imageLen (ts : Nat) : (setTrailerStart ts s).imageLen = s.imageLen := rfl

/-! `findCsum`. -/

@[simp] theorem findCsum_cmd (b : Byte) : (findCsum b s).cmd = s.cmd := rfl
@[simp] theorem findCsum_status (b : Byte) : (findCsum b s).status = writeFlag s.status csumMismatchBit (decide (s.eng.acc ≠ b)) := rfl
@[simp] theorem findCsum_fsm (b : Byte) : (findCsum b s).fsm = s.fsm := rfl
@[simp] theorem findCsum_len (b : Byte) : (findCsum b s).len = s.len := rfl
@[simp] theorem findCsum_errCode (b : Byte) : (findCsum b s).errCode = s.errCode := rfl
@[simp] theorem findCsum_errField (b : Byte) : (findCsum b s).errField = s.errField := rfl
@[simp] theorem findCsum_errOffset (b : Byte) : (findCsum b s).errOffset = s.errOffset := rfl
@[simp] theorem findCsum_errSeg (b : Byte) : (findCsum b s).errSeg = s.errSeg := rfl
@[simp] theorem findCsum_magic (b : Byte) : (findCsum b s).magic = s.magic := rfl
@[simp] theorem findCsum_segCount (b : Byte) : (findCsum b s).segCount = s.segCount := rfl
@[simp] theorem findCsum_segDone (b : Byte) : (findCsum b s).segDone = s.segDone := rfl
@[simp] theorem findCsum_cursor (b : Byte) : (findCsum b s).cursor = s.cursor := rfl
@[simp] theorem findCsum_trailerStart (b : Byte) : (findCsum b s).trailerStart = s.trailerStart := rfl
@[simp] theorem findCsum_csum (b : Byte) : (findCsum b s).csum = s.csum := rfl
@[simp] theorem findCsum_csumStored (b : Byte) : (findCsum b s).csumStored = s.csumStored := rfl
@[simp] theorem findCsum_cap (b : Byte) : (findCsum b s).cap = s.cap := rfl
@[simp] theorem findCsum_digest (b : Byte) : (findCsum b s).digest = s.digest := rfl
@[simp] theorem findCsum_segtab (b : Byte) : (findCsum b s).segtab = s.segtab := rfl
@[simp] theorem findCsum_img (b : Byte) : (findCsum b s).img = s.img := rfl
@[simp] theorem findCsum_out (b : Byte) : (findCsum b s).out = s.out := rfl
@[simp] theorem findCsum_eng (b : Byte) : (findCsum b s).eng = s.eng := rfl
@[simp] theorem findCsum_pending (b : Byte) : (findCsum b s).pending = s.pending := rfl
@[simp] theorem findCsum_turns (b : Byte) : (findCsum b s).turns = s.turns := rfl
@[simp] theorem findCsum_reads (b : Byte) : (findCsum b s).reads = s.reads := rfl
@[simp] theorem findCsum_target (b : Byte) : (findCsum b s).target = s.target := rfl
@[simp] theorem findCsum_imageLen (b : Byte) : (findCsum b s).imageLen = s.imageLen := rfl

/-! `findDigest`. -/

@[simp] theorem findDigest_cmd (d : Vector Byte 32) (t : List Byte) : (findDigest d t s).cmd = s.cmd := rfl
@[simp] theorem findDigest_status (d : Vector Byte 32) (t : List Byte) : (findDigest d t s).status = writeFlag s.status digestMismatchBit (decide (d.toList ≠ t)) := rfl
@[simp] theorem findDigest_fsm (d : Vector Byte 32) (t : List Byte) : (findDigest d t s).fsm = s.fsm := rfl
@[simp] theorem findDigest_len (d : Vector Byte 32) (t : List Byte) : (findDigest d t s).len = s.len := rfl
@[simp] theorem findDigest_errCode (d : Vector Byte 32) (t : List Byte) : (findDigest d t s).errCode = s.errCode := rfl
@[simp] theorem findDigest_errField (d : Vector Byte 32) (t : List Byte) : (findDigest d t s).errField = s.errField := rfl
@[simp] theorem findDigest_errOffset (d : Vector Byte 32) (t : List Byte) : (findDigest d t s).errOffset = s.errOffset := rfl
@[simp] theorem findDigest_errSeg (d : Vector Byte 32) (t : List Byte) : (findDigest d t s).errSeg = s.errSeg := rfl
@[simp] theorem findDigest_magic (d : Vector Byte 32) (t : List Byte) : (findDigest d t s).magic = s.magic := rfl
@[simp] theorem findDigest_segCount (d : Vector Byte 32) (t : List Byte) : (findDigest d t s).segCount = s.segCount := rfl
@[simp] theorem findDigest_segDone (d : Vector Byte 32) (t : List Byte) : (findDigest d t s).segDone = s.segDone := rfl
@[simp] theorem findDigest_cursor (d : Vector Byte 32) (t : List Byte) : (findDigest d t s).cursor = s.cursor := rfl
@[simp] theorem findDigest_trailerStart (d : Vector Byte 32) (t : List Byte) : (findDigest d t s).trailerStart = s.trailerStart := rfl
@[simp] theorem findDigest_csum (d : Vector Byte 32) (t : List Byte) : (findDigest d t s).csum = s.csum := rfl
@[simp] theorem findDigest_csumStored (d : Vector Byte 32) (t : List Byte) : (findDigest d t s).csumStored = s.csumStored := rfl
@[simp] theorem findDigest_cap (d : Vector Byte 32) (t : List Byte) : (findDigest d t s).cap = s.cap := rfl
@[simp] theorem findDigest_digest (d : Vector Byte 32) (t : List Byte) : (findDigest d t s).digest = s.digest := rfl
@[simp] theorem findDigest_segtab (d : Vector Byte 32) (t : List Byte) : (findDigest d t s).segtab = s.segtab := rfl
@[simp] theorem findDigest_img (d : Vector Byte 32) (t : List Byte) : (findDigest d t s).img = s.img := rfl
@[simp] theorem findDigest_out (d : Vector Byte 32) (t : List Byte) : (findDigest d t s).out = s.out := rfl
@[simp] theorem findDigest_eng (d : Vector Byte 32) (t : List Byte) : (findDigest d t s).eng = s.eng := rfl
@[simp] theorem findDigest_pending (d : Vector Byte 32) (t : List Byte) : (findDigest d t s).pending = s.pending := rfl
@[simp] theorem findDigest_turns (d : Vector Byte 32) (t : List Byte) : (findDigest d t s).turns = s.turns := rfl
@[simp] theorem findDigest_reads (d : Vector Byte 32) (t : List Byte) : (findDigest d t s).reads = s.reads := rfl
@[simp] theorem findDigest_target (d : Vector Byte 32) (t : List Byte) : (findDigest d t s).target = s.target := rfl
@[simp] theorem findDigest_imageLen (d : Vector Byte 32) (t : List Byte) : (findDigest d t s).imageLen = s.imageLen := rfl

/-! `enterFsm`. -/

@[simp] theorem enterFsm_cmd (st : Fsm) : (enterFsm st s).cmd = s.cmd := rfl
@[simp] theorem enterFsm_status (st : Fsm) : (enterFsm st s).status = s.status := rfl
@[simp] theorem enterFsm_fsm (st : Fsm) : (enterFsm st s).fsm = st := rfl
@[simp] theorem enterFsm_len (st : Fsm) : (enterFsm st s).len = s.len := rfl
@[simp] theorem enterFsm_errCode (st : Fsm) : (enterFsm st s).errCode = s.errCode := rfl
@[simp] theorem enterFsm_errField (st : Fsm) : (enterFsm st s).errField = s.errField := rfl
@[simp] theorem enterFsm_errOffset (st : Fsm) : (enterFsm st s).errOffset = s.errOffset := rfl
@[simp] theorem enterFsm_errSeg (st : Fsm) : (enterFsm st s).errSeg = s.errSeg := rfl
@[simp] theorem enterFsm_magic (st : Fsm) : (enterFsm st s).magic = s.magic := rfl
@[simp] theorem enterFsm_segCount (st : Fsm) : (enterFsm st s).segCount = s.segCount := rfl
@[simp] theorem enterFsm_segDone (st : Fsm) : (enterFsm st s).segDone = s.segDone := rfl
@[simp] theorem enterFsm_cursor (st : Fsm) : (enterFsm st s).cursor = s.cursor := rfl
@[simp] theorem enterFsm_trailerStart (st : Fsm) : (enterFsm st s).trailerStart = s.trailerStart := rfl
@[simp] theorem enterFsm_csum (st : Fsm) : (enterFsm st s).csum = s.csum := rfl
@[simp] theorem enterFsm_csumStored (st : Fsm) : (enterFsm st s).csumStored = s.csumStored := rfl
@[simp] theorem enterFsm_cap (st : Fsm) : (enterFsm st s).cap = s.cap := rfl
@[simp] theorem enterFsm_digest (st : Fsm) : (enterFsm st s).digest = s.digest := rfl
@[simp] theorem enterFsm_segtab (st : Fsm) : (enterFsm st s).segtab = s.segtab := rfl
@[simp] theorem enterFsm_img (st : Fsm) : (enterFsm st s).img = s.img := rfl
@[simp] theorem enterFsm_out (st : Fsm) : (enterFsm st s).out = s.out := rfl
@[simp] theorem enterFsm_eng (st : Fsm) : (enterFsm st s).eng = s.eng := rfl
@[simp] theorem enterFsm_pending (st : Fsm) : (enterFsm st s).pending = s.pending := rfl
@[simp] theorem enterFsm_turns (st : Fsm) : (enterFsm st s).turns = s.turns := rfl
@[simp] theorem enterFsm_reads (st : Fsm) : (enterFsm st s).reads = s.reads := rfl
@[simp] theorem enterFsm_target (st : Fsm) : (enterFsm st s).target = s.target := rfl
@[simp] theorem enterFsm_imageLen (st : Fsm) : (enterFsm st s).imageLen = s.imageLen := rfl

/-! `headed`. -/

@[simp] theorem headed_cmd (n : Byte) : (headed n s).cmd = s.cmd := rfl
@[simp] theorem headed_status (n : Byte) : (headed n s).status = s.status := rfl
@[simp] theorem headed_fsm (n : Byte) : (headed n s).fsm = s.fsm := rfl
@[simp] theorem headed_len (n : Byte) : (headed n s).len = s.len := rfl
@[simp] theorem headed_errCode (n : Byte) : (headed n s).errCode = s.errCode := rfl
@[simp] theorem headed_errField (n : Byte) : (headed n s).errField = s.errField := rfl
@[simp] theorem headed_errOffset (n : Byte) : (headed n s).errOffset = s.errOffset := rfl
@[simp] theorem headed_errSeg (n : Byte) : (headed n s).errSeg = s.errSeg := rfl
@[simp] theorem headed_magic (n : Byte) : (headed n s).magic = 0xE9#32 := rfl
@[simp] theorem headed_segCount (n : Byte) : (headed n s).segCount = n.toWord := rfl
@[simp] theorem headed_segDone (n : Byte) : (headed n s).segDone = s.segDone := rfl
@[simp] theorem headed_cursor (n : Byte) : (headed n s).cursor = s.cursor := rfl
@[simp] theorem headed_trailerStart (n : Byte) : (headed n s).trailerStart = s.trailerStart := rfl
@[simp] theorem headed_csum (n : Byte) : (headed n s).csum = s.csum := rfl
@[simp] theorem headed_csumStored (n : Byte) : (headed n s).csumStored = s.csumStored := rfl
@[simp] theorem headed_cap (n : Byte) : (headed n s).cap = s.cap := rfl
@[simp] theorem headed_digest (n : Byte) : (headed n s).digest = s.digest := rfl
@[simp] theorem headed_segtab (n : Byte) : (headed n s).segtab = s.segtab := rfl
@[simp] theorem headed_img (n : Byte) : (headed n s).img = s.img := rfl
@[simp] theorem headed_out (n : Byte) : (headed n s).out = s.out := rfl
@[simp] theorem headed_eng (n : Byte) : (headed n s).eng = s.eng := rfl
@[simp] theorem headed_pending (n : Byte) : (headed n s).pending = s.pending := rfl
@[simp] theorem headed_turns (n : Byte) : (headed n s).turns = s.turns := rfl
@[simp] theorem headed_reads (n : Byte) : (headed n s).reads = s.reads := rfl
@[simp] theorem headed_target (n : Byte) : (headed n s).target = s.target := rfl
@[simp] theorem headed_imageLen (n : Byte) : (headed n s).imageLen = s.imageLen := rfl

/-! `popTurn`. -/

@[simp] theorem popTurn_cmd : (popTurn s).cmd = s.cmd := rfl
@[simp] theorem popTurn_status : (popTurn s).status = s.status := rfl
@[simp] theorem popTurn_fsm : (popTurn s).fsm = s.fsm := rfl
@[simp] theorem popTurn_len : (popTurn s).len = s.len := rfl
@[simp] theorem popTurn_errCode : (popTurn s).errCode = s.errCode := rfl
@[simp] theorem popTurn_errField : (popTurn s).errField = s.errField := rfl
@[simp] theorem popTurn_errOffset : (popTurn s).errOffset = s.errOffset := rfl
@[simp] theorem popTurn_errSeg : (popTurn s).errSeg = s.errSeg := rfl
@[simp] theorem popTurn_magic : (popTurn s).magic = s.magic := rfl
@[simp] theorem popTurn_segCount : (popTurn s).segCount = s.segCount := rfl
@[simp] theorem popTurn_segDone : (popTurn s).segDone = s.segDone := rfl
@[simp] theorem popTurn_cursor : (popTurn s).cursor = s.cursor := rfl
@[simp] theorem popTurn_trailerStart : (popTurn s).trailerStart = s.trailerStart := rfl
@[simp] theorem popTurn_csum : (popTurn s).csum = s.csum := rfl
@[simp] theorem popTurn_csumStored : (popTurn s).csumStored = s.csumStored := rfl
@[simp] theorem popTurn_cap : (popTurn s).cap = s.cap := rfl
@[simp] theorem popTurn_digest : (popTurn s).digest = s.digest := rfl
@[simp] theorem popTurn_segtab : (popTurn s).segtab = s.segtab := rfl
@[simp] theorem popTurn_img : (popTurn s).img = s.img := rfl
@[simp] theorem popTurn_out : (popTurn s).out = s.out := rfl
@[simp] theorem popTurn_eng : (popTurn s).eng = s.eng := rfl
@[simp] theorem popTurn_pending : (popTurn s).pending = s.pending := rfl
@[simp] theorem popTurn_turns : (popTurn s).turns = s.turns.tail := rfl
@[simp] theorem popTurn_reads : (popTurn s).reads = s.reads := rfl
@[simp] theorem popTurn_target : (popTurn s).target = s.target := rfl
@[simp] theorem popTurn_imageLen : (popTurn s).imageLen = s.imageLen := rfl

/-! `State.setTarget`: only the target buffer changes. -/

@[simp] theorem setTarget_cmd (m : Memory) : (s.setTarget m).cmd = s.cmd := by
  unfold State.setTarget; split <;> rfl
@[simp] theorem setTarget_status (m : Memory) : (s.setTarget m).status = s.status := by
  unfold State.setTarget; split <;> rfl
@[simp] theorem setTarget_fsm (m : Memory) : (s.setTarget m).fsm = s.fsm := by
  unfold State.setTarget; split <;> rfl
@[simp] theorem setTarget_len (m : Memory) : (s.setTarget m).len = s.len := by
  unfold State.setTarget; split <;> rfl
@[simp] theorem setTarget_errCode (m : Memory) : (s.setTarget m).errCode = s.errCode := by
  unfold State.setTarget; split <;> rfl
@[simp] theorem setTarget_errField (m : Memory) : (s.setTarget m).errField = s.errField := by
  unfold State.setTarget; split <;> rfl
@[simp] theorem setTarget_errOffset (m : Memory) : (s.setTarget m).errOffset = s.errOffset := by
  unfold State.setTarget; split <;> rfl
@[simp] theorem setTarget_errSeg (m : Memory) : (s.setTarget m).errSeg = s.errSeg := by
  unfold State.setTarget; split <;> rfl
@[simp] theorem setTarget_magic (m : Memory) : (s.setTarget m).magic = s.magic := by
  unfold State.setTarget; split <;> rfl
@[simp] theorem setTarget_segCount (m : Memory) : (s.setTarget m).segCount = s.segCount := by
  unfold State.setTarget; split <;> rfl
@[simp] theorem setTarget_segDone (m : Memory) : (s.setTarget m).segDone = s.segDone := by
  unfold State.setTarget; split <;> rfl
@[simp] theorem setTarget_cursor (m : Memory) : (s.setTarget m).cursor = s.cursor := by
  unfold State.setTarget; split <;> rfl
@[simp] theorem setTarget_trailerStart (m : Memory) : (s.setTarget m).trailerStart = s.trailerStart := by
  unfold State.setTarget; split <;> rfl
@[simp] theorem setTarget_csum (m : Memory) : (s.setTarget m).csum = s.csum := by
  unfold State.setTarget; split <;> rfl
@[simp] theorem setTarget_csumStored (m : Memory) : (s.setTarget m).csumStored = s.csumStored := by
  unfold State.setTarget; split <;> rfl
@[simp] theorem setTarget_cap (m : Memory) : (s.setTarget m).cap = s.cap := by
  unfold State.setTarget; split <;> rfl
@[simp] theorem setTarget_digest (m : Memory) : (s.setTarget m).digest = s.digest := by
  unfold State.setTarget; split <;> rfl
@[simp] theorem setTarget_segtab (m : Memory) : (s.setTarget m).segtab = s.segtab := by
  unfold State.setTarget; split <;> rfl
@[simp] theorem setTarget_eng (m : Memory) : (s.setTarget m).eng = s.eng := by
  unfold State.setTarget; split <;> rfl
@[simp] theorem setTarget_pending (m : Memory) : (s.setTarget m).pending = s.pending := by
  unfold State.setTarget; split <;> rfl
@[simp] theorem setTarget_turns (m : Memory) : (s.setTarget m).turns = s.turns := by
  unfold State.setTarget; split <;> rfl
@[simp] theorem setTarget_reads (m : Memory) : (s.setTarget m).reads = s.reads := by
  unfold State.setTarget; split <;> rfl
@[simp] theorem setTarget_img (m : Memory) : (s.setTarget m).img = if s.eng.target = .img then m else s.img := by
  unfold State.setTarget; split <;> simp_all
@[simp] theorem setTarget_out (m : Memory) : (s.setTarget m).out = if s.eng.target = .out then m else s.out := by
  unfold State.setTarget; split <;> simp_all
@[simp] theorem setTarget_target (m : Memory) : (s.setTarget m).target = m := by
  cases h : s.eng.target <;> simp [State.setTarget, State.target, h]

/-! `afterItem`. -/

@[simp] theorem afterItem_cmd (rest : List HostItem) : (afterItem s rest).cmd = s.cmd := rfl
@[simp] theorem afterItem_status (rest : List HostItem) : (afterItem s rest).status = s.status := rfl
@[simp] theorem afterItem_fsm (rest : List HostItem) : (afterItem s rest).fsm = s.fsm := rfl
@[simp] theorem afterItem_len (rest : List HostItem) : (afterItem s rest).len = s.len := rfl
@[simp] theorem afterItem_errCode (rest : List HostItem) : (afterItem s rest).errCode = s.errCode := rfl
@[simp] theorem afterItem_errField (rest : List HostItem) : (afterItem s rest).errField = s.errField := rfl
@[simp] theorem afterItem_errOffset (rest : List HostItem) : (afterItem s rest).errOffset = s.errOffset := rfl
@[simp] theorem afterItem_errSeg (rest : List HostItem) : (afterItem s rest).errSeg = s.errSeg := rfl
@[simp] theorem afterItem_magic (rest : List HostItem) : (afterItem s rest).magic = s.magic := rfl
@[simp] theorem afterItem_segCount (rest : List HostItem) : (afterItem s rest).segCount = s.segCount := rfl
@[simp] theorem afterItem_segDone (rest : List HostItem) : (afterItem s rest).segDone = s.segDone := rfl
@[simp] theorem afterItem_cursor (rest : List HostItem) : (afterItem s rest).cursor = s.cursor := rfl
@[simp] theorem afterItem_trailerStart (rest : List HostItem) : (afterItem s rest).trailerStart = s.trailerStart := rfl
@[simp] theorem afterItem_csum (rest : List HostItem) : (afterItem s rest).csum = s.csum := rfl
@[simp] theorem afterItem_csumStored (rest : List HostItem) : (afterItem s rest).csumStored = s.csumStored := rfl
@[simp] theorem afterItem_cap (rest : List HostItem) : (afterItem s rest).cap = s.cap := rfl
@[simp] theorem afterItem_digest (rest : List HostItem) : (afterItem s rest).digest = s.digest := rfl
@[simp] theorem afterItem_segtab (rest : List HostItem) : (afterItem s rest).segtab = s.segtab := rfl
@[simp] theorem afterItem_img (rest : List HostItem) : (afterItem s rest).img = s.img := rfl
@[simp] theorem afterItem_out (rest : List HostItem) : (afterItem s rest).out = s.out := rfl
@[simp] theorem afterItem_eng (rest : List HostItem) : (afterItem s rest).eng = s.eng := rfl
@[simp] theorem afterItem_pending (rest : List HostItem) : (afterItem s rest).pending = rest := rfl
@[simp] theorem afterItem_turns (rest : List HostItem) : (afterItem s rest).turns = s.turns.tail := rfl
@[simp] theorem afterItem_reads (rest : List HostItem) : (afterItem s rest).reads = s.reads := rfl

end Sys2Proof.Machine
end

