-- ==== Sys2Proof/Laws/Ops.lean ====
section
/-! SUPPORT. What each shared operation can do, said once: outcomes and their sequencing, the epilogues, the primitives
over the target buffer, the header parser. -/

namespace Sys2Proof.Machine

variable {α β : Type}

/-- The fixed header and its extension together (R6). -/
@[simp] theorem Config.hdrLen_eq : Config.hdrLen = 24 := rfl

/-! Sequencing. -/

@[simp] theorem Res.andThen_ok (a : α) (s : State) (k : α → State → Res β) : (Res.ok a s).andThen k = k a s := rfl
@[simp] theorem Res.andThen_raised (s : State) (k : α → State → Res β) : (Res.raised s : Res α).andThen k = .raised s := rfl
@[simp] theorem Res.andThen_fault (f : Fault) (k : α → State → Res β) : (Res.fault f : Res α).andThen k = .fault f := rfl
@[simp] theorem Res.toOutcome_ok (u : Unit) (s : State) : (Res.ok u s).toOutcome = .next s := rfl
@[simp] theorem Res.toOutcome_raised (s : State) : (Res.raised s).toOutcome = .next s := rfl
@[simp] theorem Res.toOutcome_fault (f : Fault) : (Res.fault f).toOutcome = .fault f := rfl
@[simp] theorem raise_eq (e : ErrCode) (f : ErrField) (o g : Nat) (s : State) :
    (raise e f o g s : Res α) = .raised (errorState e f o g s) := rfl

/-- What holds of a result: `P` of a value and its state, `Q` of the state a raise leaves. -/
def Res.Post (P : α → State → Prop) (Q : State → Prop) : Res α → Prop
  | .ok a s => P a s
  | .raised s => Q s
  | .fault _ => True

@[simp] theorem Res.post_ok {P : α → State → Prop} {Q : State → Prop} {a : α} {s : State} :
    Res.Post P Q (.ok a s) ↔ P a s := Iff.rfl
@[simp] theorem Res.post_raised {P : α → State → Prop} {Q : State → Prop} {s : State} :
    Res.Post P Q (.raised s : Res α) ↔ Q s := Iff.rfl
@[simp] theorem Res.post_fault {P : α → State → Prop} {Q : State → Prop} {f : Fault} :
    Res.Post P Q (.fault f : Res α) ↔ True := Iff.rfl

/-- A statement after a statement: what held after the first is what the second starts from. -/
theorem Res.Post.andThen {P : α → State → Prop} {P' : β → State → Prop} {Q : State → Prop} {r : Res α}
    {k : α → State → Res β} (h : r.Post P Q) (hk : ∀ a s, P a s → (k a s).Post P' Q) : (r.andThen k).Post P' Q := by
  cases r with
  | ok a s => exact hk a s h
  | raised s => exact h
  | fault f => trivial

theorem Res.Post.mono {P P' : α → State → Prop} {Q Q' : State → Prop} {r : Res α} (h : r.Post P Q)
    (hp : ∀ a s, P a s → P' a s) (hq : ∀ s, Q s → Q' s) : r.Post P' Q' := by
  cases r with
  | ok a s => exact hp a s h
  | raised s => exact hq s h
  | fault f => trivial

/-- A command's next state satisfies what its rule ends in, by success or by raise. -/
theorem Res.Post.next {Q : State → Prop} {r : Res Unit} (h : r.Post (fun _ => Q) Q) {t : State}
    (ht : r.toOutcome = .next t) : Q t := by
  cases r with
  | ok a s => cases ht; exact h
  | raised s => cases ht; exact h
  | fault f => cases ht

/-- A command rule's step is never a refusal. -/
theorem Res.toOutcome_ne_refused (r : Res Unit) (x : Refusal) : r.toOutcome ≠ .refused x := by
  cases r <;> simp

/-- A command rule's step faults exactly when the rule does. -/
theorem Res.toOutcome_eq_fault {r : Res Unit} {f : Fault} : r.toOutcome = .fault f ↔ r = .fault f := by
  cases r <;> simp

/-! STATUS after the epilogues, from the value an issue leaves (R93, R95, R256). -/

@[simp] theorem statusIssued_eq : statusIssued = 0x01#32 := by decide
@[simp] theorem statusOk_one : statusOk 0x01#32 = 0x0A#32 := by decide
@[simp] theorem statusError_zero : statusError 0#32 = 0x06#32 := by decide
@[simp] theorem statusError_one : statusError 0x01#32 = 0x06#32 := by decide

/-- STATUS after VERIFY's success: DONE, RESULT_VALID and the two findings (R230). -/
theorem statusOk_findings (p q : Prop) [Decidable p] [Decidable q] :
    statusOk (writeFlag (writeFlag 0x01 csumMismatchBit (decide p)) digestMismatchBit (decide q)) =
      0x0A + (if p then 0x10 else 0) + (if q then 0x20 else 0) := by
  by_cases hp : p <;> by_cases hq : q <;> simp only [hp, hq] <;> decide

/-! Lengths and targets. -/

@[simp] theorem selectTarget_imageLen (b : Buf) (s : State) : (selectTarget b s).imageLen = s.imageLen := rfl
@[simp] theorem selectTarget_img_target (s : State) : (selectTarget .img s).target = s.img := rfl
@[simp] theorem selectTarget_out_target (s : State) : (selectTarget .out s).target = s.out := rfl

/-- The target buffer depends on the buffers and on which of them it is. -/
theorem target_congr {s t : State} (hi : t.img = s.img) (ho : t.out = s.out) (ht : t.eng.target = s.eng.target) :
    t.target = s.target := by
  simp [State.target, hi, ho, ht]

/-! The primitives of R9. -/

theorem memReadByte_some {s : State} {a : Nat} {b : Byte} (h : Table.get s.target a = some b) :
    memReadByte a s = .ok b s := by simp [memReadByte, h]

theorem memReadByte_none {s : State} {a : Nat} (h : Table.get s.target a = none) :
    memReadByte a s = .fault .undefinedRead := by simp [memReadByte, h]

theorem readBytes_some {s : State} {a n : Nat} {bs : List Byte} (h : Memory.bytes s.target a n = some bs) :
    readBytes a n s = .ok bs s := by simp [readBytes, h]

theorem readBytes_none {s : State} {a n : Nat} (h : Memory.bytes s.target a n = none) :
    readBytes a n s = .fault .undefinedRead := by simp [readBytes, h]

theorem memReadWord_some {s : State} {a : Nat} {w : Word} (h : imageWord s.target a = some w) :
    memReadWord a s = .ok w s := by
  simp only [imageWord, Option.map_eq_some_iff] at h
  obtain ⟨bs, hbs, rfl⟩ := h
  simp [memReadWord, readBytes_some hbs]

theorem memReadWord_none {s : State} {a : Nat} (h : imageWord s.target a = none) :
    memReadWord a s = .fault .undefinedRead := by
  simp only [imageWord, Option.map_eq_none_iff] at h
  simp [memReadWord, readBytes_none h]

/-! The header parser (R120): its four outcomes. -/

theorem headerParse_short {s : State} (h : s.imageLen < 24) :
    headerParse s = .raised (errorState .truncated .header 0 0 s) := by
  simp [headerParse, Config.hdrLen_eq, h]

theorem headerParse_badMagic {s : State} {m : Byte} (h : 24 ≤ s.imageLen) (hm : Table.get s.target 0 = some m)
    (hne : m ≠ 0xE9) :
    headerParse s = .raised (errorState .badMagic .magic 0 0 { s with magic := m.toWord }) := by
  have : ¬ s.imageLen < 24 := by omega
  simp only [headerParse, Config.hdrLen_eq, Config.magicValue, this, if_false, memReadByte_some hm, Res.andThen_ok,
    ne_eq, hne, not_false_eq_true, if_true, raise_eq]

theorem headerParse_ok {s : State} {n : Byte} (h : 24 ≤ s.imageLen) (hm : Table.get s.target 0 = some 0xE9)
    (hn : Table.get s.target 1 = some n) :
    headerParse s = .ok n.toNat (headed n s) := by
  have : ¬ s.imageLen < 24 := by omega
  have hn' : Table.get ({ s with magic := Byte.toWord 0xE9 } : State).target 1 = some n := hn
  simp only [headerParse, Config.hdrLen_eq, this, if_false, memReadByte_some hm, Res.andThen_ok, Config.magicValue,
    ne_eq, not_true_eq_false, memReadByte_some hn']
  rfl

theorem headerParse_undefined {s : State} (h : 24 ≤ s.imageLen)
    (hm : Table.get s.target 0 = none ∨ Table.get s.target 0 = some 0xE9 ∧ Table.get s.target 1 = none) :
    headerParse s = .fault .undefinedRead := by
  have : ¬ s.imageLen < 24 := by omega
  rcases hm with hm | ⟨hm, hn⟩
  · simp [headerParse, Config.hdrLen_eq, this, memReadByte_none hm]
  · have hn' : Table.get ({ s with magic := Byte.toWord 0xE9 } : State).target 1 = none := hn
    simp only [headerParse, Config.hdrLen_eq, this, if_false, memReadByte_some hm, Res.andThen_ok, Config.magicValue,
      ne_eq, not_true_eq_false, memReadByte_none hn', Res.andThen_fault]

/-- Everything the header parser can do (R120). -/
theorem headerParse_cases (s : State) :
    (s.imageLen < 24 ∧ headerParse s = .raised (errorState .truncated .header 0 0 s)) ∨
    (∃ m : Byte, 24 ≤ s.imageLen ∧ Table.get s.target 0 = some m ∧ m ≠ 0xE9 ∧
      headerParse s = .raised (errorState .badMagic .magic 0 0 { s with magic := m.toWord })) ∨
    (∃ n : Byte, 24 ≤ s.imageLen ∧ Table.get s.target 0 = some 0xE9 ∧ Table.get s.target 1 = some n ∧
      headerParse s = .ok n.toNat (headed n s)) ∨
    (24 ≤ s.imageLen ∧ (Table.get s.target 0 = none ∨ Table.get s.target 1 = none) ∧
      headerParse s = .fault .undefinedRead) := by
  by_cases h : s.imageLen < 24
  · exact .inl ⟨h, headerParse_short h⟩
  have h : 24 ≤ s.imageLen := by omega
  right
  rcases hm : Table.get s.target 0 with _ | m
  · exact .inr (.inr ⟨h, .inl rfl, headerParse_undefined h (.inl hm)⟩)
  by_cases hne : m = 0xE9
  · subst hne
    rcases hn : Table.get s.target 1 with _ | n
    · exact .inr (.inr ⟨h, .inr rfl, headerParse_undefined h (.inr ⟨hm, hn⟩)⟩)
    · exact .inr (.inl ⟨n, h, rfl, rfl, headerParse_ok h hm hn⟩)
  · exact .inl ⟨m, h, rfl, hne, headerParse_badMagic h hm hne⟩

end Sys2Proof.Machine
end

