-- ==== Sys2Proof/Laws/Bus.lean ====
section
/-! SUPPORT. What HOST's step can do, said once: one access, the shapes R62 allows, the map's regions. -/

namespace Sys2Proof.Machine

@[simp] theorem afterItem_busy (s : State) (rest : List HostItem) : (afterItem s rest).busy = s.busy := rfl

/-- HOST's step with an access next is that access, its item and its turn taken off (R65). -/
theorem hostMakes_step {s : State} {a : Access} {rest : List HostItem} (h : hostMakes s a rest) :
    step s = busAccess a (afterItem s rest) := by
  obtain ⟨h1, h2⟩ := h
  have : (popTurn s).pending = .access a :: rest := h2
  simp only [step, h1, hostStep, this, afterItem]

/-! The map (R60). -/

theorem regionOf_reg {addr : Addr} (h : addr.toNat < 0x100) : regionOf addr = .reg addr.toNat := by
  simp [regionOf, h]

theorem regionOf_segtab {addr : Addr} (h1 : 0x1000 ≤ addr.toNat) (h2 : addr.toNat < 0x2000) :
    regionOf addr = .segtab (addr.toNat - 0x1000) := by
  have c1 : ¬ addr.toNat < 0x100 := by omega
  have c2 : ¬ addr.toNat < 0x1000 := by omega
  simp only [regionOf, c1, c2, h2, if_false, if_true]

theorem regionOf_img {addr : Addr} (h1 : 0x1000000 ≤ addr.toNat) (h2 : addr.toNat < 0x2000000) :
    regionOf addr = .img (addr.toNat - 0x1000000) := by
  have c1 : ¬ addr.toNat < 0x100 := by omega
  have c2 : ¬ addr.toNat < 0x1000 := by omega
  have c3 : ¬ addr.toNat < 0x2000 := by omega
  have c4 : ¬ addr.toNat < 0x1000000 := by omega
  simp only [regionOf, c1, c2, c3, c4, h2, if_false, if_true]

theorem regionOf_out {addr : Addr} (h1 : 0x2000000 ≤ addr.toNat) (h2 : addr.toNat < 0x3000000) :
    regionOf addr = .out (addr.toNat - 0x2000000) := by
  have c1 : ¬ addr.toNat < 0x100 := by omega
  have c2 : ¬ addr.toNat < 0x1000 := by omega
  have c3 : ¬ addr.toNat < 0x2000 := by omega
  have c4 : ¬ addr.toNat < 0x1000000 := by omega
  have c5 : ¬ addr.toNat < 0x2000000 := by omega
  simp only [regionOf, c1, c2, c3, c4, c5, h2, if_false, if_true]

theorem regionOf_unmapped {addr : Addr}
    (h : (0x100 ≤ addr.toNat ∧ addr.toNat < 0x1000) ∨ (0x2000 ≤ addr.toNat ∧ addr.toNat < 0x1000000) ∨
      0x3000000 ≤ addr.toNat) : regionOf addr = .unmapped := by
  simp only [regionOf]
  split_ifs <;> first | rfl | omega

/-- Every address is in one of the regions (R60). -/
theorem region_cases (addr : Addr) :
    addr.toNat < 0x100 ∨ (0x1000 ≤ addr.toNat ∧ addr.toNat < 0x2000) ∨
      (0x1000000 ≤ addr.toNat ∧ addr.toNat < 0x2000000) ∨ (0x2000000 ≤ addr.toNat ∧ addr.toNat < 0x3000000) ∨
      ((0x100 ≤ addr.toNat ∧ addr.toNat < 0x1000) ∨ (0x2000 ≤ addr.toNat ∧ addr.toNat < 0x1000000) ∨
        0x3000000 ≤ addr.toNat) := by omega

/-- Natural alignment, width by width (R62). -/
theorem naturallyAligned_iff (width : Nat) (addr : Addr) :
    naturallyAligned width addr = true ↔
      width = 1 ∨ (width = 2 ∧ addr.toNat % 2 = 0) ∨ (width = 4 ∧ addr.toNat % 4 = 0) := by
  simp only [naturallyAligned, Bool.and_eq_true, Bool.or_eq_true, beq_iff_eq]
  constructor
  · rintro ⟨(rfl | rfl) | rfl, h⟩
    · exact .inl rfl
    · exact .inr (.inl ⟨rfl, h⟩)
    · exact .inr (.inr ⟨rfl, h⟩)
  · rintro (rfl | ⟨rfl, h⟩ | ⟨rfl, h⟩)
    · exact ⟨.inl (.inl rfl), Nat.mod_one _⟩
    · exact ⟨.inl (.inr rfl), h⟩
    · exact ⟨.inr rfl, h⟩

/-- The machine's test of an access is R62's. -/
theorem accessAllowed_iff (width : Nat) (addr : Addr) :
    accessAllowed width addr = true ↔ shapeAllowed width addr := by
  have word : (width == 4 && naturallyAligned width addr) = true ↔ width = 4 ∧ addr.toNat % 4 = 0 := by
    simp only [Bool.and_eq_true, beq_iff_eq, naturallyAligned_iff]; omega
  rcases region_cases addr with h | ⟨h1, h2⟩ | ⟨h1, h2⟩ | ⟨h1, h2⟩ | h
  · rw [accessAllowed, regionOf_reg h, shapeAllowed, if_pos (by omega)]; exact word
  · rw [accessAllowed, regionOf_segtab h1 h2, shapeAllowed, if_pos (by omega)]; exact word
  · rw [accessAllowed, regionOf_img h1 h2, shapeAllowed, if_neg (by omega)]; exact naturallyAligned_iff width addr
  · rw [accessAllowed, regionOf_out h1 h2, shapeAllowed, if_neg (by omega)]; exact naturallyAligned_iff width addr
  · rw [accessAllowed, regionOf_unmapped h, shapeAllowed, if_neg (by omega)]; exact naturallyAligned_iff width addr

/-- An allowed access has a width of 1, 2 or 4 bytes and does not leave the aligned block it starts. -/
theorem shapeAllowed_width {width : Nat} {addr : Addr} (h : shapeAllowed width addr) :
    (width = 1 ∨ width = 2 ∨ width = 4) ∧ addr.toNat % width = 0 := by
  simp only [shapeAllowed] at h
  split at h
  · obtain ⟨rfl, h⟩ := h; exact ⟨by simp, h⟩
  · rcases h with rfl | ⟨rfl, h⟩ | ⟨rfl, h⟩ <;> refine ⟨by simp, ?_⟩ <;> omega

/-- An aligned 32-bit access has an allowed shape everywhere. -/
theorem shapeAllowed_word {addr : Addr} (h : addr.toNat % 4 = 0) : shapeAllowed 4 addr := by
  simp only [shapeAllowed]
  split
  · exact ⟨trivial, h⟩
  · exact .inr (.inr ⟨trivial, h⟩)

/-- A read while no command is in progress returns the bus's value and changes nothing of the block (R62, R65). -/
theorem busAccess_read {width : Nat} {addr : Addr} {s : State} {v : Word} (hb : s.busy = false)
    (ha : shapeAllowed width addr) (hv : busRead width addr s = some v) :
    busAccess (.read width addr) s = .next { s with reads := v :: s.reads } := by
  simp only [busAccess, hb, (accessAllowed_iff width addr).2 ha, hv, Bool.false_and, Bool.false_eq_true, if_false, if_true]

/-- A read of an undefined cell (R11, R65). -/
theorem busAccess_read_undefined {width : Nat} {addr : Addr} {s : State} (hb : s.busy = false)
    (ha : shapeAllowed width addr) (hv : busRead width addr s = none) :
    busAccess (.read width addr) s = .fault .undefinedRead := by
  simp only [busAccess, hb, (accessAllowed_iff width addr).2 ha, hv, Bool.false_and, Bool.false_eq_true, if_false, if_true]

/-- A write while no command is in progress (R62, R64). -/
theorem busAccess_write {width : Nat} {addr : Addr} {v : Word} {s : State} (hb : s.busy = false)
    (ha : shapeAllowed width addr) : busAccess (.write width addr v) s = .next (busWrite width addr v s) := by
  simp [busAccess, hb, (accessAllowed_iff width addr).2 ha]

/-- An access of a shape R62 does not allow. -/
theorem busAccess_badShape {a : Access} {s : State} (hb : s.busy = false)
    (ha : ¬ shapeAllowed (accessWidth a) (accessAddr a)) : busAccess a s = .fault .busFault := by
  cases a with
  | write w d v =>
    have : accessAllowed w d = false := by rw [← Bool.not_eq_true, accessAllowed_iff]; exact ha
    simp [busAccess, hb, this]
  | read w d =>
    have : accessAllowed w d = false := by rw [← Bool.not_eq_true, accessAllowed_iff]; exact ha
    simp [busAccess, hb, this]

/-- While a command is in progress (R283). -/
theorem busAccess_hazard {a : Access} {s : State} (hb : s.busy = true) (ha : a ≠ .read 4 0x4) :
    busAccess a s = .fault .hostHazard := by
  have : isStatusRead a = false := decide_eq_false ha
  simp [busAccess, hb, this]

/-- The one read R283 allows. -/
theorem busAccess_status (s : State) :
    busAccess (.read 4 0x4) s = .next { s with reads := s.status :: s.reads } := by
  have h1 : isStatusRead (.read 4 0x4) = true := by decide
  have h2 : accessAllowed 4 0x4 = true := by decide
  have h3 : regionOf 0x4 = .reg 4 := by decide
  simp only [busAccess, h1, h2, busRead, h3, Bool.not_true, Bool.and_false, Bool.false_eq_true, if_false, if_true]
  rfl

/-! Windows. -/

/-- A window read, byte by byte (R60, R61, R63). -/
theorem windowBytes_eq_some {m : Memory} {cap a n : Nat} {bs : List Byte} :
    windowBytes m cap a n = some bs ↔
      bs.length = n ∧ ∀ k < n, (if a + k < cap then Table.get m (a + k) else some 0) = bs[k]? := by
  induction n generalizing a bs with
  | zero =>
    simp only [windowBytes, Option.some.injEq]
    constructor
    · rintro rfl; simp
    · rintro ⟨h, -⟩; exact (List.length_eq_zero_iff.1 h).symm
  | succ n ih =>
    simp only [windowBytes, Option.bind_eq_some_iff, Option.map_eq_some_iff]
    constructor
    · rintro ⟨b, hb, bs', hbs, rfl⟩
      obtain ⟨hl, hg⟩ := ih.1 hbs
      refine ⟨by simp [hl], fun k hk => ?_⟩
      cases k with
      | zero => simpa using hb
      | succ k => have := hg k (by omega); simpa [Nat.add_assoc, Nat.add_comm 1 k] using this
    · rintro ⟨hl, hg⟩
      cases bs with
      | nil => simp at hl
      | cons b bs =>
        have h0 := hg 0 (by omega)
        simp only [Nat.add_zero, List.getElem?_cons_zero] at h0
        refine ⟨b, h0, bs, ih.2 ⟨by simpa using hl, fun k hk => ?_⟩, rfl⟩
        have := hg (k + 1) (by omega)
        simpa [Nat.add_assoc, Nat.add_comm 1 k] using this

/-- The bytes of a written value: its base-256 digits, low first (R61). -/
theorem valueBytes_getElem? {width : Nat} (hw : width ≤ 4) (v : Word) {k : Nat} (hk : k < width) :
    (valueBytes width v)[k]? = some (BitVec.ofNat 8 (v.toNat / 256 ^ k)) := by
  have h : ∀ j, v.extractLsb' j 8 = BitVec.ofNat 8 (v.toNat / 2 ^ j) := fun j => by
    apply BitVec.eq_of_toNat_eq
    simp [BitVec.extractLsb'_toNat, Nat.shiftRight_eq_div_pow]
  rw [valueBytes, List.getElem?_take_of_lt hk]
  have hk4 : k < 4 := by omega
  interval_cases k <;> simp [bytesOfWord, h]

theorem valueBytes_length {width : Nat} (hw : width ≤ 4) (v : Word) : (valueBytes width v).length = width := by
  simp [valueBytes, bytesOfWord]; omega

/-- Byte `k` of a little-endian value (R61). -/
theorem leNat_digit (bs : List Byte) (k : Nat) : leNat bs / 256 ^ k % 256 = ((bs[k]?).map BitVec.toNat).getD 0 := by
  induction bs generalizing k with
  | nil => simp [leNat]
  | cons b bs ih =>
    have hb := b.isLt
    cases k with
    | zero => simp [leNat]; omega
    | succ k =>
      have h1 : (b.toNat + 256 * leNat bs) / 256 = leNat bs := by omega
      simp only [leNat, pow_succ', ← Nat.div_div_eq_div_mul, h1, ih, List.getElem?_cons_succ]

/-- A word of at most four bytes loses nothing. -/
theorem leWord_toNat {bs : List Byte} (h : bs.length ≤ 4) : (leWord bs).toNat = leNat bs := by
  have h1 := leNat_lt bs
  have h2 : 256 ^ bs.length ≤ 256 ^ 4 := Nat.pow_le_pow_right (by omega) h
  rw [leWord, BitVec.toNat_ofNat, Nat.mod_eq_of_lt (by omega)]

end Sys2Proof.Machine
end

