-- ==== Sys2Proof/Laws/Walk.lean ====
section
/-! SUPPORT. What the walk can do, said once (R140, R144, R164): it records the records the image holds, or stops at the
first that fails, or reads an undefined byte. -/

namespace Sys2Proof.Machine

/-- The state after the walk has gone over the records `ds`, whose data is `bs`. -/
def walked (fold : Bool) (s : State) (ds : List SegDesc) (bs : List Byte) : State :=
  { s with
    eng := { s.eng with
      cursor := s.eng.cursor + recordsSize ds
      index := s.eng.index + ds.length
      acc := if fold then foldBytes s.eng.acc bs else s.eng.acc }
    cursor := BitVec.ofNat 32 (s.eng.cursor + recordsSize ds)
    segDone := BitVec.ofNat 32 (s.eng.index + ds.length)
    csum := if fold then (foldBytes s.eng.acc bs).toWord else s.csum
    segtab := writeRecords s.segtab s.eng.index ds }

/-- At the head of an iteration CURSOR, SEG_DONE and, when folding, CSUM show the hidden state. -/
structure Synced (fold : Bool) (s : State) : Prop where
  cursor : s.cursor = BitVec.ofNat 32 s.eng.cursor
  segDone : s.segDone = BitVec.ofNat 32 s.eng.index
  csum : fold = true → s.csum = s.eng.acc.toWord

/-- Over no record the walk changes nothing. -/
theorem walked_nil {fold : Bool} {s : State} {bs : List Byte} (h : Synced fold s)
    (hb : fold = true → payload s.target [] = some bs) : walked fold s [] bs = s := by
  obtain ⟨h1, h2, h3⟩ := h
  cases fold
  · simp [walked, recordsSize, writeRecords, ← h1, ← h2]
  · cases hb rfl
    simp [walked, recordsSize, writeRecords, foldBytes, ← h1, ← h2, ← h3 rfl]

theorem synced_walked (fold : Bool) (s : State) (ds : List SegDesc) (bs : List Byte) :
    Synced fold (walked fold s ds bs) := by
  constructor
  · rfl
  · rfl
  · rintro rfl; rfl

theorem synced_walkStart (fold : Bool) (s : State) : Synced fold (walkStart fold s) := by
  cases fold <;> constructor <;> simp [walkStart, foldInit]

theorem foldBytes_append (x : Byte) (b c : List Byte) : foldBytes x (b ++ c) = foldBytes (foldBytes x b) c := by
  simp [foldBytes]

/-- Going on from where a walk stood is going over the records of both parts. -/
theorem walked_walked (fold : Bool) (s : State) (d : SegDesc) (ds : List SegDesc) (b bs : List Byte) :
    walked fold (walked fold s [d] b) ds bs = walked fold s (d :: ds) (b ++ bs) := by
  have h1 : s.eng.cursor + recordsSize [d] + recordsSize ds = s.eng.cursor + recordsSize (d :: ds) := by
    simp [recordsSize]; omega
  have h2 : s.eng.index + 1 + ds.length = s.eng.index + (d :: ds).length := by
    simp; omega
  cases fold <;> simp [walked, h1, h2, writeRecords, foldBytes_append]

@[simp] theorem walked_target (fold : Bool) (s : State) (ds : List SegDesc) (bs : List Byte) :
    (walked fold s ds bs).target = s.target := rfl
@[simp] theorem walked_imageLen (fold : Bool) (s : State) (ds : List SegDesc) (bs : List Byte) :
    (walked fold s ds bs).imageLen = s.imageLen := rfl
@[simp] theorem walked_eng_cursor (fold : Bool) (s : State) (ds : List SegDesc) (bs : List Byte) :
    (walked fold s ds bs).eng.cursor = s.eng.cursor + recordsSize ds := rfl
@[simp] theorem walked_eng_index (fold : Bool) (s : State) (ds : List SegDesc) (bs : List Byte) :
    (walked fold s ds bs).eng.index = s.eng.index + ds.length := rfl

/-! The image's records. -/

theorem recordAt_eq_some {m : Memory} {L c : Nat} {d : SegDesc} :
    recordAt m L c = some d ↔
      imageWord m c = some d.loadAddr ∧ imageWord m (c + 4) = some d.dataLen ∧ c + 8 + d.dataLen.toNat ≤ L ∧
        d.dataOff = BitVec.ofNat 32 (c + 8) := by
  simp only [recordAt, Option.bind_eq_some_iff]
  constructor
  · rintro ⟨la, h1, dl, h2, h3⟩
    split at h3
    · cases h3; exact ⟨h1, h2, ‹_›, rfl⟩
    · cases h3
  · rintro ⟨h1, h2, h3, h4⟩
    refine ⟨_, h1, _, h2, ?_⟩
    rw [if_pos h3, ← h4]

/-- A record's data starts right after its header: the 32-bit DATA_OFF holds the exact offset (R41, R97). -/
theorem dataOff_toNat {m : Memory} {L c : Nat} {d : SegDesc} (h : recordAt m L c = some d) (hL : L < 2 ^ 32) :
    d.dataOff.toNat = c + 8 := by
  obtain ⟨-, -, h3, h4⟩ := recordAt_eq_some.1 h
  rw [h4, BitVec.toNat_ofNat, Nat.mod_eq_of_lt (by omega)]

theorem recordsFrom_succ {m : Memory} {L n c : Nat} {ds : List SegDesc} :
    recordsFrom m L (n + 1) c = some ds ↔
      ∃ d ds', recordAt m L c = some d ∧ recordsFrom m L n (c + 8 + d.dataLen.toNat) = some ds' ∧ ds = d :: ds' := by
  simp only [recordsFrom, Option.bind_eq_some_iff, Option.map_eq_some_iff]
  constructor
  · rintro ⟨d, h1, ds', h2, rfl⟩; exact ⟨d, ds', h1, h2, rfl⟩
  · rintro ⟨d, ds', h1, h2, rfl⟩; exact ⟨d, h1, ds', h2, rfl⟩

theorem recordsSize_cons (d : SegDesc) (ds : List SegDesc) :
    recordsSize (d :: ds) = 8 + d.dataLen.toNat + recordsSize ds := by simp [recordsSize]

theorem recordsFrom_length {m : Memory} {L n c : Nat} {ds : List SegDesc} (h : recordsFrom m L n c = some ds) :
    ds.length = n := by
  induction n generalizing c ds with
  | zero => cases h; rfl
  | succ n ih =>
    obtain ⟨d, ds', -, h2, rfl⟩ := recordsFrom_succ.1 h
    simp [ih h2]

/-- The records lie within the image (R141). -/
theorem recordsFrom_end_le {m : Memory} {L n c : Nat} {ds : List SegDesc} (h : recordsFrom m L n c = some ds)
    (hc : c ≤ L) : c + recordsSize ds ≤ L := by
  induction n generalizing c ds with
  | zero => cases h; simpa [recordsSize] using hc
  | succ n ih =>
    obtain ⟨d, ds', h1, h2, rfl⟩ := recordsFrom_succ.1 h
    obtain ⟨-, -, h3, -⟩ := recordAt_eq_some.1 h1
    have := ih h2 h3
    rw [recordsSize_cons]; omega

theorem payload_cons {m : Memory} {d : SegDesc} {ds : List SegDesc} {bs : List Byte} :
    payload m (d :: ds) = some bs ↔
      ∃ b bs', Memory.bytes m d.dataOff.toNat d.dataLen.toNat = some b ∧ payload m ds = some bs' ∧ bs = b ++ bs' := by
  simp only [payload, Option.bind_eq_some_iff, Option.map_eq_some_iff]
  constructor
  · rintro ⟨b, h1, bs', h2, rfl⟩; exact ⟨b, bs', h1, h2, rfl⟩
  · rintro ⟨b, bs', h1, h2, rfl⟩; exact ⟨b, h1, bs', h2, rfl⟩

/-! One iteration. -/

/-- A record within the image is recorded, folded and passed (R140, R144, R164). -/
theorem walkRecord_ok {fold : Bool} {s : State} {d : SegDesc} {b : List Byte}
    (hd : recordAt s.target s.imageLen s.eng.cursor = some d)
    (hb : fold = true → Memory.bytes s.target d.dataOff.toNat d.dataLen.toNat = some b) :
    walkRecord fold s = .ok () (walked fold s [d] b) := by
  obtain ⟨h1, h2, h3, h4⟩ := recordAt_eq_some.1 hd
  have hL : s.imageLen < 2 ^ 32 := s.eng.len.isLt
  have hoff := dataOff_toNat hd hL
  have n1 : ¬ s.eng.cursor + 4 > s.imageLen := by omega
  have n2 : ¬ s.eng.cursor + 8 > s.imageLen := by omega
  have n3 : ¬ s.eng.cursor + 8 + d.dataLen.toNat > s.imageLen := by omega
  simp only [walkRecord, n1, if_false, memReadWord_some h1, Res.andThen_ok, n2, memReadWord_some h2, n3, ← h4]
  cases fold
  · simp [walked, walkAdvance, Config.segRecHdr, recordsSize, writeRecords, Nat.add_assoc]
  · have hb := hb rfl
    rw [hoff] at hb
    have hb' : Memory.bytes ({ s with segtab := Table.set s.segtab s.eng.index ⟨d.loadAddr, d.dataLen, d.dataOff⟩ } : State).target
        (s.eng.cursor + 8) d.dataLen.toNat = some b := hb
    simp [foldRange, readBytes_some hb', walked, walkAdvance, Config.segRecHdr, recordsSize, writeRecords, Nat.add_assoc]

/-- A failing record is reported, and nothing is written for it (R140, R143). -/
theorem walkRecord_fails {fold : Bool} {s : State} {f : ErrField} {o : Nat}
    (h : RecordFails s.target s.imageLen s.eng.cursor f o) :
    walkRecord fold s = .raised (errorState .truncated f o s.eng.index s) := by
  cases h with
  | loadAddr h =>
    have n1 : s.eng.cursor + 4 > s.imageLen := h
    simp [walkRecord, n1]
  | dataLen h4 hd h =>
    obtain ⟨la, hla⟩ := Option.isSome_iff_exists.1 hd
    have n1 : ¬ s.eng.cursor + 4 > s.imageLen := by omega
    have n2 : s.eng.cursor + 8 > s.imageLen := h
    simp only [walkRecord, n1, if_false, memReadWord_some hla, Res.andThen_ok, n2, if_true, raise_eq]
  | data dl h8 hd hl h =>
    obtain ⟨la, hla⟩ := Option.isSome_iff_exists.1 hd
    have n1 : ¬ s.eng.cursor + 4 > s.imageLen := by omega
    have n2 : ¬ s.eng.cursor + 8 > s.imageLen := by omega
    have n3 : s.eng.cursor + 8 + dl.toNat > s.imageLen := h
    simp only [walkRecord, n1, if_false, memReadWord_some hla, Res.andThen_ok, n2, memReadWord_some hl, n3, if_true,
      raise_eq]

theorem exists_undefined_of_imageWord {m : Memory} {a : Nat} (h : imageWord m a = none) :
    ∃ k, a ≤ k ∧ k < a + 4 ∧ Table.get m k = none := by
  by_contra hc
  push Not at hc
  have : (Memory.bytes m a 4).isSome = true := Memory.bytes_isSome.2 fun k hk => by
    have := hc (a + k) (by omega) (by omega)
    exact Option.isSome_iff_ne_none.2 this
  simp only [imageWord, Option.map_eq_none_iff] at h
  simp [h] at this

theorem exists_undefined_of_bytes {m : Memory} {a n : Nat} (h : Memory.bytes m a n = none) :
    ∃ k, a ≤ k ∧ k < a + n ∧ Table.get m k = none := by
  by_contra hc
  push Not at hc
  have : (Memory.bytes m a n).isSome = true := Memory.bytes_isSome.2 fun k hk => by
    have := hc (a + k) (by omega) (by omega)
    exact Option.isSome_iff_ne_none.2 this
  simp [h] at this

/-- Everything one iteration can do. -/
theorem walkRecord_cases (fold : Bool) (s : State) :
    (∃ d b, recordAt s.target s.imageLen s.eng.cursor = some d ∧
      (fold = true → Memory.bytes s.target d.dataOff.toNat d.dataLen.toNat = some b) ∧
      walkRecord fold s = .ok () (walked fold s [d] b)) ∨
    (∃ f o, RecordFails s.target s.imageLen s.eng.cursor f o ∧
      walkRecord fold s = .raised (errorState .truncated f o s.eng.index s)) ∨
    ((∃ k, s.eng.cursor ≤ k ∧ k < s.imageLen ∧ Table.get s.target k = none) ∧
      walkRecord fold s = .fault .undefinedRead) := by
  by_cases n1 : s.imageLen < s.eng.cursor + 4
  · exact .inr (.inl ⟨_, _, .loadAddr n1, walkRecord_fails (.loadAddr n1)⟩)
  rcases hla : imageWord s.target s.eng.cursor with _ | la
  · obtain ⟨k, h1, h2, h3⟩ := exists_undefined_of_imageWord hla
    refine .inr (.inr ⟨⟨k, h1, by omega, h3⟩, ?_⟩)
    have n1' : ¬ s.eng.cursor + 4 > s.imageLen := n1
    simp only [walkRecord, n1', if_false, memReadWord_none hla, Res.andThen_fault]
  have hsome : (imageWord s.target s.eng.cursor).isSome = true := by simp [hla]
  by_cases n2 : s.imageLen < s.eng.cursor + 8
  · have hf := RecordFails.dataLen (by omega) hsome n2
    exact .inr (.inl ⟨_, _, hf, walkRecord_fails hf⟩)
  have n1' : ¬ s.eng.cursor + 4 > s.imageLen := n1
  have n2' : ¬ s.eng.cursor + 8 > s.imageLen := n2
  rcases hdl : imageWord s.target (s.eng.cursor + 4) with _ | dl
  · obtain ⟨k, h1, h2, h3⟩ := exists_undefined_of_imageWord hdl
    refine .inr (.inr ⟨⟨k, by omega, by omega, h3⟩, ?_⟩)
    simp only [walkRecord, n1', if_false, memReadWord_some hla, Res.andThen_ok, n2', memReadWord_none hdl,
      Res.andThen_fault]
  by_cases n3 : s.imageLen < s.eng.cursor + 8 + dl.toNat
  · have hf := RecordFails.data dl (by omega) hsome hdl n3
    exact .inr (.inl ⟨_, _, hf, walkRecord_fails hf⟩)
  have n3' : ¬ s.eng.cursor + 8 + dl.toNat > s.imageLen := n3
  have hd : recordAt s.target s.imageLen s.eng.cursor = some ⟨la, dl, BitVec.ofNat 32 (s.eng.cursor + 8)⟩ :=
    recordAt_eq_some.2 ⟨hla, hdl, by simpa using n3, rfl⟩
  have hoff := dataOff_toNat hd s.eng.len.isLt
  cases fold
  · exact .inl ⟨_, [], hd, by simp, walkRecord_ok hd (by simp)⟩
  · rcases hb : Memory.bytes s.target (s.eng.cursor + 8) dl.toNat with _ | b
    · obtain ⟨k, h1, h2, h3⟩ := exists_undefined_of_bytes hb
      refine .inr (.inr ⟨⟨k, by omega, by omega, h3⟩, ?_⟩)
      have hb' : Memory.bytes ({ s with segtab := Table.set s.segtab s.eng.index ⟨la, dl, BitVec.ofNat 32 (s.eng.cursor + 8)⟩ } : State).target
          (s.eng.cursor + 8) dl.toNat = none := hb
      simp only [walkRecord, n1', if_false, memReadWord_some hla, Res.andThen_ok, n2', memReadWord_some hdl, n3',
        if_true, foldRange, readBytes_none hb', Res.andThen_fault]
    · have hb2 : true = true → Memory.bytes s.target
          (⟨la, dl, BitVec.ofNat 32 (s.eng.cursor + 8)⟩ : SegDesc).dataOff.toNat dl.toNat = some b := fun _ => by
        rw [hoff]; exact hb
      exact .inl ⟨_, b, hd, hb2, walkRecord_ok hd hb2⟩

/-- A record that fails is no record of the image. -/
theorem RecordFails.recordAt_eq_none {m : Memory} {L c : Nat} {f : ErrField} {o : Nat} (h : RecordFails m L c f o) :
    recordAt m L c = none := by
  rcases hr : recordAt m L c with _ | d
  · rfl
  obtain ⟨-, h2, h3, -⟩ := recordAt_eq_some.1 hr
  cases h with
  | loadAddr h => omega
  | dataLen _ _ h => omega
  | data dl _ _ hl h =>
    rw [h2] at hl; cases hl; omega

/-! The loop. -/

/-- The walk over the records the image holds. -/
theorem walkLoop_ok {fold : Bool} {n : Nat} {s : State} {ds : List SegDesc} {bs : List Byte} (hs : Synced fold s)
    (hd : recordsFrom s.target s.imageLen n s.eng.cursor = some ds)
    (hb : fold = true → payload s.target ds = some bs) :
    walkLoop fold n s = .ok () (walked fold s ds bs) := by
  induction n generalizing s ds bs with
  | zero =>
    cases hd
    simp [walkLoop, walked_nil hs hb]
  | succ n ih =>
    obtain ⟨d, ds', h1, h2, rfl⟩ := recordsFrom_succ.1 hd
    have hb' : ∃ b bs', (fold = true → Memory.bytes s.target d.dataOff.toNat d.dataLen.toNat = some b) ∧
        (fold = true → payload s.target ds' = some bs') ∧ (fold = true → bs = b ++ bs') := by
      cases fold
      · exact ⟨[], [], by simp, by simp, by simp⟩
      · obtain ⟨b, bs', e1, e2, e3⟩ := payload_cons.1 (hb rfl)
        exact ⟨b, bs', fun _ => e1, fun _ => e2, fun _ => e3⟩
    obtain ⟨b, bs', e1, e2, e3⟩ := hb'
    simp only [walkLoop, walkRecord_ok h1 e1, Res.andThen_ok]
    have hcur : (walked fold s [d] b).eng.cursor = s.eng.cursor + 8 + d.dataLen.toNat := by
      simp [recordsSize, Nat.add_assoc]
    rw [ih (ds := ds') (bs := bs') (synced_walked fold s [d] b) (by rw [hcur]; exact h2) e2, walked_walked]
    cases fold
    · simp [walked]
    · rw [e3 rfl]

/-- The walk up to the first record that fails (R143, R144, R164). -/
theorem walkLoop_fails {fold : Bool} {n k : Nat} {s : State} {ds : List SegDesc} {bs : List Byte} {f : ErrField} {o : Nat}
    (hs : Synced fold s) (hk : k < n) (hd : recordsFrom s.target s.imageLen k s.eng.cursor = some ds)
    (hb : fold = true → payload s.target ds = some bs)
    (hf : RecordFails s.target s.imageLen (s.eng.cursor + recordsSize ds) f o) :
    walkLoop fold n s = .raised (errorState .truncated f o (s.eng.index + k) (walked fold s ds bs)) := by
  induction k generalizing n s ds bs with
  | zero =>
    cases hd
    obtain ⟨n, rfl⟩ : ∃ m, n = m + 1 := ⟨n - 1, by omega⟩
    simp only [recordsSize, List.map_nil, List.sum_nil, Nat.add_zero] at hf
    simp only [walkLoop, walkRecord_fails hf, Res.andThen_raised, Nat.add_zero, walked_nil hs hb]
  | succ k ih =>
    obtain ⟨n, rfl⟩ : ∃ m, n = m + 1 := ⟨n - 1, by omega⟩
    obtain ⟨d, ds', h1, h2, rfl⟩ := recordsFrom_succ.1 hd
    have hb' : ∃ b bs', (fold = true → Memory.bytes s.target d.dataOff.toNat d.dataLen.toNat = some b) ∧
        (fold = true → payload s.target ds' = some bs') ∧ (fold = true → bs = b ++ bs') := by
      cases fold
      · exact ⟨[], [], by simp, by simp, by simp⟩
      · obtain ⟨b, bs', e1, e2, e3⟩ := payload_cons.1 (hb rfl)
        exact ⟨b, bs', fun _ => e1, fun _ => e2, fun _ => e3⟩
    obtain ⟨b, bs', e1, e2, e3⟩ := hb'
    simp only [walkLoop, walkRecord_ok h1 e1, Res.andThen_ok]
    have hcur : (walked fold s [d] b).eng.cursor = s.eng.cursor + 8 + d.dataLen.toNat := by
      simp [recordsSize, Nat.add_assoc]
    have hcur2 : (walked fold s [d] b).eng.cursor + recordsSize ds' = s.eng.cursor + recordsSize (d :: ds') := by
      rw [hcur, recordsSize_cons]; omega
    rw [ih (n := n) (ds := ds') (bs := bs') (synced_walked fold s [d] b) (by omega) (by rw [hcur]; exact h2) e2
      (by rw [hcur2]; exact hf), walked_walked]
    have hidx : (walked fold s [d] b).eng.index + k = s.eng.index + (k + 1) := by simp; omega
    rw [hidx]
    cases fold
    · simp [walked]
    · rw [e3 rfl]

/-- Everything the loop can do. -/
theorem walkLoop_cases (fold : Bool) (n : Nat) (s : State) (hs : Synced fold s) :
    (∃ ds bs, recordsFrom s.target s.imageLen n s.eng.cursor = some ds ∧
      (fold = true → payload s.target ds = some bs) ∧ walkLoop fold n s = .ok () (walked fold s ds bs)) ∨
    (∃ k ds bs f o, k < n ∧ recordsFrom s.target s.imageLen k s.eng.cursor = some ds ∧
      (fold = true → payload s.target ds = some bs) ∧
      RecordFails s.target s.imageLen (s.eng.cursor + recordsSize ds) f o ∧
      walkLoop fold n s = .raised (errorState .truncated f o (s.eng.index + k) (walked fold s ds bs))) ∨
    ((∃ k, s.eng.cursor ≤ k ∧ k < s.imageLen ∧ Table.get s.target k = none) ∧
      walkLoop fold n s = .fault .undefinedRead) := by
  induction n generalizing s with
  | zero =>
    exact .inl ⟨[], [], rfl, fun _ => rfl, walkLoop_ok hs rfl fun _ => rfl⟩
  | succ n ih =>
    rcases walkRecord_cases fold s with ⟨d, b, h1, h2, h3⟩ | ⟨f, o, h1, h2⟩ | ⟨h1, h2⟩
    · have hcur : (walked fold s [d] b).eng.cursor = s.eng.cursor + 8 + d.dataLen.toNat := by
        simp [recordsSize, Nat.add_assoc]
      have hpay : ∀ ds bs, (fold = true → payload s.target ds = some bs) →
          (fold = true → payload s.target (d :: ds) = some (b ++ bs)) := fun ds bs hb hf =>
        payload_cons.2 ⟨b, bs, h2 hf, hb hf, rfl⟩
      rcases ih (walked fold s [d] b) (synced_walked fold s [d] b) with
        ⟨ds, bs, e1, e2, e3⟩ | ⟨k, ds, bs, f, o, e0, e1, e2, e3, e4⟩ | ⟨⟨k, e1, e2, e3⟩, e4⟩
      · have hr : recordsFrom s.target s.imageLen (n + 1) s.eng.cursor = some (d :: ds) :=
          recordsFrom_succ.2 ⟨d, ds, h1, by rw [← hcur]; exact e1, rfl⟩
        exact .inl ⟨d :: ds, b ++ bs, hr, hpay ds bs e2, walkLoop_ok hs hr (hpay ds bs e2)⟩
      · have hr : recordsFrom s.target s.imageLen (k + 1) s.eng.cursor = some (d :: ds) :=
          recordsFrom_succ.2 ⟨d, ds, h1, by rw [← hcur]; exact e1, rfl⟩
        have hcur2 : (walked fold s [d] b).eng.cursor + recordsSize ds = s.eng.cursor + recordsSize (d :: ds) := by
          rw [hcur, recordsSize_cons]; omega
        rw [hcur2] at e3
        exact .inr (.inl ⟨k + 1, d :: ds, b ++ bs, f, o, by omega, hr, hpay ds bs e2, e3,
          walkLoop_fails hs (by omega) hr (hpay ds bs e2) e3⟩)
      · refine .inr (.inr ⟨⟨k, by rw [hcur] at e1; omega, e2, e3⟩, ?_⟩)
        simp only [walkLoop, h3, Res.andThen_ok, e4]
    · exact .inr (.inl ⟨0, [], [], f, o, by omega, rfl, fun _ => rfl, by simpa [recordsSize] using h1,
        walkLoop_fails hs (by omega) rfl (fun _ => rfl) (by simpa [recordsSize] using h1)⟩)
    · refine .inr (.inr ⟨h1, ?_⟩)
      simp only [walkLoop, h2, Res.andThen_fault]

/-! The whole walk. -/

@[simp] theorem walkStart_target (fold : Bool) (s : State) : (walkStart fold s).target = s.target := by
  cases fold <;> rfl
@[simp] theorem walkStart_imageLen (fold : Bool) (s : State) : (walkStart fold s).imageLen = s.imageLen := by
  cases fold <;> rfl
@[simp] theorem walkStart_eng_cursor (fold : Bool) (s : State) : (walkStart fold s).eng.cursor = 24 := by
  cases fold <;> rfl
@[simp] theorem walkStart_eng_index (fold : Bool) (s : State) : (walkStart fold s).eng.index = 0 := by
  cases fold <;> rfl

/-- The walk accepts: every record lies within the buffer (R140, R148). -/
theorem walk_ok {fold : Bool} {n : Nat} {s : State} {ds : List SegDesc} {bs : List Byte}
    (hd : recordsFrom s.target s.imageLen n 24 = some ds) (hb : fold = true → payload s.target ds = some bs) :
    walk n fold s = .ok (walkEnd ds) (walked fold (walkStart fold s) ds bs) := by
  have := walkLoop_ok (n := n) (ds := ds) (bs := bs) (synced_walkStart fold s) (by simpa using hd) (by simpa using hb)
  simp [walk, this, walkEnd, Config.hdrLen_eq]

/-- The walk stops at record `k` (R143). -/
theorem walk_fails {fold : Bool} {n k : Nat} {s : State} {ds : List SegDesc} {bs : List Byte} {f : ErrField} {o : Nat}
    (hk : k < n) (hd : recordsFrom s.target s.imageLen k 24 = some ds)
    (hb : fold = true → payload s.target ds = some bs) (hf : RecordFails s.target s.imageLen (walkEnd ds) f o) :
    walk n fold s = .raised (errorState .truncated f o k (walked fold (walkStart fold s) ds bs)) := by
  have := walkLoop_fails (n := n) (k := k) (ds := ds) (bs := bs) (f := f) (o := o) (synced_walkStart fold s) hk
    (by simpa using hd) (by simpa using hb) (by simpa [walkEnd, Config.hdrLen_eq] using hf)
  simp [walk, this]

/-- Everything the walk can do. -/
theorem walk_cases (n : Nat) (fold : Bool) (s : State) :
    (∃ ds bs, recordsFrom s.target s.imageLen n 24 = some ds ∧ (fold = true → payload s.target ds = some bs) ∧
      walk n fold s = .ok (walkEnd ds) (walked fold (walkStart fold s) ds bs)) ∨
    (∃ k ds bs f o, k < n ∧ recordsFrom s.target s.imageLen k 24 = some ds ∧
      (fold = true → payload s.target ds = some bs) ∧ RecordFails s.target s.imageLen (walkEnd ds) f o ∧
      walk n fold s = .raised (errorState .truncated f o k (walked fold (walkStart fold s) ds bs))) ∨
    ((∃ k, 24 ≤ k ∧ k < s.imageLen ∧ Table.get s.target k = none) ∧ walk n fold s = .fault .undefinedRead) := by
  rcases walkLoop_cases fold n (walkStart fold s) (synced_walkStart fold s) with
    ⟨ds, bs, h1, h2, h3⟩ | ⟨k, ds, bs, f, o, h0, h1, h2, h3, h4⟩ | ⟨h1, h2⟩
  · simp only [walkStart_target, walkStart_imageLen, walkStart_eng_cursor] at h1 h2
    exact .inl ⟨ds, bs, h1, h2, walk_ok h1 h2⟩
  · simp only [walkStart_target, walkStart_imageLen, walkStart_eng_cursor] at h1 h2 h3
    exact .inr (.inl ⟨k, ds, bs, f, o, h0, h1, h2, h3, walk_fails h0 h1 h2 h3⟩)
  · simp only [walkStart_target, walkStart_imageLen, walkStart_eng_cursor] at h1
    refine .inr (.inr ⟨h1, ?_⟩)
    simp [walk, h2]

end Sys2Proof.Machine
end

