-- ==== Sys2Proof/Laws/WalkState.lean ====
section
/-! SUPPORT. One lemma per field for the state a walk leaves. -/

namespace Sys2Proof.Machine

variable (fold : Bool) (s : State)

/-! `walkStart`. -/

@[simp] theorem walkStart_cmd : (walkStart fold s).cmd = s.cmd := by cases fold <;> rfl
@[simp] theorem walkStart_status : (walkStart fold s).status = s.status := by cases fold <;> rfl
@[simp] theorem walkStart_fsm : (walkStart fold s).fsm = s.fsm := by cases fold <;> rfl
@[simp] theorem walkStart_len : (walkStart fold s).len = s.len := by cases fold <;> rfl
@[simp] theorem walkStart_errCode : (walkStart fold s).errCode = s.errCode := by cases fold <;> rfl
@[simp] theorem walkStart_errField : (walkStart fold s).errField = s.errField := by cases fold <;> rfl
@[simp] theorem walkStart_errOffset : (walkStart fold s).errOffset = s.errOffset := by cases fold <;> rfl
@[simp] theorem walkStart_errSeg : (walkStart fold s).errSeg = s.errSeg := by cases fold <;> rfl
@[simp] theorem walkStart_magic : (walkStart fold s).magic = s.magic := by cases fold <;> rfl
@[simp] theorem walkStart_segCount : (walkStart fold s).segCount = s.segCount := by cases fold <;> rfl
@[simp] theorem walkStart_segDone : (walkStart fold s).segDone = 0#32 := by cases fold <;> rfl
@[simp] theorem walkStart_cursor : (walkStart fold s).cursor = 24#32 := by cases fold <;> rfl
@[simp] theorem walkStart_trailerStart : (walkStart fold s).trailerStart = s.trailerStart := by cases fold <;> rfl
@[simp] theorem walkStart_csum : (walkStart fold s).csum = if fold then Config.seed.toWord else s.csum := by cases fold <;> rfl
@[simp] theorem walkStart_csumStored : (walkStart fold s).csumStored = s.csumStored := by cases fold <;> rfl
@[simp] theorem walkStart_cap : (walkStart fold s).cap = s.cap := by cases fold <;> rfl
@[simp] theorem walkStart_digest : (walkStart fold s).digest = s.digest := by cases fold <;> rfl
@[simp] theorem walkStart_segtab : (walkStart fold s).segtab = s.segtab := by cases fold <;> rfl
@[simp] theorem walkStart_img : (walkStart fold s).img = s.img := by cases fold <;> rfl
@[simp] theorem walkStart_out : (walkStart fold s).out = s.out := by cases fold <;> rfl
@[simp] theorem walkStart_eng : (walkStart fold s).eng =
    { s.eng with cursor := 24, index := 0, acc := if fold then Config.seed else s.eng.acc } := by
  cases fold <;> rfl
@[simp] theorem walkStart_pending : (walkStart fold s).pending = s.pending := by cases fold <;> rfl
@[simp] theorem walkStart_turns : (walkStart fold s).turns = s.turns := by cases fold <;> rfl
@[simp] theorem walkStart_reads : (walkStart fold s).reads = s.reads := by cases fold <;> rfl

/-! `walked`. -/

@[simp] theorem walked_cmd (ds : List SegDesc) (bs : List Byte) :
    (walked fold s ds bs).cmd = s.cmd := rfl
@[simp] theorem walked_status (ds : List SegDesc) (bs : List Byte) :
    (walked fold s ds bs).status = s.status := rfl
@[simp] theorem walked_fsm (ds : List SegDesc) (bs : List Byte) :
    (walked fold s ds bs).fsm = s.fsm := rfl
@[simp] theorem walked_len (ds : List SegDesc) (bs : List Byte) :
    (walked fold s ds bs).len = s.len := rfl
@[simp] theorem walked_errCode (ds : List SegDesc) (bs : List Byte) :
    (walked fold s ds bs).errCode = s.errCode := rfl
@[simp] theorem walked_errField (ds : List SegDesc) (bs : List Byte) :
    (walked fold s ds bs).errField = s.errField := rfl
@[simp] theorem walked_errOffset (ds : List SegDesc) (bs : List Byte) :
    (walked fold s ds bs).errOffset = s.errOffset := rfl
@[simp] theorem walked_errSeg (ds : List SegDesc) (bs : List Byte) :
    (walked fold s ds bs).errSeg = s.errSeg := rfl
@[simp] theorem walked_magic (ds : List SegDesc) (bs : List Byte) :
    (walked fold s ds bs).magic = s.magic := rfl
@[simp] theorem walked_segCount (ds : List SegDesc) (bs : List Byte) :
    (walked fold s ds bs).segCount = s.segCount := rfl
@[simp] theorem walked_segDone (ds : List SegDesc) (bs : List Byte) :
    (walked fold s ds bs).segDone = BitVec.ofNat 32 (s.eng.index + ds.length) := rfl
@[simp] theorem walked_cursor (ds : List SegDesc) (bs : List Byte) :
    (walked fold s ds bs).cursor = BitVec.ofNat 32 (s.eng.cursor + recordsSize ds) := rfl
@[simp] theorem walked_trailerStart (ds : List SegDesc) (bs : List Byte) :
    (walked fold s ds bs).trailerStart = s.trailerStart := rfl
@[simp] theorem walked_csum (ds : List SegDesc) (bs : List Byte) :
    (walked fold s ds bs).csum = if fold then (foldBytes s.eng.acc bs).toWord else s.csum := rfl
@[simp] theorem walked_csumStored (ds : List SegDesc) (bs : List Byte) :
    (walked fold s ds bs).csumStored = s.csumStored := rfl
@[simp] theorem walked_cap (ds : List SegDesc) (bs : List Byte) :
    (walked fold s ds bs).cap = s.cap := rfl
@[simp] theorem walked_digest (ds : List SegDesc) (bs : List Byte) :
    (walked fold s ds bs).digest = s.digest := rfl
@[simp] theorem walked_segtab (ds : List SegDesc) (bs : List Byte) :
    (walked fold s ds bs).segtab = writeRecords s.segtab s.eng.index ds := rfl
@[simp] theorem walked_img (ds : List SegDesc) (bs : List Byte) :
    (walked fold s ds bs).img = s.img := rfl
@[simp] theorem walked_out (ds : List SegDesc) (bs : List Byte) :
    (walked fold s ds bs).out = s.out := rfl
@[simp] theorem walked_pending (ds : List SegDesc) (bs : List Byte) :
    (walked fold s ds bs).pending = s.pending := rfl
@[simp] theorem walked_turns (ds : List SegDesc) (bs : List Byte) :
    (walked fold s ds bs).turns = s.turns := rfl
@[simp] theorem walked_reads (ds : List SegDesc) (bs : List Byte) :
    (walked fold s ds bs).reads = s.reads := rfl
@[simp] theorem walked_eng_acc (ds : List SegDesc) (bs : List Byte) :
    (walked fold s ds bs).eng.acc = if fold then foldBytes s.eng.acc bs else s.eng.acc := rfl
@[simp] theorem walked_eng_target (ds : List SegDesc) (bs : List Byte) :
    (walked fold s ds bs).eng.target = s.eng.target := rfl
@[simp] theorem walked_eng_len (ds : List SegDesc) (bs : List Byte) :
    (walked fold s ds bs).eng.len = s.eng.len := rfl

end Sys2Proof.Machine
end

