-- ==== Sys2Proof/Laws/Image.lean ====
section
/-! SUPPORT. The image format's own laws: what it depends on, where its parts lie, bytes and words (R97, R99, R141, R160). -/

namespace Sys2Proof.Machine

/-! Bytes as words. -/

theorem Byte.toWord_toNat (b : Byte) : (Byte.toWord b).toNat = b.toNat := by
  have := b.isLt
  simp only [Byte.toWord, BitVec.toNat_ofNat]; omega

theorem Byte.toWord_inj {a b : Byte} : Byte.toWord a = Byte.toWord b ↔ a = b := by
  constructor
  · intro h
    apply BitVec.eq_of_toNat_eq
    rw [← Byte.toWord_toNat, ← Byte.toWord_toNat, h]
  · rintro rfl; rfl

theorem isByte_toWord (b : Byte) : isByte (Byte.toWord b) := by
  rw [isByte, Byte.toWord_toNat]; exact b.isLt

theorem Byte.toWord_xor (a b : Byte) : Byte.toWord (a ^^^ b) = Byte.toWord a ^^^ Byte.toWord b := by
  apply BitVec.eq_of_toNat_eq
  rw [Byte.toWord_toNat, BitVec.toNat_xor, BitVec.toNat_xor, Byte.toWord_toNat, Byte.toWord_toNat]

/-! The fold. -/

/-- The seed comes out of the fold (R160). -/
theorem foldBytes_seed (x : Byte) (b : List Byte) : foldBytes x b = x ^^^ foldBytes 0 b := by
  unfold foldBytes
  induction b generalizing x with
  | nil => simp
  | cons y b ih => simp only [List.foldl_cons]; rw [ih, ih (0 ^^^ y)]; simp [BitVec.xor_assoc]

/-! Definedness. -/

theorem Memory.bytes_eq_none {m : Memory} {a n : Nat} :
    Memory.bytes m a n = none ↔ ∃ k < n, Table.get m (a + k) = none := by
  rw [← Option.not_isSome_iff_eq_none, Memory.bytes_isSome]; push Not
  simp [Option.isSome_iff_ne_none]

/-- A part of a defined byte string is defined. -/
theorem Memory.bytes_isSome_sub {m : Memory} {a n b k : Nat} (h : (Memory.bytes m a n).isSome = true) (hb : a ≤ b)
    (hk : b + k ≤ a + n) : (Memory.bytes m b k).isSome = true := by
  rw [Memory.bytes_isSome] at h ⊢
  intro j hj
  have := h (b + j - a) (by omega)
  rwa [show a + (b + j - a) = b + j by omega] at this

/-- One more byte. -/
theorem Memory.bytes_snoc {m : Memory} {a n : Nat} {bs : List Byte} {b : Byte} (h : Memory.bytes m a n = some bs)
    (hb : Table.get m (a + n) = some b) : Memory.bytes m a (n + 1) = some (bs ++ [b]) := by
  rw [Memory.bytes_add, h]
  simp [Memory.bytes, hb]

/-! What the records depend on. -/

theorem sameBytes.symm {m m' : Memory} {L : Nat} (h : sameBytes m m' L) : sameBytes m' m L := fun a ha => (h a ha).symm

theorem sameBytes.trans {m m' m'' : Memory} {L : Nat} (h : sameBytes m m' L) (h' : sameBytes m' m'' L) :
    sameBytes m m'' L := fun a ha => (h a ha).trans (h' a ha)

theorem sameBytes.mono {m m' : Memory} {L L' : Nat} (h : sameBytes m m' L) (hL : L' ≤ L) : sameBytes m m' L' :=
  fun a ha => h a (by omega)

theorem sameBytes.bytes {m m' : Memory} {L : Nat} (h : sameBytes m m' L) {a n : Nat} (ha : a + n ≤ L) :
    Memory.bytes m a n = Memory.bytes m' a n := Memory.bytes_congr fun k hk => h (a + k) (by omega)

theorem sameBytes.imageWord {m m' : Memory} {L : Nat} (h : sameBytes m m' L) {a : Nat} (ha : a + 4 ≤ L) :
    imageWord m a = imageWord m' a := by rw [Machine.imageWord, Machine.imageWord, h.bytes ha]

/-- A record depends on the bytes it covers alone (R148). -/
theorem recordAt_congr {m m' : Memory} {L L' c : Nat} {d : SegDesc} (h : recordAt m L c = some d)
    (hs : sameBytes m m' (c + 8)) (hL : c + 8 + d.dataLen.toNat ≤ L') : recordAt m' L' c = some d := by
  obtain ⟨h1, h2, h3, h4⟩ := recordAt_eq_some.1 h
  exact recordAt_eq_some.2 ⟨by rw [← hs.imageWord (by omega)]; exact h1, by rw [← hs.imageWord (by omega)]; exact h2, hL, h4⟩

/-- The records depend on the bytes below their end alone (R148). -/
theorem recordsFrom_congr {m m' : Memory} {L L' n c : Nat} {ds : List SegDesc} (h : recordsFrom m L n c = some ds)
    (hs : sameBytes m m' (c + recordsSize ds)) (hL : c + recordsSize ds ≤ L') : recordsFrom m' L' n c = some ds := by
  induction n generalizing c ds with
  | zero => cases h; rfl
  | succ n ih =>
    obtain ⟨d, ds', h1, h2, rfl⟩ := recordsFrom_succ.1 h
    rw [recordsSize_cons] at hs hL
    exact recordsFrom_succ.2 ⟨d, ds', recordAt_congr h1 (hs.mono (by omega)) (by omega),
      ih h2 (hs.mono (by omega)) (by omega), rfl⟩

/-- Every record's data lies between its header and the walk end (R97). -/
theorem recordsFrom_data {m : Memory} {L n c : Nat} {ds : List SegDesc} (h : recordsFrom m L n c = some ds)
    (hL : L < 2 ^ 32) {d : SegDesc} (hd : d ∈ ds) :
    c + 8 ≤ d.dataOff.toNat ∧ d.dataOff.toNat + d.dataLen.toNat ≤ c + recordsSize ds := by
  induction n generalizing c ds with
  | zero => cases h; cases hd
  | succ n ih =>
    obtain ⟨e, ds', h1, h2, rfl⟩ := recordsFrom_succ.1 h
    have ho := dataOff_toNat h1 hL
    rw [recordsSize_cons]
    rcases List.mem_cons.1 hd with rfl | hd
    · omega
    · have := ih h2 hd; omega

/-- The data depends on the data bytes alone (R161). -/
theorem payload_congr {m m' : Memory} {ds : List SegDesc} {L : Nat} (hs : sameBytes m m' L)
    (hd : ∀ d ∈ ds, d.dataOff.toNat + d.dataLen.toNat ≤ L) : payload m ds = payload m' ds := by
  induction ds with
  | nil => rfl
  | cons d ds ih =>
    have h1 := hd d (by simp)
    simp only [payload, hs.bytes h1, ih fun e he => hd e (by simp [he])]

/-- The data of the records is defined where the image is. -/
theorem payload_isSome {m : Memory} {L n c : Nat} {ds : List SegDesc} (h : recordsFrom m L n c = some ds)
    (hL : L < 2 ^ 32) (hdef : ∀ a, c ≤ a → a < c + recordsSize ds → (Table.get m a).isSome = true) :
    ∃ bs, payload m ds = some bs := by
  induction n generalizing c ds with
  | zero => cases h; exact ⟨[], rfl⟩
  | succ n ih =>
    obtain ⟨d, ds', h1, h2, rfl⟩ := recordsFrom_succ.1 h
    have ho := dataOff_toNat h1 hL
    rw [recordsSize_cons] at hdef
    obtain ⟨bs, hbs⟩ := ih h2 fun a h1 h2 => hdef a (by omega) (by omega)
    have hb : (Memory.bytes m d.dataOff.toNat d.dataLen.toNat).isSome = true :=
      Memory.bytes_isSome.2 fun k hk => hdef _ (by omega) (by omega)
    obtain ⟨b, hb⟩ := Option.isSome_iff_exists.1 hb
    exact ⟨b ++ bs, payload_cons.2 ⟨b, bs, hb, hbs, rfl⟩⟩

theorem RecordFails.congr {m m' : Memory} {L c : Nat} {f : ErrField} {o : Nat} (h : RecordFails m L c f o)
    (hs : sameBytes m m' L) : RecordFails m' L c f o := by
  cases h with
  | loadAddr h => exact .loadAddr h
  | dataLen h4 hd h => exact .dataLen h4 (by rw [← hs.imageWord h4]; exact hd) h
  | data dl h8 hd hl h =>
    exact .data dl h8 (by rw [← hs.imageWord (by omega)]; exact hd) (by rw [← hs.imageWord (by omega)]; exact hl) h

/-- The offset a failing record reports lies in the image when the record starts in it (R141). -/
theorem RecordFails.offset_le {m : Memory} {L c : Nat} {f : ErrField} {o : Nat} (h : RecordFails m L c f o) (hc : c ≤ L) :
    o ≤ L := by
  cases h <;> omega

/-- A record either is one, or fails, or has an undefined header byte within the image (R140). -/
theorem record_cases (m : Memory) (L c : Nat) :
    (∃ d, recordAt m L c = some d) ∨ (∃ f o, RecordFails m L c f o) ∨ ∃ k, c ≤ k ∧ k < L ∧ Table.get m k = none := by
  by_cases h1 : L < c + 4
  · exact .inr (.inl ⟨_, _, .loadAddr h1⟩)
  rcases hla : imageWord m c with _ | la
  · obtain ⟨k, k1, k2, k3⟩ := exists_undefined_of_imageWord hla
    exact .inr (.inr ⟨k, k1, by omega, k3⟩)
  by_cases h2 : L < c + 8
  · exact .inr (.inl ⟨_, _, .dataLen (by omega) (by simp [hla]) h2⟩)
  rcases hdl : imageWord m (c + 4) with _ | dl
  · obtain ⟨k, k1, k2, k3⟩ := exists_undefined_of_imageWord hdl
    exact .inr (.inr ⟨k, by omega, by omega, k3⟩)
  by_cases h3 : L < c + 8 + dl.toNat
  · exact .inr (.inl ⟨_, _, .data dl (by omega) (by simp [hla]) hdl h3⟩)
  · exact .inl ⟨⟨la, dl, BitVec.ofNat 32 (c + 8)⟩, recordAt_eq_some.2 ⟨hla, hdl, by simpa using h3, rfl⟩⟩

theorem walkEnd_le {m : Memory} {L n : Nat} {ds : List SegDesc} (h : recordsFrom m L n 24 = some ds) (hL : 24 ≤ L) :
    walkEnd ds ≤ L := recordsFrom_end_le h hL

/-- The image format depends on the bytes below the walk end alone (R148). -/
theorem Parses.congr {m m' : Memory} {L L' : Nat} {n : Byte} {ds : List SegDesc} (h : Parses m L n ds)
    (hs : sameBytes m m' (walkEnd ds)) (hL : walkEnd ds ≤ L') : Parses m' L' n ds := by
  have : 24 ≤ walkEnd ds := by simp [walkEnd, Config.hdrLen_eq]
  exact ⟨by omega, by rw [← hs 0 (by omega)]; exact h.magic, by rw [← hs 1 (by omega)]; exact h.count,
    recordsFrom_congr h.records hs hL⟩

theorem Parses.payload_congr {m m' : Memory} {L : Nat} {n : Byte} {ds : List SegDesc} (h : Parses m L n ds)
    (hL : L < 2 ^ 32) (hs : sameBytes m m' (walkEnd ds)) : payload m ds = payload m' ds :=
  Machine.payload_congr hs fun _ hd => (recordsFrom_data h.records hL hd).2

/-- Beyond the first `k` records a longer walk finds record `k`, where they end. -/
theorem recordsFrom_next {m : Memory} {L k j c : Nat} {ds ds' : List SegDesc} (hk : recordsFrom m L k c = some ds)
    (hj : recordsFrom m L j c = some ds') (h : k < j) : ∃ d ∈ ds', recordAt m L (c + recordsSize ds) = some d := by
  induction k generalizing j c ds ds' with
  | zero =>
    obtain ⟨j, rfl⟩ : ∃ i, j = i + 1 := ⟨j - 1, by omega⟩
    obtain ⟨e, es, h1, -, rfl⟩ := recordsFrom_succ.1 hj
    cases hk
    exact ⟨e, by simp, by simpa [recordsSize] using h1⟩
  | succ k ih =>
    obtain ⟨j, rfl⟩ : ∃ i, j = i + 1 := ⟨j - 1, by omega⟩
    obtain ⟨d, es, h1, h2, rfl⟩ := recordsFrom_succ.1 hk
    obtain ⟨d', es', h1', h2', rfl⟩ := recordsFrom_succ.1 hj
    rw [h1] at h1'; cases h1'
    obtain ⟨f, hf, hr⟩ := ih h2 h2' (by omega)
    exact ⟨f, List.mem_cons_of_mem _ hf, by rw [recordsSize_cons, ← hr]; congr 1; omega⟩

/-- A defined payload has every record's data defined. -/
theorem payload_data {m : Memory} {ds : List SegDesc} {bs : List Byte} (h : payload m ds = some bs) {d : SegDesc}
    (hd : d ∈ ds) : (Memory.bytes m d.dataOff.toNat d.dataLen.toNat).isSome = true := by
  induction ds generalizing bs with
  | nil => cases hd
  | cons e ds ih =>
    obtain ⟨b, bs', h1, h2, -⟩ := payload_cons.1 h
    rcases List.mem_cons.1 hd with rfl | hd
    · simp [h1]
    · exact ih h2 hd

/-! Parts of a byte string. -/

theorem Memory.bytes_take {m : Memory} {a n k : Nat} {bs : List Byte} (h : Memory.bytes m a n = some bs) (hk : k ≤ n) :
    Memory.bytes m a k = some (bs.take k) := by
  obtain ⟨h1, h2⟩ := Memory.bytes_eq_some.1 h
  refine Memory.bytes_eq_some.2 ⟨by simp; omega, fun j hj => ?_⟩
  rw [h2 j (by omega), List.getElem?_take_of_lt hj]

theorem Memory.bytes_drop {m : Memory} {a n k : Nat} {bs : List Byte} (h : Memory.bytes m a n = some bs) (hk : k ≤ n) :
    Memory.bytes m (a + k) (n - k) = some (bs.drop k) := by
  obtain ⟨h1, h2⟩ := Memory.bytes_eq_some.1 h
  refine Memory.bytes_eq_some.2 ⟨by simp; omega, fun j hj => ?_⟩
  rw [Nat.add_assoc, h2 (k + j) (by omega), List.getElem?_drop]

/-! One data byte replaced (R166, R213). -/

/-- The records from `c` on depend on the bytes from `c` on alone. -/
theorem recordsFrom_congr_from {m m' : Memory} {L n c : Nat} {ds : List SegDesc} (h : recordsFrom m L n c = some ds)
    (hs : ∀ a, c ≤ a → Table.get m a = Table.get m' a) : recordsFrom m' L n c = some ds := by
  induction n generalizing c ds with
  | zero => cases h; rfl
  | succ n ih =>
    obtain ⟨d, ds', h1, h2, rfl⟩ := recordsFrom_succ.1 h
    obtain ⟨r1, r2, r3, r4⟩ := recordAt_eq_some.1 h1
    refine recordsFrom_succ.2 ⟨d, ds', recordAt_eq_some.2 ⟨?_, ?_, r3, r4⟩, ih h2 fun a ha => hs a (by omega), rfl⟩
    · rw [← r1, imageWord, imageWord, Memory.bytes_congr fun k hk => (hs (c + k) (by omega)).symm]
    · rw [← r2, imageWord, imageWord, Memory.bytes_congr fun k hk => (hs (c + 4 + k) (by omega)).symm]

theorem payload_congr_from {m m' : Memory} {L n c : Nat} {ds : List SegDesc} (h : recordsFrom m L n c = some ds)
    (hL : L < 2 ^ 32) (hs : ∀ a, c ≤ a → Table.get m a = Table.get m' a) : payload m' ds = payload m ds := by
  induction n generalizing c ds with
  | zero => cases h; rfl
  | succ n ih =>
    obtain ⟨d, ds', h1, h2, rfl⟩ := recordsFrom_succ.1 h
    have ho := dataOff_toNat h1 hL
    simp only [payload]
    rw [ih h2 fun a ha => hs a (by omega), Memory.bytes_congr fun k hk => (hs (d.dataOff.toNat + k) (by omega)).symm]

/-- A data byte replaced: the records stay, and the data changes in that one byte. -/
theorem recordsFrom_edit {m : Memory} {L n c a : Nat} {ds : List SegDesc} {x y : Byte} {bs : List Byte}
    (h : recordsFrom m L n c = some ds) (hL : L < 2 ^ 32) (hd : isDataByte ds a) (hx : Table.get m a = some x)
    (hb : payload m ds = some bs) :
    recordsFrom (Table.set m a y) L n c = some ds ∧
      ∃ p q, bs = p ++ x :: q ∧ payload (Table.set m a y) ds = some (p ++ y :: q) := by
  induction n generalizing c ds bs with
  | zero => cases h; obtain ⟨d, hd, -⟩ := hd; cases hd
  | succ n ih =>
    obtain ⟨d, ds', h1, h2, rfl⟩ := recordsFrom_succ.1 h
    obtain ⟨r1, r2, r3, r4⟩ := recordAt_eq_some.1 h1
    have ho := dataOff_toNat h1 hL
    obtain ⟨b, bs', b1, b2, rfl⟩ := payload_cons.1 hb
    have hword : ∀ w k, w + 4 ≤ a → imageWord m w = k → imageWord (Table.set m a y) w = k := fun w k hw hk => by
      have : Memory.bytes (Table.set m a y) w 4 = Memory.bytes m w 4 := Memory.bytes_congr fun j hj => by rw [Table.get_set, if_neg (by omega)]
      rw [← hk, imageWord, imageWord, this]
    obtain ⟨e, he, ha1, ha2⟩ := hd
    rcases List.mem_cons.1 he with rfl | he
    · have hrest : ∀ a', c + 8 + e.dataLen.toNat ≤ a' → Table.get m a' = Table.get (Table.set m a y) a' := fun a' h' => by
        rw [Table.get_set, if_neg (by omega)]
      refine ⟨recordsFrom_succ.2 ⟨e, ds', recordAt_eq_some.2 ⟨hword _ _ (by omega) r1, hword _ _ (by omega) r2, r3, r4⟩, recordsFrom_congr_from h2 hrest, rfl⟩, ?_⟩
      obtain ⟨l1, l2⟩ := Memory.bytes_eq_some.1 b1
      have hk : a - e.dataOff.toNat < b.length := by omega
      have hxb : b[a - e.dataOff.toNat] = x := by
        have := l2 (a - e.dataOff.toNat) (by omega)
        rw [show e.dataOff.toNat + (a - e.dataOff.toNat) = a by omega, hx, List.getElem?_eq_getElem hk] at this
        simpa using this.symm
      have hsplit : b = b.take (a - e.dataOff.toNat) ++ x :: b.drop (a - e.dataOff.toNat + 1) := by
        rw [← hxb, ← List.drop_eq_getElem_cons hk, List.take_append_drop]
      refine ⟨b.take (a - e.dataOff.toNat), b.drop (a - e.dataOff.toNat + 1) ++ bs', ?_, payload_cons.2 ⟨b.set (a - e.dataOff.toNat) y, bs', ?_, ?_, ?_⟩⟩
      · conv_lhs => rw [hsplit]
        simp
      · refine Memory.bytes_eq_some.2 ⟨by simpa using l1, fun j hj => ?_⟩
        rw [Table.get_set, List.getElem?_set]
        by_cases hj2 : a = e.dataOff.toNat + j
        · rw [if_pos hj2, if_pos (by omega), if_pos (by omega)]
        · rw [if_neg hj2, if_neg (by omega), l2 j hj]
      · rw [payload_congr_from h2 hL hrest]; exact b2
      · rw [List.set_eq_take_append_cons_drop, if_pos hk]; simp
    · obtain ⟨q1, -⟩ := recordsFrom_data h2 hL he
      obtain ⟨i1, p, q, rfl, i2⟩ := ih h2 ⟨e, he, ha1, ha2⟩ b2
      refine ⟨recordsFrom_succ.2 ⟨d, ds', recordAt_eq_some.2 ⟨hword _ _ (by omega) r1, hword _ _ (by omega) r2, r3, r4⟩, i1, rfl⟩, b ++ p, q, by simp, ?_⟩
      refine payload_cons.2 ⟨b, p ++ y :: q, ?_, i2, by simp⟩
      rw [← b1]
      exact Memory.bytes_congr fun j hj => by rw [Table.get_set, if_neg (by omega)]

/-- One data byte replaced in the fold (R166). -/
theorem checksumOf_edit (p q : List Byte) (x y : Byte) :
    checksumOf (p ++ y :: q) = checksumOf (p ++ x :: q) ^^^ x ^^^ y := by
  simp only [checksumOf, foldBytes_append]
  generalize foldBytes Config.seed p = z
  have : ∀ w : Byte, foldBytes z (w :: q) = z ^^^ w ^^^ foldBytes 0 q := fun w => by
    rw [show foldBytes z (w :: q) = foldBytes (z ^^^ w) q from rfl, foldBytes_seed]
  rw [this, this]
  apply BitVec.eq_of_getLsbD_eq
  intro i hi
  simp only [BitVec.getLsbD_xor]
  cases z.getLsbD i <;> cases x.getLsbD i <;> cases y.getLsbD i <;> cases (foldBytes 0 q).getLsbD i <;> rfl

theorem xor_xor_ne_iff (c x y : Byte) : (c ^^^ x ^^^ y ≠ c ↔ x ≠ y) := by
  constructor
  · rintro h rfl; exact h (by rw [BitVec.xor_assoc, BitVec.xor_self, BitVec.xor_zero])
  · intro h h'
    apply h
    have : c ^^^ (c ^^^ x ^^^ y) = c ^^^ c := by rw [h']
    rw [BitVec.xor_assoc, ← BitVec.xor_assoc, BitVec.xor_self, BitVec.zero_xor] at this
    have h2 : x ^^^ (x ^^^ y) = x ^^^ 0#8 := by rw [this]
    rw [← BitVec.xor_assoc, BitVec.xor_self, BitVec.zero_xor, BitVec.xor_zero] at h2
    exact h2.symm

end Sys2Proof.Machine
end

