-- ==== Sys2Proof/Laws/Commands.lean ====
section
/-! SUPPORT. What the completion of a command can do, said once: the pieces VERIFY and RESEAL share, and for each command the
forward lemma of its success. -/

namespace Sys2Proof.Machine

/-! Pieces (R181, R203, R230). -/

theorem readSlot_some {s : State} {ts : Nat} {b : Byte} (h : Table.get s.target (ts - 1) = some b) :
    readSlot ts s = .ok b { s with csumStored := b.toWord } := by
  simp only [readSlot, memReadByte_some h, Res.andThen_ok]

theorem readSlot_none {s : State} {ts : Nat} (h : Table.get s.target (ts - 1) = none) :
    readSlot ts s = .fault .undefinedRead := by
  simp only [readSlot, memReadByte_none h, Res.andThen_fault]

theorem digestOf_some {s : State} {ts : Nat} {bs : List Byte} (h : Memory.bytes s.target 0 ts = some bs) :
    digestOf ts s = .ok (Config.hash bs) { s with digest := packDigest (Config.hash bs) } := by
  simp only [digestOf, readBytes_some h, Res.andThen_ok]

theorem digestOf_none {s : State} {ts : Nat} (h : Memory.bytes s.target 0 ts = none) :
    digestOf ts s = .fault .undefinedRead := by
  simp only [digestOf, readBytes_none h, Res.andThen_fault]

/-! VERIFY past its length check (R230). -/

/-- The state VERIFY ends in, from the state `s` its walk left. -/
def verified (s : State) (slot : Byte) (d : Vector Byte 32) (trailer : List Byte) : State :=
  { s with
    status := statusOk (writeFlag (writeFlag s.status csumMismatchBit (decide (s.eng.acc ≠ slot))) digestMismatchBit
      (decide (d.toList ≠ trailer)))
    trailerStart := BitVec.ofNat 32 (s.imageLen - 32), csumStored := slot.toWord, digest := packDigest d
    eng := Engine.none }

theorem verifyTrailer_ok {s : State} {slot : Byte} {pre trailer : List Byte}
    (h1 : Table.get s.target (s.imageLen - 32 - 1) = some slot)
    (h2 : Memory.bytes s.target 0 (s.imageLen - 32) = some pre)
    (h3 : Memory.bytes s.target (s.imageLen - 32) 32 = some trailer) :
    verifyTrailer s = .ok () (verified s slot (Config.hash pre) trailer) := by
  simp only [verifyTrailer, trailerOffset, Config.digestLen]
  rw [readSlot_some (s := setTrailerStart (s.imageLen - 32) s) (by simpa using h1)]
  simp only [Res.andThen_ok]
  rw [digestOf_some (bs := pre) (by exact h2)]
  simp only [Res.andThen_ok]
  rw [readBytes_some (bs := trailer) (by exact h3)]
  rfl

/-- VERIFY past its length check succeeds or reads an undefined byte: the slot, the range or the trailer. -/
theorem verifyTrailer_cases (s : State) :
    (∃ slot pre trailer, Table.get s.target (s.imageLen - 32 - 1) = some slot ∧
      Memory.bytes s.target 0 (s.imageLen - 32) = some pre ∧
      Memory.bytes s.target (s.imageLen - 32) 32 = some trailer ∧
      verifyTrailer s = .ok () (verified s slot (Config.hash pre) trailer)) ∨
    ((∃ a, (33 ≤ s.imageLen → a < s.imageLen) ∧ Table.get s.target a = none) ∧
      verifyTrailer s = .fault .undefinedRead) := by
  rcases h1 : Table.get s.target (s.imageLen - 32 - 1) with _ | slot
  · refine .inr ⟨⟨_, fun _ => by omega, h1⟩, ?_⟩
    simp only [verifyTrailer, trailerOffset, Config.digestLen]
    rw [readSlot_none (s := setTrailerStart (s.imageLen - 32) s) (by simpa using h1)]
    rfl
  rcases h2 : Memory.bytes s.target 0 (s.imageLen - 32) with _ | pre
  · obtain ⟨k, hk, hn⟩ := Memory.bytes_eq_none.1 h2
    refine .inr ⟨⟨_, fun _ => by omega, hn⟩, ?_⟩
    simp only [verifyTrailer, trailerOffset, Config.digestLen]
    rw [readSlot_some (s := setTrailerStart (s.imageLen - 32) s) (by simpa using h1)]
    simp only [Res.andThen_ok]
    rw [digestOf_none (by exact h2)]
    rfl
  rcases h3 : Memory.bytes s.target (s.imageLen - 32) 32 with _ | trailer
  · obtain ⟨k, hk, hn⟩ := Memory.bytes_eq_none.1 h3
    refine .inr ⟨⟨_, fun _ => by omega, hn⟩, ?_⟩
    simp only [verifyTrailer, trailerOffset, Config.digestLen]
    rw [readSlot_some (s := setTrailerStart (s.imageLen - 32) s) (by simpa using h1)]
    simp only [Res.andThen_ok]
    rw [digestOf_some (bs := pre) (by exact h2)]
    simp only [Res.andThen_ok]
    rw [readBytes_none (by exact h3)]
    rfl
  · exact .inl ⟨slot, pre, trailer, rfl, rfl, rfl, verifyTrailer_ok h1 h2 h3⟩

/-! RESEAL (R201 to R205). -/

@[simp] theorem selectWorking_imageLen (b : Bool) (s : State) : (selectWorking b s).imageLen = s.imageLen := by
  cases b <;> rfl

/-- The working buffer: IMG itself, or OUT with IMG's cells copied below L (R201). -/
theorem get_working (b : Bool) (s : State) (a : Nat) :
    Table.get (selectWorking b s).target a =
      if b = true ∨ a < s.imageLen then Table.get s.img a else Table.get s.out a := by
  cases b
  · show Table.get (Table.copyBelow s.img s.out s.imageLen) a = _
    simp
  · simp [selectWorking]

theorem working_sameBytes (b : Bool) (s : State) : sameBytes s.img (selectWorking b s).target s.imageLen :=
  fun a ha => by rw [get_working, if_pos (.inr ha)]

/-- The records IMG holds, in the working buffer (R201). -/
theorem working_records {b : Bool} {s : State} {k : Nat} {ds : List SegDesc}
    (h : recordsFrom s.img s.imageLen k 24 = some ds) (hL : 24 ≤ s.imageLen) :
    recordsFrom (selectWorking b s).target s.imageLen k 24 = some ds :=
  recordsFrom_congr h ((working_sameBytes b s).mono (walkEnd_le h hL)) (walkEnd_le h hL)

theorem working_payload {b : Bool} {s : State} {k : Nat} {ds : List SegDesc}
    (h : recordsFrom s.img s.imageLen k 24 = some ds) (hL : 24 ≤ s.imageLen) :
    payload (selectWorking b s).target ds = payload s.img ds :=
  (payload_congr (working_sameBytes b s) fun d hd => by
    have := (recordsFrom_data h s.eng.len.isLt hd).2
    have := walkEnd_le h hL
    simp only [walkEnd, Config.hdrLen_eq] at this
    omega).symm

theorem working_parses {b : Bool} {s : State} {n : Byte} {ds : List SegDesc} (h : Parses s.img s.imageLen n ds) :
    Parses (selectWorking b s).target s.imageLen n ds :=
  have hw := walkEnd_le h.records h.header
  h.congr ((working_sameBytes b s).mono hw) hw

/-- The buffer after RESEAL's two writes: the slot, then the trailer (R203, R204). -/
def resealedBuffer (m : Memory) (L : Nat) (ck : Byte) (d : Vector Byte 32) : Memory :=
  Memory.write (Table.set m (L - 33) ck) (L - 32) d.toList

/-- Every byte of that buffer. -/
theorem get_resealedBuffer (m : Memory) {L : Nat} (hL : 33 ≤ L) (ck : Byte) (d : Vector Byte 32) (a : Nat) :
    Table.get (resealedBuffer m L ck d) a =
      if a = L - 33 then some ck else if L - 32 ≤ a ∧ a < L then d.toList[a - (L - 32)]? else Table.get m a := by
  have hlen : d.toList.length = 32 := by simp
  have e : L - 32 + 32 = L := by omega
  rw [resealedBuffer, Memory.get_write, hlen, e, Table.get_set]
  by_cases h1 : a = L - 33
  · subst h1
    rw [if_neg (by omega), if_pos rfl, if_pos rfl]
  · by_cases h2 : L - 32 ≤ a ∧ a < L
    · rw [if_pos h2, if_neg h1, if_pos h2]
    · rw [if_neg h2, if_neg (fun h => h1 h.symm), if_neg h1, if_neg h2]

/-- The digest input of step 3: the bytes before the slot, then the new checksum (R204, R207). -/
theorem bytes_slot_set {m : Memory} {L : Nat} (hL : 33 ≤ L) {pre : List Byte} (hpre : Memory.bytes m 0 (L - 33) = some pre)
    (ck : Byte) : Memory.bytes (Table.set m (L - 33) ck) 0 (L - 32) = some (pre ++ [ck]) := by
  have e : L - 32 = (L - 33) + 1 := by omega
  rw [e]
  refine Memory.bytes_snoc ?_ (by simp)
  rw [← hpre]
  refine Memory.bytes_congr fun k hk => ?_
  rw [Table.get_set, if_neg (by omega)]

/-- The trailer of that buffer (R204). -/
theorem bytes_trailer {m : Memory} {L : Nat} (hL : 33 ≤ L) (ck : Byte) (d : Vector Byte 32) :
    Memory.bytes (resealedBuffer m L ck d) (L - 32) 32 = some d.toList := by
  refine Memory.bytes_eq_some.2 ⟨by simp, fun k hk => ?_⟩
  rw [get_resealedBuffer m hL, if_neg (by omega), if_pos (by omega), show L - 32 + k - (L - 32) = k by omega]

/-- The digest input it holds (R207). -/
theorem bytes_before {m : Memory} {L : Nat} (hL : 33 ≤ L) {pre : List Byte}
    (hpre : Memory.bytes m 0 (L - 33) = some pre) (ck : Byte) (d : Vector Byte 32) :
    Memory.bytes (resealedBuffer m L ck d) 0 (L - 32) = some (pre ++ [ck]) := by
  rw [← bytes_slot_set hL hpre ck]
  refine Memory.bytes_congr fun k hk => ?_
  rw [get_resealedBuffer m hL, Table.get_set]
  by_cases h : k = L - 33
  · rw [if_pos (by omega), if_pos (by omega)]
  · rw [if_neg (by omega), if_neg (by omega), if_neg (by omega)]

/-- The state a successful RESEAL ends in, from the state `s` its walk left. -/
def resealed (s : State) (old : Byte) (d : Vector Byte 32) : State :=
  { (s.setTarget (resealedBuffer s.target s.imageLen s.eng.acc d)) with
    status := statusOk s.status, fsm := .resealed, trailerStart := BitVec.ofNat 32 (s.imageLen - 32)
    csumStored := old.toWord, digest := packDigest d, eng := Engine.none }

/-- RESEAL's steps 2 to 4 past the walk: `k` the rest of the command (R203 to R205). -/
def resealTail (s : State) : Res Unit :=
  (readSlot (trailerOffset s) (setTrailerStart (trailerOffset s) s)).andThen fun _ u =>
    (resealDigest (trailerOffset s) (enterFsm .checksumRecomputed (memWriteByte (trailerOffset s - 1) u.eng.acc u))).andThen
      fun _ u => finishOk (enterFsm .resealed u)

theorem setTarget_setTarget (s : State) (m m' : Memory) : (s.setTarget m).setTarget m' = s.setTarget m' := by
  cases h : s.eng.target <;> simp [State.setTarget, h]

/-- The state past the slot write (R203). -/
def slotWritten (s : State) (old : Byte) : State :=
  enterFsm .checksumRecomputed (memWriteByte (s.imageLen - 33) s.eng.acc
    { setTrailerStart (s.imageLen - 32) s with csumStored := old.toWord })

@[simp] theorem slotWritten_target (s : State) (old : Byte) :
    (slotWritten s old).target = Table.set s.target (s.imageLen - 33) s.eng.acc := by
  cases h : s.eng.target <;> simp [slotWritten, enterFsm, memWriteByte, setTrailerStart, State.setTarget, State.target, h]

theorem resealTail_slot {s : State} {old : Byte} (hL : 33 ≤ s.imageLen)
    (h1 : Table.get s.target (s.imageLen - 33) = some old) :
    resealTail s = (resealDigest (s.imageLen - 32) (slotWritten s old)).andThen
      fun _ u => finishOk (enterFsm .resealed u) := by
  have e : s.imageLen - 32 - 1 = s.imageLen - 33 := by omega
  simp only [resealTail, trailerOffset, Config.digestLen]
  rw [readSlot_some (b := old) (by rw [e]; exact h1), e]
  rfl

theorem resealTail_ok {s : State} {old : Byte} {pre : List Byte} (hL : 33 ≤ s.imageLen)
    (h1 : Table.get s.target (s.imageLen - 33) = some old)
    (h2 : Memory.bytes s.target 0 (s.imageLen - 33) = some pre) :
    resealTail s = .ok () (resealed s old (Config.hash (pre ++ [s.eng.acc]))) := by
  rw [resealTail_slot hL h1, resealDigest,
    digestOf_some (bs := pre ++ [s.eng.acc]) (by rw [slotWritten_target]; exact bytes_slot_set hL h2 _)]
  simp only [Res.andThen_ok, finishOk]
  congr 1
  cases h : s.eng.target <;>
    simp [slotWritten, resealed, resealedBuffer, discardHidden, enterFsm, writeTrailer, memWriteByte, setTrailerStart,
      State.setTarget, State.target, h]

/-- RESEAL past its length check succeeds or reads an undefined byte of `[0, L - 32)`. -/
theorem resealTail_cases {s : State} (hL : 33 ≤ s.imageLen) :
    (∃ old pre, Table.get s.target (s.imageLen - 33) = some old ∧
      Memory.bytes s.target 0 (s.imageLen - 33) = some pre ∧
      resealTail s = .ok () (resealed s old (Config.hash (pre ++ [s.eng.acc])))) ∨
    ((Table.get s.target (s.imageLen - 33) = none ∨ Memory.bytes s.target 0 (s.imageLen - 33) = none) ∧
      resealTail s = .fault .undefinedRead) := by
  have e : s.imageLen - 32 - 1 = s.imageLen - 33 := by omega
  rcases h1 : Table.get s.target (s.imageLen - 33) with _ | old
  · refine .inr ⟨.inl rfl, ?_⟩
    simp only [resealTail, trailerOffset, Config.digestLen]
    rw [readSlot_none (by rw [e]; exact h1)]
    rfl
  rcases h2 : Memory.bytes s.target 0 (s.imageLen - 33) with _ | pre
  · refine .inr ⟨.inr rfl, ?_⟩
    rw [resealTail_slot hL h1, resealDigest, digestOf_none]
    · rfl
    · obtain ⟨k, hk, hn⟩ := Memory.bytes_eq_none.1 h2
      refine Memory.bytes_eq_none.2 ⟨k, by omega, ?_⟩
      rw [slotWritten_target, Table.get_set, if_neg (by omega)]
      exact hn
  · exact .inl ⟨old, pre, rfl, rfl, resealTail_ok hL h1 h2⟩

/-- RESEAL as header parse, walk, length check and tail. -/
theorem execReseal_eq (b : Bool) (s : State) :
    execReseal b s =
      ((headerParse (selectWorking b s)).andThen fun n s =>
        (walk n true (enterFsm .headerValidated s)).andThen fun _ s =>
          if s.imageLen < 33 then raise .tooShort .trailer 0 0 s else resealTail s).toOutcome := by
  rw [execReseal]
  congr 1
  simp only [resealHeader]
  cases headerParse (selectWorking b s) with
  | raised s => rfl
  | fault f => rfl
  | ok n s =>
    simp only [Res.andThen_ok, resealChecksum]
    cases walk n true (enterFsm .headerValidated s) with
    | raised s => rfl
    | fault f => rfl
    | ok e s =>
      simp only [Res.andThen_ok, Config.minSlotLen]
      by_cases hL : s.imageLen < 33
      · simp only [hL, if_true, raise_eq, Res.andThen_raised]
      · simp only [hL, if_false, resealTail]
        cases readSlot (trailerOffset s) (setTrailerStart (trailerOffset s) s) with
        | raised s => rfl
        | fault f => rfl
        | ok old u => rfl

end Sys2Proof.Machine
end

