-- ==== Sys2Proof/Laws/Decode.lean ====
section
/-! SUPPORT. The laws of the command word: its fields, the decoder by its fields, the bytes of a word (R90 to R92, R61). -/

namespace Sys2Proof

/-- A word is its three fields (R90). -/
theorem word_eq_fields (w : Word) : w = rsvOf w ++ BitVec.ofBool (inplaceOf w) ++ opOf w := by
  apply BitVec.eq_of_getLsbD_eq
  intro k hk
  simp only [rsvOf, inplaceOf, opOf, BitVec.getLsbD_append, BitVec.getLsbD_extractLsb', BitVec.getLsbD_ofBool]
  by_cases h8 : k < 8
  · simp [h8]
  · by_cases h9 : k - 8 < 1
    · have : k = 8 := by omega
      subst this; simp
    · have h1 : k - 8 - 1 < 23 := by omega
      have h2 : 9 + (k - 8 - 1) = k := by omega
      simp [h8, h9, h1, h2]

theorem getLsbD_fields (r : BitVec 23) (b : Bool) (o : Byte) (k : Nat) :
    BitVec.getLsbD (w := 32) (r ++ BitVec.ofBool b ++ o) k =
      if k < 8 then o.getLsbD k else if k = 8 then b else r.getLsbD (k - 9) := by
  refine (BitVec.getLsbD_append (x := r ++ BitVec.ofBool b) (y := o) (i := k)).trans ?_
  by_cases h8 : k < 8
  · simp [h8]
  · rw [if_neg h8, if_neg h8, BitVec.getLsbD_append]
    by_cases h9 : k = 8
    · subst h9; simp
    · have h1 : ¬ k - 8 < 1 := by omega
      have h2 : k - 8 - 1 = k - 9 := by omega
      simp [h1, h2, h9]

theorem opOf_fields (r : BitVec 23) (b : Bool) (o : Byte) : opOf (r ++ BitVec.ofBool b ++ o) = o := by
  apply BitVec.eq_of_getLsbD_eq
  intro k hk
  rw [opOf, BitVec.getLsbD_extractLsb', getLsbD_fields]
  simp [hk]

theorem inplaceOf_fields (r : BitVec 23) (b : Bool) (o : Byte) : inplaceOf (r ++ BitVec.ofBool b ++ o) = b := by
  rw [inplaceOf, getLsbD_fields]; simp

theorem rsvOf_fields (r : BitVec 23) (b : Bool) (o : Byte) : rsvOf (r ++ BitVec.ofBool b ++ o) = r := by
  apply BitVec.eq_of_getLsbD_eq
  intro k hk
  rw [rsvOf, BitVec.getLsbD_extractLsb', getLsbD_fields]
  have h1 : ¬ 9 + k < 8 := by omega
  have h2 : ¬ 9 + k = 8 := by omega
  have h3 : 9 + k - 9 = k := by omega
  simp [h1, h2, h3, hk]

@[simp] theorem opOf_encode (i : Instr) : opOf (encode i) = i.op := opOf_fields _ _ _
@[simp] theorem inplaceOf_encode (i : Instr) : inplaceOf (encode i) = i.inplaceBit := inplaceOf_fields _ _ _
@[simp] theorem rsvOf_encode (i : Instr) : rsvOf (encode i) = 0 := rsvOf_fields _ _ _

/-- The decoder accepts an opcode and an INPLACE bit for exactly the command that has them (R91, R92). -/
theorem decodeOp_eq_ok {op : Byte} {b : Bool} {i : Instr} :
    decodeOp op b = .ok i ↔ op = i.op ∧ b = i.inplaceBit := by
  constructor
  · intro h
    simp only [decodeOp, plainCommand] at h
    repeat' split at h
    all_goals first
      | (cases h; done)
      | (cases h; subst_vars; simp_all [Instr.op, Instr.inplaceBit])
  · rintro ⟨rfl, rfl⟩
    cases i <;> rfl

theorem decodeWord_eq_ok_fields {w : Word} {i : Instr} :
    decodeWord w = .ok i ↔ rsvOf w = 0 ∧ opOf w = i.op ∧ inplaceOf w = i.inplaceBit := by
  simp only [decodeWord]
  split
  · rename_i h; rw [decodeOp_eq_ok]; exact ⟨fun hw => ⟨h, hw⟩, fun hw => hw.2⟩
  · rename_i h; exact ⟨nofun, fun hw => absurd hw.1 h⟩

/-- The bytes of a word make the word. -/
theorem wordOfBytes_bytes (w : Word) :
    wordOfBytes (w.extractLsb' 0 8) (w.extractLsb' 8 8) (w.extractLsb' 16 8) (w.extractLsb' 24 8) = w := by
  apply BitVec.eq_of_getLsbD_eq
  intro k hk
  simp only [wordOfBytes, BitVec.getLsbD_append, BitVec.getLsbD_extractLsb']
  by_cases h1 : k < 8
  · simp [h1]
  · by_cases h2 : k - 8 < 8
    · have : 8 + (k - 8) = k := by omega
      simp [h1, h2, this]
    · by_cases h3 : k - 8 - 8 < 8
      · have : 16 + (k - 8 - 8) = k := by omega
        simp [h1, h2, h3, this]
      · have h4 : k - 8 - 8 - 8 < 8 := by omega
        have : 24 + (k - 8 - 8 - 8) = k := by omega
        simp [h1, h2, h3, h4, this]

/-- The decoder over bytes is the decoder over the word they make (R61). -/
theorem decode_bytesOfWord (w : Word) (rest : List Byte) :
    decode (bytesOfWord w ++ rest) = (decodeWord w).map fun i => (i, rest) := by
  simp only [bytesOfWord, List.cons_append, List.nil_append, decode, wordOfBytes_bytes]

theorem decodeTableWord_eq_some {nbits w : Nat} {i : Instr} :
    decodeTableWord nbits w = some i ↔ decodeWord (tableWord nbits w) = .ok i := by
  have h := decode_bytesOfWord (tableWord nbits w) []
  rw [List.append_nil] at h
  simp only [decodeTableWord, h]
  cases decodeWord (tableWord nbits w) <;> simp [Except.map]

end Sys2Proof
end

