-- ==== Sys2Proof/Laws/HeadWalk.lean ====
section
/-! SUPPORT. The part PARSE, CHECKSUM, VERIFY and RESEAL share, header parse then walk, said once: its five outcomes, and
each command as that part followed by its own end. -/

namespace Sys2Proof.Machine

/-- Header parse, then `st` (RESEAL's FSM transition), then the walk, then the rest `k` of the command. -/
def headWalk (fold : Bool) (st : State → State) (k : State → Res Unit) (s : State) : Res Unit :=
  (headerParse s).andThen fun n s => (walk n fold (st s)).andThen fun _ s => k s

theorem execParse_eq_headWalk (s : State) :
    execParse s = (headWalk false id finishOk (selectTarget .img s)).toOutcome := rfl

theorem execChecksum_eq_headWalk (s : State) :
    execChecksum s = (headWalk true id finishOk (selectTarget .img s)).toOutcome := rfl

/-- The length check of VERIFY and RESEAL (R203, R230, R253), then `k`. -/
def slotCheck (k : State → Res Unit) (s : State) : Res Unit :=
  if s.imageLen < 33 then raise .tooShort .trailer 0 0 s else k s

theorem execVerify_eq_headWalk (s : State) :
    execVerify s = (headWalk true id (slotCheck verifyTrailer) (selectTarget .img s)).toOutcome := rfl

theorem execReseal_eq_headWalk (b : Bool) (s : State) :
    execReseal b s =
      (headWalk true (enterFsm .headerValidated) (slotCheck resealTail) (selectWorking b s)).toOutcome :=
  execReseal_eq b s

/-- The state the walk leaves. -/
def afterWalk (fold : Bool) (st : State → State) (n : Byte) (ds : List SegDesc) (bs : List Byte) (s : State) : State :=
  walked fold (walkStart fold (st (headed n s))) ds bs

/-- `st` changes neither the target buffer nor the length. -/
structure Quiet (st : State → State) : Prop where
  target : ∀ u, (st u).target = u.target
  imageLen : ∀ u, (st u).imageLen = u.imageLen

theorem quiet_id : Quiet id := ⟨fun _ => rfl, fun _ => rfl⟩
theorem quiet_enterFsm (f : Fsm) : Quiet (enterFsm f) := ⟨fun _ => rfl, fun _ => rfl⟩

theorem afterWalk_target {st : State → State} (hq : Quiet st) (fold : Bool) (n : Byte) (ds : List SegDesc) (bs : List Byte)
    (s : State) : (afterWalk fold st n ds bs s).target = s.target := by
  simp only [afterWalk, walked_target, walkStart_target, hq.target]; rfl

theorem afterWalk_imageLen {st : State → State} (hq : Quiet st) (fold : Bool) (n : Byte) (ds : List SegDesc)
    (bs : List Byte) (s : State) : (afterWalk fold st n ds bs s).imageLen = s.imageLen := by
  simp only [afterWalk, walked_imageLen, walkStart_imageLen, hq.imageLen]; rfl

/-- After a folding walk the accumulator is the checksum of the data (R161, R164). -/
theorem afterWalk_acc (st : State → State) (n : Byte) (ds : List SegDesc) (bs : List Byte) (s : State) :
    (afterWalk true st n ds bs s).eng.acc = checksumOf bs := by
  simp [afterWalk, walked, checksumOf]

variable {fold : Bool} {st : State → State} {k : State → Res Unit} {s : State}

theorem headWalk_short (h : s.imageLen < 24) :
    headWalk fold st k s = .raised (errorState .truncated .header 0 0 s) := by
  rw [headWalk, headerParse_short h]; rfl

theorem headWalk_badMagic {m : Byte} (h : 24 ≤ s.imageLen) (hm : Table.get s.target 0 = some m) (hne : m ≠ 0xE9) :
    headWalk fold st k s = .raised (errorState .badMagic .magic 0 0 { s with magic := m.toWord }) := by
  rw [headWalk, headerParse_badMagic h hm hne]; rfl

theorem headWalk_fails (hq : Quiet st) {n : Byte} {j : Nat} {ds : List SegDesc} {bs : List Byte} {f : ErrField} {o : Nat}
    (h : 24 ≤ s.imageLen) (hm : Table.get s.target 0 = some 0xE9) (hn : Table.get s.target 1 = some n) (hj : j < n.toNat)
    (hd : recordsFrom s.target s.imageLen j 24 = some ds) (hb : fold = true → payload s.target ds = some bs)
    (hf : RecordFails s.target s.imageLen (walkEnd ds) f o) :
    headWalk fold st k s = .raised (errorState .truncated f o j (afterWalk fold st n ds bs s)) := by
  have ht : (st (headed n s)).target = s.target := hq.target _
  have hl : (st (headed n s)).imageLen = s.imageLen := hq.imageLen _
  rw [headWalk, headerParse_ok h hm hn, Res.andThen_ok,
    walk_fails hj (by rw [ht, hl]; exact hd) (by rw [ht]; exact hb) (by rw [ht, hl]; exact hf)]
  rfl

theorem headWalk_ok (hq : Quiet st) {n : Byte} {ds : List SegDesc} {bs : List Byte}
    (hp : Parses s.target s.imageLen n ds) (hb : fold = true → payload s.target ds = some bs) :
    headWalk fold st k s = k (afterWalk fold st n ds bs s) := by
  have ht : (st (headed n s)).target = s.target := hq.target _
  have hl : (st (headed n s)).imageLen = s.imageLen := hq.imageLen _
  rw [headWalk, headerParse_ok hp.header hp.magic hp.count, Res.andThen_ok,
    walk_ok (by rw [ht, hl]; exact hp.records) (by rw [ht]; exact hb)]
  rfl

/-- Everything the shared part can do. -/
theorem headWalk_cases (hq : Quiet st) (fold : Bool) (k : State → Res Unit) (s : State) :
    (s.imageLen < 24 ∧ headWalk fold st k s = .raised (errorState .truncated .header 0 0 s)) ∨
    (∃ m : Byte, 24 ≤ s.imageLen ∧ Table.get s.target 0 = some m ∧ m ≠ 0xE9 ∧
      headWalk fold st k s = .raised (errorState .badMagic .magic 0 0 { s with magic := m.toWord })) ∨
    (∃ (n : Byte) (j : Nat) (ds : List SegDesc) (bs : List Byte) (f : ErrField) (o : Nat),
      24 ≤ s.imageLen ∧ Table.get s.target 0 = some 0xE9 ∧ Table.get s.target 1 = some n ∧ j < n.toNat ∧
      recordsFrom s.target s.imageLen j 24 = some ds ∧ (fold = true → payload s.target ds = some bs) ∧
      RecordFails s.target s.imageLen (walkEnd ds) f o ∧
      headWalk fold st k s = .raised (errorState .truncated f o j (afterWalk fold st n ds bs s))) ∨
    (∃ (n : Byte) (ds : List SegDesc) (bs : List Byte), Parses s.target s.imageLen n ds ∧
      (fold = true → payload s.target ds = some bs) ∧
      headWalk fold st k s = k (afterWalk fold st n ds bs s)) ∨
    ((∃ a < s.imageLen, Table.get s.target a = none) ∧ headWalk fold st k s = .fault .undefinedRead) := by
  rcases headerParse_cases s with ⟨h, -⟩ | ⟨m, h, hm, hne, -⟩ | ⟨n, h, hm, hn, hh⟩ | ⟨h, hu, hh⟩
  · exact .inl ⟨h, headWalk_short h⟩
  · exact .inr (.inl ⟨m, h, hm, hne, headWalk_badMagic h hm hne⟩)
  · have ht : (st (headed n s)).target = s.target := hq.target _
    have hl : (st (headed n s)).imageLen = s.imageLen := hq.imageLen _
    rcases walk_cases n.toNat fold (st (headed n s)) with
      ⟨ds, bs, h1, h2, -⟩ | ⟨j, ds, bs, f, o, h0, h1, h2, h3, -⟩ | ⟨⟨a, ha1, ha2, ha3⟩, hw⟩
    · rw [ht, hl] at h1; rw [ht] at h2
      exact .inr (.inr (.inr (.inl ⟨n, ds, bs, ⟨h, hm, hn, h1⟩, h2, headWalk_ok hq ⟨h, hm, hn, h1⟩ h2⟩)))
    · rw [ht, hl] at h1 h3; rw [ht] at h2
      exact .inr (.inr (.inl ⟨n, j, ds, bs, f, o, h, hm, hn, h0, h1, h2, h3, headWalk_fails hq h hm hn h0 h1 h2 h3⟩))
    · rw [hl] at ha2; rw [ht] at ha3
      refine .inr (.inr (.inr (.inr ⟨⟨a, ha2, ha3⟩, ?_⟩)))
      rw [headWalk, hh, Res.andThen_ok, hw]; rfl
  · refine .inr (.inr (.inr (.inr ⟨?_, ?_⟩)))
    · rcases hu with hu | hu
      · exact ⟨0, by omega, hu⟩
      · exact ⟨1, by omega, hu⟩
    · rw [headWalk, hh]; rfl

/-- A record the walk reaches whose header or, when folding, whose data is not all defined (R11, R140, R164). -/
theorem headWalk_undefined (hq : Quiet st) {n : Byte} {j : Nat} {ds : List SegDesc} (h : 24 ≤ s.imageLen)
    (hm : Table.get s.target 0 = some 0xE9) (hn : Table.get s.target 1 = some n) (hj : j < n.toNat)
    (hd : recordsFrom s.target s.imageLen j 24 = some ds)
    (hf : ∀ f o, ¬ RecordFails s.target s.imageLen (walkEnd ds) f o)
    (hr : ∀ d, recordAt s.target s.imageLen (walkEnd ds) = some d →
      fold = true ∧ Memory.bytes s.target d.dataOff.toNat d.dataLen.toNat = none) :
    headWalk fold st k s = .fault .undefinedRead := by
  have past : ∀ {i : Nat} {ds' : List SegDesc} {bs : List Byte}, recordsFrom s.target s.imageLen i 24 = some ds' →
      (fold = true → payload s.target ds' = some bs) → ¬ j < i := by
    intro i ds' bs h1 h2 hlt
    obtain ⟨d, hd', hat⟩ := recordsFrom_next hd h1 hlt
    obtain ⟨hfold, hnone⟩ := hr d hat
    have := payload_data (h2 hfold) hd'
    simp [hnone] at this
  rcases headWalk_cases hq fold k s with
    ⟨h', -⟩ | ⟨m, -, hm', hne, -⟩ | ⟨n', i, ds', bs, f, o, -, -, hn', -, h1, h2, h3, -⟩ | ⟨n', ds', bs, hp, h2, -⟩ | ⟨-, h'⟩
  · omega
  · rw [hm] at hm'; cases hm'; exact absurd rfl hne
  · rcases Nat.lt_trichotomy i j with hlt | rfl | hlt
    · obtain ⟨d, -, hat⟩ := recordsFrom_next h1 hd hlt
      have := h3.recordAt_eq_none
      rw [walkEnd, Config.hdrLen_eq, hat] at this; cases this
    · rw [hd] at h1; cases h1; exact absurd h3 (hf f o)
    · exact absurd hlt (past h1 h2)
  · have := hp.count
    rw [hn] at this; cases this
    exact absurd hj (past hp.records h2)
  · exact h'

/-- Records within the image whose data is not all defined, when folding (R11, R164). -/
theorem headWalk_payload_undefined (hq : Quiet st) {n : Byte} {ds : List SegDesc} (hp : Parses s.target s.imageLen n ds)
    (hb : payload s.target ds = none) : headWalk true st k s = .fault .undefinedRead := by
  rcases headWalk_cases hq true k s with
    ⟨h', -⟩ | ⟨m, -, hm', hne, -⟩ | ⟨n', i, ds', bs, f, o, -, -, hn', hi, h1, -, h3, -⟩ | ⟨n', ds', bs, hp', h2, -⟩ | ⟨-, h'⟩
  · exact absurd hp.header (by omega)
  · rw [hp.magic] at hm'; cases hm'; exact absurd rfl hne
  · rw [hp.count] at hn'; cases hn'
    obtain ⟨d, -, hat⟩ := recordsFrom_next h1 hp.records hi
    have := h3.recordAt_eq_none
    rw [walkEnd, Config.hdrLen_eq, hat] at this; cases this
  · have h1 := hp'.count
    rw [hp.count] at h1; cases h1
    have h1 := hp'.records
    rw [hp.records] at h1; cases h1
    rw [h2 rfl] at hb; cases hb
  · exact h'

end Sys2Proof.Machine
end

