-- ==== Sys2Proof/Laws/Exec.lean ====
section
/-! SUPPORT. Everything the completion of a command can do, said once for all commands: what every command carries over from
the state it starts in, then an error, its own success, or an undefined read. Invariants and frames are derived from this. -/

namespace Sys2Proof.Machine

/-- The state in which a command's rule starts: its target selected, OUT prepared for RESEAL with INPLACE = 0 (R201). -/
def startOf : Instr → State → State
  | .hdrParse, s => selectTarget .img s
  | .parse, s => selectTarget .img s
  | .checksum, s => selectTarget .img s
  | .digest, s => selectTarget .img s
  | .verify, s => selectTarget .img s
  | .reseal b, s => selectWorking b s

/-! The start of a rule leaves every field but OUT and the hidden target as it was. -/

/-- A property of every command's start. -/
theorem startOf_ind {P : State → Prop} {s : State} (h1 : ∀ b, P (selectTarget b s))
    (h2 : P (selectTarget .out { s with out := Table.copyBelow s.img s.out s.imageLen })) (i : Instr) : P (startOf i s) := by
  cases i with
  | reseal b => cases b; exacts [h2, h1 _]
  | _ => exact h1 _

@[simp] theorem startOf_cmd (i : Instr) (s : State) : (startOf i s).cmd = s.cmd :=
  startOf_ind (P := fun u => u.cmd = s.cmd) (fun _ => rfl) rfl i
@[simp] theorem startOf_status (i : Instr) (s : State) : (startOf i s).status = s.status :=
  startOf_ind (P := fun u => u.status = s.status) (fun _ => rfl) rfl i
@[simp] theorem startOf_fsm (i : Instr) (s : State) : (startOf i s).fsm = s.fsm :=
  startOf_ind (P := fun u => u.fsm = s.fsm) (fun _ => rfl) rfl i
@[simp] theorem startOf_len (i : Instr) (s : State) : (startOf i s).len = s.len :=
  startOf_ind (P := fun u => u.len = s.len) (fun _ => rfl) rfl i
@[simp] theorem startOf_errCode (i : Instr) (s : State) : (startOf i s).errCode = s.errCode :=
  startOf_ind (P := fun u => u.errCode = s.errCode) (fun _ => rfl) rfl i
@[simp] theorem startOf_errField (i : Instr) (s : State) : (startOf i s).errField = s.errField :=
  startOf_ind (P := fun u => u.errField = s.errField) (fun _ => rfl) rfl i
@[simp] theorem startOf_errOffset (i : Instr) (s : State) : (startOf i s).errOffset = s.errOffset :=
  startOf_ind (P := fun u => u.errOffset = s.errOffset) (fun _ => rfl) rfl i
@[simp] theorem startOf_errSeg (i : Instr) (s : State) : (startOf i s).errSeg = s.errSeg :=
  startOf_ind (P := fun u => u.errSeg = s.errSeg) (fun _ => rfl) rfl i
@[simp] theorem startOf_magic (i : Instr) (s : State) : (startOf i s).magic = s.magic :=
  startOf_ind (P := fun u => u.magic = s.magic) (fun _ => rfl) rfl i
@[simp] theorem startOf_segCount (i : Instr) (s : State) : (startOf i s).segCount = s.segCount :=
  startOf_ind (P := fun u => u.segCount = s.segCount) (fun _ => rfl) rfl i
@[simp] theorem startOf_segDone (i : Instr) (s : State) : (startOf i s).segDone = s.segDone :=
  startOf_ind (P := fun u => u.segDone = s.segDone) (fun _ => rfl) rfl i
@[simp] theorem startOf_cursor (i : Instr) (s : State) : (startOf i s).cursor = s.cursor :=
  startOf_ind (P := fun u => u.cursor = s.cursor) (fun _ => rfl) rfl i
@[simp] theorem startOf_trailerStart (i : Instr) (s : State) : (startOf i s).trailerStart = s.trailerStart :=
  startOf_ind (P := fun u => u.trailerStart = s.trailerStart) (fun _ => rfl) rfl i
@[simp] theorem startOf_csum (i : Instr) (s : State) : (startOf i s).csum = s.csum :=
  startOf_ind (P := fun u => u.csum = s.csum) (fun _ => rfl) rfl i
@[simp] theorem startOf_csumStored (i : Instr) (s : State) : (startOf i s).csumStored = s.csumStored :=
  startOf_ind (P := fun u => u.csumStored = s.csumStored) (fun _ => rfl) rfl i
@[simp] theorem startOf_cap (i : Instr) (s : State) : (startOf i s).cap = s.cap :=
  startOf_ind (P := fun u => u.cap = s.cap) (fun _ => rfl) rfl i
@[simp] theorem startOf_digest (i : Instr) (s : State) : (startOf i s).digest = s.digest :=
  startOf_ind (P := fun u => u.digest = s.digest) (fun _ => rfl) rfl i
@[simp] theorem startOf_segtab (i : Instr) (s : State) : (startOf i s).segtab = s.segtab :=
  startOf_ind (P := fun u => u.segtab = s.segtab) (fun _ => rfl) rfl i
@[simp] theorem startOf_img (i : Instr) (s : State) : (startOf i s).img = s.img :=
  startOf_ind (P := fun u => u.img = s.img) (fun _ => rfl) rfl i
@[simp] theorem startOf_pending (i : Instr) (s : State) : (startOf i s).pending = s.pending :=
  startOf_ind (P := fun u => u.pending = s.pending) (fun _ => rfl) rfl i
@[simp] theorem startOf_turns (i : Instr) (s : State) : (startOf i s).turns = s.turns :=
  startOf_ind (P := fun u => u.turns = s.turns) (fun _ => rfl) rfl i
@[simp] theorem startOf_reads (i : Instr) (s : State) : (startOf i s).reads = s.reads :=
  startOf_ind (P := fun u => u.reads = s.reads) (fun _ => rfl) rfl i
@[simp] theorem startOf_imageLen (i : Instr) (s : State) : (startOf i s).imageLen = s.imageLen :=
  startOf_ind (P := fun u => u.imageLen = s.imageLen) (fun _ => rfl) rfl i

/-- OUT at a command's start: IMG's cells below L for RESEAL with INPLACE = 0 (R201). -/
theorem get_startOf_out (i : Instr) (s : State) (a : Nat) :
    Table.get (startOf i s).out a =
      if i = .reseal false ∧ a < s.imageLen then Table.get s.img a else Table.get s.out a := by
  cases i with
  | reseal b => cases b <;> simp [startOf, selectWorking]
  | _ => simp [startOf]

theorem startOf_out {i : Instr} (h : i ≠ .reseal false) (s : State) : (startOf i s).out = s.out := by
  cases i with
  | reseal b => cases b; exacts [absurd rfl h, rfl]
  | _ => rfl

theorem startOf_engTarget (i : Instr) (s : State) :
    (startOf i s).eng.target = if i = .reseal false then .out else .img := by
  cases i with
  | reseal b => cases b <;> simp [startOf, selectWorking]
  | _ => simp [startOf]

/-- The SEGTAB and the three walk registers as they were, or as a walk over records that lie within the length leaves them. -/
def Walked (s u : State) : Prop :=
  (u.segtab = s.segtab ∧ u.segDone = s.segDone ∧ u.cursor = s.cursor ∧ u.csum = s.csum) ∨
    ∃ (m : Memory) (L j : Nat) (ds : List SegDesc), 24 ≤ L ∧ L = s.imageLen ∧ j ≤ 255 ∧ recordsFrom m L j 24 = some ds ∧
      u.segtab = writeRecords s.segtab 0 ds ∧ u.segDone = BitVec.ofNat 32 j ∧ u.cursor = BitVec.ofNat 32 (walkEnd ds) ∧
      (u.csum = s.csum ∨ ∃ b : Byte, u.csum = b.toWord)

/-- What a command has left, up to its end or its error, of the state `s` its rule starts in. -/
structure Carried (i : Instr) (s u : State) : Prop where
  cmd : u.cmd = s.cmd
  status : u.status = s.status
  fsm : u.fsm = s.fsm ∨ (i.op = 0x06 ∧ u.fsm = .headerValidated)
  len : u.len = s.len
  errCode : u.errCode = s.errCode
  errField : u.errField = s.errField
  errOffset : u.errOffset = s.errOffset
  errSeg : u.errSeg = s.errSeg
  magic : u.magic = s.magic ∨ ∃ b : Byte, u.magic = b.toWord
  segCount : u.segCount = s.segCount ∨ ∃ b : Byte, u.segCount = b.toWord
  trailerStart : u.trailerStart = s.trailerStart
  csumStored : u.csumStored = s.csumStored
  cap : u.cap = s.cap
  digest : u.digest = s.digest
  walk : Walked s u
  img : u.img = s.img
  out : u.out = s.out
  target : u.target = s.target
  engTarget : u.eng.target = s.eng.target
  imageLen : u.imageLen = s.imageLen
  pending : u.pending = s.pending
  turns : u.turns = s.turns
  reads : u.reads = s.reads

theorem Carried.refl (i : Instr) (s : State) : Carried i s s := by
  constructor <;> first | rfl | exact .inl rfl | exact .inl ⟨rfl, rfl, rfl, rfl⟩

theorem carried_magic (i : Instr) (s : State) (b : Byte) : Carried i s { s with magic := b.toWord } := by
  constructor <;> first | rfl | exact .inl rfl | exact .inl ⟨rfl, rfl, rfl, rfl⟩ | exact .inr ⟨b, rfl⟩

theorem carried_headed (i : Instr) (s : State) (n : Byte) : Carried i s (headed n s) := by
  constructor <;> first | rfl | exact .inl rfl | exact .inl ⟨rfl, rfl, rfl, rfl⟩ | exact .inr ⟨0xE9, rfl⟩ | exact .inr ⟨n, rfl⟩

theorem carried_afterWalk {i : Instr} {st : State → State} (h : st = id ∨ (i.op = 0x06 ∧ st = enterFsm .headerValidated)) (fold : Bool) (n : Byte)
    {j : Nat} {ds : List SegDesc} (bs : List Byte) (s : State) (hL : 24 ≤ s.imageLen) (hj : j ≤ 255)
    (hd : recordsFrom s.target s.imageLen j 24 = some ds) : Carried i s (afterWalk fold st n ds bs s) := by
  have hlen := recordsFrom_length hd
  have hq : Quiet st := by rcases h with rfl | ⟨hi, rfl⟩; exacts [quiet_id, quiet_enterFsm _]
  have ht := afterWalk_target hq fold n ds bs s
  have hl := afterWalk_imageLen hq fold n ds bs s
  have hw : Walked s (afterWalk fold st n ds bs s) := by
    refine .inr ⟨s.target, s.imageLen, j, ds, hL, rfl, hj, hd, ?_, ?_, ?_, ?_⟩
    · rcases h with rfl | ⟨hi, rfl⟩ <;> simp [afterWalk, enterFsm]
    · rcases h with rfl | ⟨hi, rfl⟩ <;> simp [afterWalk, enterFsm, hlen]
    · rcases h with rfl | ⟨hi, rfl⟩ <;> simp [afterWalk, enterFsm, walkEnd, Config.hdrLen_eq]
    · cases fold
      · left; rcases h with rfl | ⟨hi, rfl⟩ <;> simp [afterWalk, enterFsm]
      · right; exact ⟨checksumOf bs, by rcases h with rfl | ⟨hi, rfl⟩ <;> simp [afterWalk, enterFsm, checksumOf]⟩
  constructor <;> first
    | exact hw
    | exact ht
    | exact hl
    | exact (h.elim (fun e => by subst e; exact .inl (by simp [afterWalk]))
        fun e => .inr ⟨e.1, by rw [e.2]; simp [afterWalk, enterFsm]⟩)
    | (refine .inr ⟨0xE9, ?_⟩; rcases h with rfl | ⟨hi, rfl⟩ <;> simp [afterWalk, enterFsm] <;> rfl)
    | (refine .inr ⟨n, ?_⟩; rcases h with rfl | ⟨hi, rfl⟩ <;> simp [afterWalk, enterFsm])
    | (rcases h with rfl | ⟨hi, rfl⟩ <;> simp [afterWalk, enterFsm])

/-- A command's own success, from the state `u` its rule has reached. -/
def Ends : Instr → State → State → Prop
  | .hdrParse, u, t => t = discardHidden { u with status := statusOk u.status }
  | .parse, u, t => t = discardHidden { u with status := statusOk u.status }
  | .checksum, u, t => t = discardHidden { u with status := statusOk u.status }
  | .digest, u, t =>
    ∃ pre, 32 ≤ u.imageLen ∧ Memory.bytes u.target 0 (u.imageLen - 32) = some pre ∧
      t = { u with
        status := statusOk u.status, trailerStart := BitVec.ofNat 32 (u.imageLen - 32)
        digest := packDigest (Config.hash pre), eng := Engine.none }
  | .verify, u, t =>
    ∃ slot pre trailer, 33 ≤ u.imageLen ∧ Table.get u.target (u.imageLen - 33) = some slot ∧
      Memory.bytes u.target 0 (u.imageLen - 32) = some pre ∧
      Memory.bytes u.target (u.imageLen - 32) 32 = some trailer ∧ t = verified u slot (Config.hash pre) trailer
  | .reseal _, u, t =>
    ∃ old pre, 33 ≤ u.imageLen ∧ Table.get u.target (u.imageLen - 33) = some old ∧
      Memory.bytes u.target 0 (u.imageLen - 33) = some pre ∧ u.csum = u.eng.acc.toWord ∧
      t = resealed u old (Config.hash (pre ++ [u.eng.acc]))

/-- The three ways a command completes. -/
def Completes (i : Instr) (s : State) (r : Host.Outcome State Fault Refusal) : Prop :=
  (∃ u e f o g, Carried i s u ∧ r = .next (errorState e f o g u) ∧ o ≤ s.imageLen ∧ g ≤ 254) ∨
    (∃ u t, Carried i s u ∧ r = .next t ∧ Ends i u t) ∨ ((∃ a < s.imageLen, Table.get s.target a = none) ∧ r = .fault .undefinedRead)

theorem count_le (n : Byte) : n.toNat ≤ 255 := by have := n.isLt; omega

/-- The shared part, then an end that itself completes. -/
theorem headWalk_completes {i : Instr} {st : State → State} (h : st = id ∨ (i.op = 0x06 ∧ st = enterFsm .headerValidated)) (fold : Bool)
    {k : State → Res Unit} {s : State}
    (hk : ∀ n ds bs, Parses s.target s.imageLen n ds → (fold = true → payload s.target ds = some bs) →
      Carried i s (afterWalk fold st n ds bs s) → Completes i s (k (afterWalk fold st n ds bs s)).toOutcome) :
    Completes i s (headWalk fold st k s).toOutcome := by
  have hq : Quiet st := by rcases h with rfl | ⟨hi, rfl⟩; exacts [quiet_id, quiet_enterFsm _]
  rcases headWalk_cases hq fold k s with ⟨-, e⟩ | ⟨m, -, -, -, e⟩ | ⟨n, j, ds, bs, f, o, hL, -, -, hj, hd, -, hf, e⟩ |
    ⟨n, ds, bs, hp, hb, e⟩ | ⟨hu, e⟩
  · rw [e]; exact .inl ⟨_, _, _, _, _, .refl _ s, rfl, by omega, by omega⟩
  · rw [e]; exact .inl ⟨_, _, _, _, _, carried_magic _ s m, rfl, by omega, by omega⟩
  · have := n.isLt
    rw [e]
    exact .inl ⟨_, _, _, _, _, carried_afterWalk h fold n bs s hL (by omega) hd, rfl, hf.offset_le (walkEnd_le hd hL), by omega⟩
  · rw [e]; exact hk n ds bs hp hb (carried_afterWalk h fold n bs s hp.header (count_le n) hp.records)
  · rw [e]; exact .inr (.inr ⟨hu, rfl⟩)

/-- The length check, then an end that completes where the slot fits. -/
theorem slotCheck_completes {i : Instr} {k : State → Res Unit} {s u : State} (hc : Carried i s u)
    (hk : 33 ≤ u.imageLen → Completes i s (k u).toOutcome) : Completes i s (slotCheck k u).toOutcome := by
  rw [slotCheck]
  split
  · exact .inl ⟨_, _, _, _, _, hc, rfl, by omega, by omega⟩
  · exact hk (by omega)

/-- Everything a command can do, from the state its rule starts in. -/
theorem exec_completes (i : Instr) (s : State) : Completes i (startOf i s) (exec i s) := by
  cases i with
  | hdrParse =>
    rw [exec, execHdrParse, startOf]
    rcases headerParse_cases (selectTarget .img s) with ⟨-, e⟩ | ⟨m, -, -, -, e⟩ | ⟨n, -, -, -, e⟩ | ⟨hL, hu, e⟩
    · rw [e]; exact .inl ⟨_, _, _, _, _, .refl _ _, rfl, by omega, by omega⟩
    · rw [e]; exact .inl ⟨_, _, _, _, _, carried_magic _ _ m, rfl, by omega, by omega⟩
    · rw [e]; exact .inr (.inl ⟨_, _, carried_headed _ _ n, rfl, rfl⟩)
    · rw [e]; refine .inr (.inr ⟨?_, rfl⟩)
      rcases hu with hu | hu
      exacts [⟨0, by omega, hu⟩, ⟨1, by omega, hu⟩]
  | parse =>
    rw [exec, execParse_eq_headWalk]
    exact headWalk_completes (.inl rfl) _ fun n ds bs _ _ hc => .inr (.inl ⟨_, _, hc, rfl, rfl⟩)
  | checksum =>
    rw [exec, execChecksum_eq_headWalk]
    exact headWalk_completes (.inl rfl) _ fun n ds bs _ _ hc => .inr (.inl ⟨_, _, hc, rfl, rfl⟩)
  | digest =>
    rw [exec, startOf]
    have h32 : Config.minDigestLen = 32 := rfl
    by_cases hL : (selectTarget .img s).imageLen < Config.minDigestLen
    · rw [execDigest, if_pos hL]; exact .inl ⟨_, _, _, _, _, .refl _ _, rfl, by omega, by omega⟩
    · rw [execDigest, if_neg hL]
      rcases hb : Memory.bytes s.img 0 (trailerOffset (selectTarget .img s)) with _ | pre
      · rw [digestOf_none (by exact hb)]
        obtain ⟨a, ha, hn⟩ := Memory.bytes_eq_none.1 hb
        have ha' : a < s.imageLen - 32 := ha
        exact .inr (.inr ⟨⟨a, by simp; omega, by simpa using hn⟩, rfl⟩)
      · rw [digestOf_some (by exact hb)]
        exact .inr (.inl ⟨selectTarget .img s, _, .refl _ _, rfl, pre, by omega, hb, rfl⟩)
  | verify =>
    rw [exec, execVerify_eq_headWalk]
    refine headWalk_completes (.inl rfl) _ fun n ds bs _ _ hc => slotCheck_completes hc fun hL => ?_
    have e : ∀ L, L - 32 - 1 = L - 33 := by omega
    rcases verifyTrailer_cases (afterWalk true id n ds bs (startOf .verify s)) with ⟨slot, pre, trailer, h1, h2, h3, h4⟩ | ⟨⟨a, ha, hn⟩, h4⟩
    · rw [h4]
      rw [e] at h1
      exact .inr (.inl ⟨_, _, hc, rfl, slot, pre, trailer, hL, h1, h2, h3, rfl⟩)
    · rw [h4]
      exact .inr (.inr ⟨⟨a, by rw [← hc.imageLen]; exact ha hL, by rw [← hc.target]; exact hn⟩, rfl⟩)
  | reseal b =>
    rw [exec, execReseal_eq_headWalk]
    refine headWalk_completes (.inr ⟨rfl, rfl⟩) _ fun n ds bs _ _ hc => slotCheck_completes hc fun hL => ?_
    rcases resealTail_cases (s := afterWalk true (enterFsm .headerValidated) n ds bs (startOf (.reseal b) s)) hL with
      ⟨old, pre, h1, h2, h3⟩ | ⟨hu, h3⟩
    · rw [h3]
      exact .inr (.inl ⟨_, _, hc, rfl, old, pre, hL, h1, h2, by simp [afterWalk, walked], rfl⟩)
    · rw [h3]
      refine .inr (.inr ⟨?_, rfl⟩)
      rw [← hc.imageLen, ← hc.target]
      rcases hu with hu | hu
      · exact ⟨_, by omega, hu⟩
      · obtain ⟨a, ha, hn⟩ := Memory.bytes_eq_none.1 hu
        exact ⟨0 + a, by omega, hn⟩

/-- The result buffer of a successful RESEAL (R205). -/
theorem resultBuffer_resealed {b : Bool} {s u : State} (hc : Carried (.reseal b) (startOf (.reseal b) s) u) (old : Byte)
    (d : Vector Byte 32) :
    resultBuffer b (resealed u old d) = resealedBuffer u.target u.imageLen u.eng.acc d := by
  have := startOf_engTarget (.reseal b) s
  cases b <;> simp [resultBuffer, resealed, State.setTarget, hc.engTarget, this]

/-- A command answers a next state or reads an undefined byte below L: it is never refused. -/
theorem exec_cases (i : Instr) (s : State) : (∃ t, exec i s = .next t) ∨ exec i s = .fault .undefinedRead := by
  rcases exec_completes i s with ⟨u, e, f, o, g, -, h, -⟩ | ⟨u, t, -, h, -⟩ | ⟨-, h⟩
  exacts [.inl ⟨_, h⟩, .inl ⟨_, h⟩, .inr h]

end Sys2Proof.Machine
end

