-- ==== Sys2Proof/Laws/PerInstr.lean ====
section
/-! SUPPORT. Statements for every command, one lemma each. -/

namespace Sys2Proof.Laws

/-- The fields of a command's word are the command's own (R90), and the word obeys R92: RSV is 0, OP is one of the six, INPLACE
stands with RESEAL only. -/
def EncodedFields.Statement (i : Instr) : Prop :=
  i.wellFormed = true ∧ opOf (encode i) = i.op ∧ inplaceOf (encode i) = i.inplaceBit ∧ rsvOf (encode i) = 0 ∧
    (1 ≤ i.op.toNat ∧ i.op.toNat ≤ 6) ∧ (i.inplaceBit = true → i.op = 0x06)

theorem EncodedFields.hdrParse : EncodedFields.Statement .hdrParse :=
  ⟨rfl, opOf_encode _, inplaceOf_encode _, rsvOf_encode _, by decide, by decide⟩

theorem EncodedFields.parse : EncodedFields.Statement .parse :=
  ⟨rfl, opOf_encode _, inplaceOf_encode _, rsvOf_encode _, by decide, by decide⟩

theorem EncodedFields.checksum : EncodedFields.Statement .checksum :=
  ⟨rfl, opOf_encode _, inplaceOf_encode _, rsvOf_encode _, by decide, by decide⟩

theorem EncodedFields.digest : EncodedFields.Statement .digest :=
  ⟨rfl, opOf_encode _, inplaceOf_encode _, rsvOf_encode _, by decide, by decide⟩

theorem EncodedFields.verify : EncodedFields.Statement .verify :=
  ⟨rfl, opOf_encode _, inplaceOf_encode _, rsvOf_encode _, by decide, by decide⟩

theorem EncodedFields.reseal (inplace : Bool) : EncodedFields.Statement (.reseal inplace) :=
  ⟨rfl, opOf_encode _, inplaceOf_encode _, rsvOf_encode _, (by decide : 1 ≤ (0x06 : Byte).toNat ∧ (0x06 : Byte).toNat ≤ 6),
    fun _ => rfl⟩

end Sys2Proof.Laws
end

