-- ==== Sys2Proof/Tests/Slice0.lean ====
section
/-! SUPPORT. Own tests: well-formedness smoke, the spec's words, its vectors (spec/95_test_vectors.md) one step each, and for
every obligation with hypotheses a witness that meets them. -/

namespace Sys2Proof.Tests

open Sys2Proof.Machine

/-! Helpers. -/

/-- A buffer holding the bytes from offset `k` on. -/
def mem (k : Nat) : List Byte → Memory
  | [] => []
  | b :: bs => (k, b) :: mem (k + 1) bs

/-- A header with `n` segments (95_test_vectors: `hdr(n)`). -/
def hdr (n : Byte) : List Byte := 0xE9 :: n :: List.replicate 22 0

/-- `hdr(1) ++ Z(4) ++ 02 00 00 00 ++ 01 02`: scenario A, 34 bytes. -/
def imageA : List Byte := hdr 1 ++ [0, 0, 0, 0, 2, 0, 0, 0, 1, 2]

/-- Scenario B, 43 bytes. -/
def imageB : List Byte := hdr 2 ++ [0, 0, 0, 0, 2, 0, 0, 0, 1, 2, 0, 0, 0, 0, 1, 0, 0, 0, 0xFF]

/-- Scenario A with an empty slot and trailer, 67 bytes. -/
def imageA67 : List Byte := imageA ++ List.replicate 33 0

/-- The block as the issue of `i` with LEN = `n` leaves it, IMG holding `bs`, with CAP = 71. -/
def readyLen (i : Instr) (bs : List Byte) (n : Nat) : State :=
  { acceptCommand (encode i) { State.reset with cap := 71, img := mem 0 bs, len := BitVec.ofNat 32 n } with pending := [] }

/-- The same with LEN = the number of bytes. -/
def ready (i : Instr) (bs : List Byte) : State := readyLen i bs bs.length

/-- HOST about to make the access `a`, with CAP = 71 and IMG holding scenario A. -/
def host (a : Access) : State := { State.reset with cap := 71, img := mem 0 imageA, len := 71, pending := [.access a] }

/-- A field of the next state, where there is one. -/
def at? {α : Type} (o : Host.Outcome State Fault Refusal) (f : State → α) : Option α :=
  match o with
  | .next t => some (f t)
  | .fault _ => none
  | .refused _ => none

/-- The error registers and STATUS. -/
def errorOf (t : State) : List Nat :=
  [t.errCode.toNat, t.errField.toNat, t.errOffset.toNat, t.errSeg.toNat, t.status.toNat]

/-! Well-formedness (R104): each check refuses an ill-formed term. -/

theorem test_wf_write_width : (Access.write 3 0 0).wellFormed = false := by decide
theorem test_wf_read_width : (Access.read 8 0).wellFormed = false := by decide
theorem test_wf_write_value : (Access.write 1 0x1000000 0x100).wellFormed = false := by decide
theorem test_wf_write_ok : (Access.write 1 0x1000000 0xFF).wellFormed = true := by decide
theorem test_wf_item : (HostItem.access (.read 0 0)).wellFormed = false := by decide
theorem test_wf_wait : HostItem.wait.wellFormed = true := by decide

/-! Decoding (R91, R92; vectors I-1 to I-6), the bytes written out low byte first. -/

theorem test_decode_hdrParse : decode [0x01, 0x00, 0x00, 0x00] = .ok (.hdrParse, []) := by decide
theorem test_decode_parse : decode [0x02, 0x00, 0x00, 0x00, 0xAA] = .ok (.parse, [0xAA]) := by decide
theorem test_decode_checksum : decode [0x03, 0x00, 0x00, 0x00] = .ok (.checksum, []) := by decide
theorem test_decode_digest : decode [0x04, 0x00, 0x00, 0x00] = .ok (.digest, []) := by decide
theorem test_decode_verify : decode [0x05, 0x00, 0x00, 0x00] = .ok (.verify, []) := by decide
theorem test_decode_reseal : decode [0x06, 0x00, 0x00, 0x00] = .ok (.reseal false, []) := by decide
theorem test_decode_reseal_ip : decode [0x06, 0x01, 0x00, 0x00] = .ok (.reseal true, []) := by decide
theorem test_decode_zero : decodeWord 0x00000000 = .error .illegalOpcode := by decide
theorem test_decode_seven : decodeWord 0x00000007 = .error .illegalOpcode := by decide
theorem test_decode_ff : decodeWord 0x000000FF = .error .illegalOpcode := by decide
theorem test_decode_inplace_checksum : decodeWord 0x00000103 = .error .inplaceWithoutReseal := by decide
theorem test_decode_bit9 : decodeWord 0x00000206 = .error .reservedBits := by decide
theorem test_decode_bit31 : decodeWord 0x80000001 = .error .reservedBits := by decide
theorem test_decode_incomplete : decode [0x01, 0x00, 0x00] = .error .incomplete := by decide
theorem test_table_word : decodeTableWord 32 0x106 = some (.reseal true) := by decide
theorem test_table_word_short : decodeTableWord 8 0x06 = some (.reseal false) := by decide

/-! Issue (vectors I-1, I-7, I-8, I-9). -/

theorem test_issue_illegal :
    at? (step (host (.write 4 0 0))) (fun t => (errorOf t, t.cmd)) = some ([0x80, 7, 0, 0, 0x06], 0) := by decide
theorem test_issue_legal_at_cap : at? (step (host (.write 4 0 3))) (fun t => t.status) = some 0x01 := by decide
theorem test_issue_badLength :
    at? (step { host (.write 4 0 3) with len := 72 }) errorOf = some [0x81, 8, 0, 0, 0x06] := by decide
theorem test_issue_illegal_before_badLength :
    at? (step { host (.write 4 0 0) with len := 72 }) errorOf = some [0x80, 7, 0, 0, 0x06] := by decide

/-! HDR_PARSE (vectors H-3, H-7). -/

theorem test_hdrParse_badMagic :
    at? (exec .hdrParse (ready .hdrParse (0xE8 :: 1 :: List.replicate 22 0)))
      (fun t => (errorOf t, t.magic.toNat, t.segCount.toNat)) = some ([1, 1, 0, 0, 0x06], 0xE8, 0) := by decide
theorem test_hdrParse_two_bytes :
    at? (exec .hdrParse (readyLen .hdrParse [0xE9, 1] 24)) (fun t => (t.status.toNat, t.segCount.toNat)) =
      some (0x0A, 1) := by decide

/-! PARSE (vectors W-7, W-12). -/

theorem test_parse_exact_sum :
    at? (exec .parse (ready .parse (hdr 1 ++ [0, 0, 0, 0, 0xFF, 0xFF, 0xFF, 0xFF] ++ List.replicate 8 0))) errorOf =
      some [2, 5, 32, 0, 0x06] := by decide
theorem test_parse_two :
    at? (exec .parse (ready .parse (hdr 2 ++ [1, 0, 0, 0, 0, 0, 0, 0, 2, 0, 0, 0, 0, 0, 0, 0])))
      (fun t => (t.segtab, t.cursor.toNat, t.segDone.toNat)) = some ([(0, ⟨1, 0, 32⟩), (1, ⟨2, 0, 40⟩)], 40, 2) := by decide

/-! CHECKSUM (scenario B; vector W-9, the partial fold). -/

theorem test_checksum_B : at? (exec .checksum (ready .checksum imageB)) (fun t => (t.csum.toNat, t.status.toNat)) =
    some (0x13, 0x0A) := by decide
theorem test_checksum_cut :
    at? (exec .checksum (readyLen .checksum imageB 42)) (fun t => (errorOf t, t.csum.toNat, t.cursor.toNat)) =
      some ([2, 5, 42, 1, 0x06], 0xEC, 34) := by decide

/-! DIGEST (vectors G-1, G-3). -/

theorem test_digest_short : at? (exec .digest (readyLen .digest [] 31)) errorOf = some [3, 6, 0, 0, 0x06] := by decide
theorem test_digest_AB :
    at? (exec .digest (readyLen .digest [0xAB] 33)) (fun t => t.digest) = some (packDigest (Config.hash [0xAB])) := rfl

/-! VERIFY (vectors V-2, V-6). -/

theorem test_verify_unsealed :
    at? (exec .verify (ready .verify imageA67)) (fun t => (t.csum.toNat, t.csumStored.toNat, t.trailerStart.toNat)) =
      some (0xEC, 0, 35) := by decide
theorem test_verify_short :
    at? (exec .verify (ready .verify (hdr 0 ++ List.replicate 8 0))) (fun t => (errorOf t, t.cursor.toNat, t.csum.toNat)) =
      some ([3, 6, 0, 0, 0x06], 24, 0xEF) := by decide

/-! RESEAL (vectors R-1, R-3). -/

theorem test_reseal_A :
    at? (exec (.reseal false) (ready (.reseal false) imageA67)) (fun t => (t.status.toNat, t.fsm, t.csum.toNat)) =
      some (0x0A, .resealed, 0xEC) := by decide
theorem test_reseal_short :
    at? (exec (.reseal false) (ready (.reseal false) (hdr 0 ++ List.replicate 6 0)))
      (fun t => (errorOf t, t.fsm, t.out == t.img)) = some ([3, 6, 0, 0, 0x06], .rejected, true) := by decide

/-! Witnesses: for each obligation with hypotheses, a state and operands that meet all of them. -/

/-- A record table for scenario A. -/
def recordsA : List SegDesc := [⟨0, 2, 32⟩]

theorem witness_parses : Parses (mem 0 imageA67) 67 1 recordsA := ⟨by decide, by decide, by decide, by decide⟩

theorem witness_DecodeInvertsEncode : (Instr.reseal true).wellFormed = true := rfl

theorem witness_LegalWords : (host (.write 4 cmdAddr 0x0)).busy = false ∧
    hostMakes (host (.write 4 cmdAddr 0x0)) (.write 4 cmdAddr 0x0) [] ∧
    hostMakes (host (.write 4 cmdAddr 0x7)) (.write 4 cmdAddr 0x7) [] ∧
    hostMakes (host (.write 4 cmdAddr 0x105)) (.write 4 cmdAddr 0x105) [] ∧
    hostMakes (host (.write 4 cmdAddr 0x206)) (.write 4 cmdAddr 0x206) [] := by
  refine ⟨by decide, ?_, ?_, ?_, ?_⟩ <;> exact ⟨rfl, rfl⟩

theorem witness_StepPerformsLatchedCommand :
    nextTurn (ready .checksum imageA) = .engine ∧ (ready .checksum imageA).busy = true ∧
      latchedInstr (ready .checksum imageA) = some .checksum := by decide

theorem witness_HandedWordRunsNext : decodeTableWord 32 0x06 = some (.reseal false) := by decide

theorem witness_IssueOfAWord :
    hostMakes { ready .parse imageA with turns := [.host], pending := [.access (.write 4 cmdAddr 1)] } (.write 4 cmdAddr 1) [] ∧
      hostMakes (host (.write 4 cmdAddr 0x106)) (.write 4 cmdAddr 0x106) [] ∧
      (host (.write 4 cmdAddr 0x106)).len.toNat = (host (.write 4 cmdAddr 0x106)).cap.toNat ∧
      hostMakes { host (.write 4 cmdAddr 6) with len := 72 } (.write 4 cmdAddr 6) [] ∧
      hostMakes (host (.write 4 cmdAddr 0x7)) (.write 4 cmdAddr 0x7) [] := by
  refine ⟨⟨rfl, rfl⟩, ⟨rfl, rfl⟩, rfl, ⟨rfl, rfl⟩, ⟨rfl, rfl⟩⟩

theorem witness_EngineIdleChangesNothing :
    nextTurn { State.reset with turns := [.engine] } = .engine ∧ State.busy { State.reset with turns := [.engine] } = false :=
  ⟨rfl, rfl⟩

theorem witness_ResetAtAnyMoment : nextTurn { ready .checksum imageA with turns := [.reset] } = .reset := rfl

/-- A busy state is sound. -/
theorem inv_ready : Inv (ready .checksum imageA) where
  mem := ⟨by decide, by decide, by decide, by decide, by decide, by decide⟩
  regs := ⟨by decide, by decide, by decide, by decide, by decide, by decide, by decide, by decide, by decide, by decide,
    by decide, by decide, by decide⟩
  status := .inr (.inl rfl)
  idle h := absurd h (by decide)
  busy _ := ⟨.checksum, by decide, by decide, by decide, by decide, by decide, by decide, by decide⟩

/-- The same with `turns` and `pending` of HOST's. -/
theorem inv_host (ts : List Turn) (ps : List HostItem) : Inv { ready .checksum imageA with turns := ts, pending := ps } :=
  have h := inv_ready
  { mem := ⟨h.mem.1, h.mem.2, h.mem.3, h.mem.4, h.mem.5, h.mem.6⟩
    regs := ⟨h.regs.1, h.regs.2, h.regs.3, h.regs.4, h.regs.5, h.regs.6, h.regs.7, h.regs.8, h.regs.9, h.regs.10,
      h.regs.11, h.regs.12, h.regs.13⟩
    status := h.status
    idle := fun hb => have hi := h.idle hb; ⟨hi.1, hi.2⟩
    busy := fun hb => have ⟨i, hi⟩ := h.busy hb; ⟨i, hi.1, hi.2, hi.3, hi.4, hi.5, hi.6, hi.7⟩ }

/-- A state that polls: WAIT, then a read of STATUS. -/
def polling : State :=
  { ready .checksum imageA with turns := [.host, .host], pending := [.wait, .access (.read 4 statusAddr)] }

theorem witness_IssuedCommandCompletes :
    Inv polling ∧ polling.busy = true ∧ polling.turns = List.replicate 2 .host ∧
      ∀ x ∈ polling.pending, x = .wait ∨ x = .access (.read 4 statusAddr) :=
  ⟨inv_host _ _, by decide, rfl, by decide⟩

/-- While BUSY = 1, and with no command in progress. -/
theorem witness_WaitPollsStatus :
    nextTurn polling = .host ∧ polling.pending = .wait :: [.access (.read 4 statusAddr)] ∧ polling.busy = true ∧
      nextTurn { State.reset with pending := [.wait] } = .host ∧ State.busy { State.reset with pending := [.wait] } = false :=
  ⟨rfl, rfl, by decide, rfl, rfl⟩

/-- HOST's turn while BUSY = 1. -/
def hazard (a : Access) : State := { ready .checksum imageA with turns := [.host], pending := [.access a] }

theorem witness_BusyAllowsOnlyStatusReads :
    (hazard (.read 4 0x4)).busy = true ∧ hostMakes (hazard (.read 4 0x4)) (.read 4 0x4) [] ∧
      hostMakes (hazard (.read 4 0x8)) (.read 4 0x8) [] ∧ (Access.read 4 0x8) ≠ .read 4 0x4 ∧
      hostMakes (hazard (.read 2 0x1000045)) (.read 2 0x1000045) [] ∧ ¬ shapeAllowed 2 0x1000045 ∧
      Inv (hazard (.read 4 0x4)) :=
  ⟨by decide, ⟨rfl, rfl⟩, ⟨rfl, rfl⟩, by decide, ⟨rfl, rfl⟩, by unfold shapeAllowed; decide, inv_host _ _⟩

/-- One access that meets two rows of R267's table, or three: the model's order (log 7). -/
theorem test_fault_order :
    step (hazard (.read 2 0x1000045)) = .fault .hostHazard ∧ step (host (.read 2 0x1000045)) = .fault .busFault ∧
      step (host (.read 1 0x1000045)) = .fault .undefinedRead := ⟨rfl, rfl, rfl⟩

theorem witness_BusFaultExactlyOnBadShape :
    (host (.read 2 0x4)).busy = false ∧ hostMakes (host (.read 2 0x4)) (.read 2 0x4) [] ∧ ¬ shapeAllowed 2 0x4 ∧
      hostMakes (host (.read 2 0x1000002)) (.read 2 0x1000002) [] ∧ shapeAllowed 2 0x1000002 :=
  ⟨by decide, ⟨rfl, rfl⟩, by unfold shapeAllowed; decide, ⟨rfl, rfl⟩, by unfold shapeAllowed; decide⟩

theorem witness_UnmappedReadZeroWriteIgnored :
    (host (.read 4 0x1000044)).busy = false ∧ shapeAllowed 4 0x1000044 ∧
      hostMakes (host (.read 4 0x1000044)) (.read 4 0x1000044) [] ∧
      readsAsZero (host (.read 4 0x1000044)).cap.toNat (0x1000044 + 3) ∧
      shapeAllowed 1 0x1000047 ∧ hostMakes (host (.read 1 0x1000047)) (.read 1 0x1000047) [] ∧
      (∀ k < 1, readsAsZero (host (.read 1 0x1000047)).cap.toNat (0x1000047 + k)) ∧
      shapeAllowed 4 0x100 ∧ hostMakes (host (.write 4 0x100 1)) (.write 4 0x100 1) [] ∧
      ∀ k < 4, readsAsZero (host (.write 4 0x100 1)).cap.toNat (0x100 + k) :=
  ⟨by decide, by unfold shapeAllowed; decide, ⟨rfl, rfl⟩, by unfold readsAsZero unmappedByte; decide,
    by unfold shapeAllowed; decide, ⟨rfl, rfl⟩, by unfold readsAsZero unmappedByte; decide, by unfold shapeAllowed; decide,
    ⟨rfl, rfl⟩, by unfold readsAsZero unmappedByte; decide⟩

/-- The mapped bytes 68 to 70 and the unmapped byte 71 in one read. -/
theorem test_unmapped_tail :
    at? (step { host (.read 4 0x1000044) with img := mem 68 [1, 2, 3] }) (fun t => t.reads) = some [0x00030201] := by decide

theorem witness_HostWrites :
    (host (.write 4 0xFC 1)).busy = false ∧ shapeAllowed 4 0xFC ∧ hostMakes (host (.write 4 0xFC 1)) (.write 4 0xFC 1) [] ∧
      shapeAllowed 4 0x1FFC ∧ hostMakes (host (.write 4 0x1FFC 1)) (.write 4 0x1FFC 1) [] ∧
      shapeAllowed 1 0x2FFFFFF ∧ hostMakes (host (.write 1 0x2FFFFFF 1)) (.write 1 0x2FFFFFF 1) [] ∧
      shapeAllowed 4 0xC ∧ hostMakes (host (.write 4 0xC 1)) (.write 4 0xC 1) [] ∧
      shapeAllowed 4 0x0 ∧ hostMakes (host (.write 4 0x0 1)) (.write 4 0x0 1) [] ∧
      shapeAllowed 4 0x1000044 ∧ hostMakes (host (.write 4 0x1000044 1)) (.write 4 0x1000044 1) [] :=
  ⟨by decide, by unfold shapeAllowed; decide, ⟨rfl, rfl⟩, by unfold shapeAllowed; decide, ⟨rfl, rfl⟩,
    by unfold shapeAllowed; decide, ⟨rfl, rfl⟩, by unfold shapeAllowed; decide, ⟨rfl, rfl⟩,
    by unfold shapeAllowed; decide, ⟨rfl, rfl⟩, by unfold shapeAllowed; decide, ⟨rfl, rfl⟩⟩

/-- A read of mapped bytes, one across CAP = 71 with its mapped bytes defined, and one across it with byte 70 undefined. -/
theorem witness_WindowReads :
    let s := host (.read 2 0x1000020)
    let u := { host (.read 4 0x1000044) with img := mem 68 [1, 2, 3] }
    let v := { host (.read 4 0x2000044) with out := mem 68 [1, 2] }
    (s.busy = false ∧ shapeAllowed 2 0x1000020 ∧ hostMakes s (.read 2 0x1000020) [] ∧
      ∀ k < 2, [(1 : Byte), 2][k]? = if 32 + k < s.cap.toNat then Table.get s.img (32 + k) else some 0) ∧
    (u.busy = false ∧ shapeAllowed 4 0x1000044 ∧ hostMakes u (.read 4 0x1000044) [] ∧
      ∀ k < 4, [(1 : Byte), 2, 3, 0][k]? = if 68 + k < u.cap.toNat then Table.get u.img (68 + k) else some 0) ∧
    (v.busy = false ∧ shapeAllowed 4 0x2000044 ∧ hostMakes v (.read 4 0x2000044) [] ∧ 68 + 2 < v.cap.toNat ∧
      Table.get v.out (68 + 2) = none) :=
  ⟨⟨by decide, by unfold shapeAllowed; decide, ⟨rfl, rfl⟩, by decide⟩,
    ⟨by decide, by unfold shapeAllowed; decide, ⟨rfl, rfl⟩, by decide⟩,
    ⟨by decide, by unfold shapeAllowed; decide, ⟨rfl, rfl⟩, by decide, by decide⟩⟩

theorem witness_ReadsHaveNoSideEffect :
    hostMakes (host (.read 4 0x3C)) (.read 4 0x3C) [] ∧
      at? (step (host (.read 4 0x3C))) (fun t => t.reads) = some [71] := by
  unfold hostMakes
  decide

theorem witness_RegisterMap :
    (host (.read 4 0x0)).busy = false ∧ (0x0 : Addr).toNat = 4 * 0 ∧ hostMakes (host (.read 4 0x0)) (.read 4 0x0) [] ∧
      (0x5C : Addr).toNat = 4 * 23 ∧ hostMakes (host (.read 4 0x5C)) (.read 4 0x5C) [] ∧
      (0xFC : Addr).toNat = 4 * 63 ∧ hostMakes (host (.read 4 0xFC)) (.read 4 0xFC) [] := by
  unfold hostMakes
  decide

/-- HOST about to read a SEGTAB word, entries 0 and 254 defined. -/
def hostSeg (addr : Addr) : State := { host (.read 4 addr) with segtab := [(0, ⟨0, 2, 32⟩), (254, ⟨7, 8, 9⟩)] }

theorem witness_SegtabReads :
    (hostSeg 0x1FE8).busy = false ∧
      (0x1FE8 : Addr).toNat = 0x1000 + 16 * 254 + 4 * 2 ∧ hostMakes (hostSeg 0x1FE8) (.read 4 0x1FE8) [] ∧
      Table.get (hostSeg 0x1FE8).segtab 254 = some ⟨7, 8, 9⟩ ∧
      (0x100C : Addr).toNat = 0x1000 + 16 * 0 + 4 * 3 ∧ hostMakes (hostSeg 0x100C) (.read 4 0x100C) [] ∧
      (0x1FF0 : Addr).toNat = 0x1000 + 16 * 255 + 4 * 0 ∧ hostMakes (hostSeg 0x1FF0) (.read 4 0x1FF0) [] ∧
      (0x1010 : Addr).toNat = 0x1000 + 16 * 1 + 4 * 0 ∧ hostMakes (hostSeg 0x1010) (.read 4 0x1010) [] ∧
      Table.get (hostSeg 0x1010).segtab 1 = none := by
  unfold hostMakes
  decide

theorem witness_HeaderParseOutcome :
    (readyLen .hdrParse imageA 23).imageLen < 24 ∧ 24 ≤ (readyLen .hdrParse imageA 24).imageLen ∧
      Table.get (readyLen .hdrParse [] 24).target 0 = none ∧ Table.get (readyLen .hdrParse [0xE8] 24).target 0 = some 0xE8 ∧
      Table.get (readyLen .hdrParse [0xE9] 24).target 0 = some 0xE9 ∧
      Table.get (readyLen .hdrParse [0xE9] 24).target 1 = none ∧
      Table.get (readyLen .hdrParse [0xE9, 0xFF] 24).target 1 = some 0xFF := by decide

theorem witness_HdrParse :
    started .hdrParse (readyLen .hdrParse [0xE9, 0xFF] 24) ∧ 24 ≤ (readyLen .hdrParse [0xE9, 0xFF] 24).imageLen ∧
      Table.get (readyLen .hdrParse [0xE9, 0xFF] 24).img 0 = some 0xE9 ∧
      Table.get (readyLen .hdrParse [0xE9, 0xFF] 24).img 1 = some 0xFF ∧
      started .hdrParse (readyLen .hdrParse [0xE8] 23) ∧ (readyLen .hdrParse [0xE8] 23).imageLen < 24 := by
  unfold started
  decide

theorem witness_ShortImageIsTruncated :
    (Instr.reseal false) ≠ .digest ∧ started (.reseal false) (readyLen (.reseal false) imageA 23) ∧
      (readyLen (.reseal false) imageA 23).imageLen < 24 := by
  unfold started
  decide

theorem witness_BadMagicIsReported :
    (Instr.reseal false) ≠ .digest ∧ started (.reseal false) (readyLen (.reseal false) [0xE8] 24) ∧
      24 ≤ (readyLen (.reseal false) [0xE8] 24).imageLen ∧ Table.get (readyLen (.reseal false) [0xE8] 24).img 0 = some 0xE8 ∧
      (0xE8 : Byte) ≠ 0xE9 ∧ (readyLen .digest [0xE8] 32).errCode = 0 ∧
      (at? (exec .digest (readyLen .digest [0xE8] 32)) fun t => t.errCode.toNat) = some 0 := by
  unfold started
  decide

theorem witness_HeaderOutcomeDependsOnTwoBytes :
    let s := ready .hdrParse imageA
    let s' := readyLen .hdrParse [0xE9, 0x01] 34
    started .hdrParse s ∧ started .hdrParse s' ∧ s.imageLen = s'.imageLen ∧ Table.get s.img 0 = Table.get s'.img 0 ∧
      Table.get s.img 1 = Table.get s'.img 1 ∧ s.errCode = s'.errCode ∧ s.magic = s'.magic ∧ s.segCount = s'.segCount ∧
      (at? (exec .hdrParse s) fun t => t.segCount.toNat) = some 1 := by
  unfold started
  decide

theorem witness_ParseSucceeds :
    started .parse (ready .parse imageA) ∧ Parses (ready .parse imageA).img (ready .parse imageA).imageLen 1 recordsA :=
  ⟨by unfold started; decide, by decide, by decide, by decide, by decide⟩

theorem witness_ChecksumSucceeds :
    started .checksum (ready .checksum imageA) ∧
      Parses (ready .checksum imageA).img (ready .checksum imageA).imageLen 1 recordsA ∧
      payload (ready .checksum imageA).img recordsA = some [1, 2] :=
  ⟨by unfold started; decide, ⟨by decide, by decide, by decide, by decide⟩, by decide⟩

/-- Vector W-9: record 1 is the first that fails. -/
theorem witness_WalkStopsAtFirstBadRecord :
    let s := readyLen (.reseal false) imageB 42
    walks (.reseal false) ∧ started (.reseal false) s ∧ 24 ≤ s.imageLen ∧ Table.get s.img 0 = some 0xE9 ∧
      Table.get s.img 1 = some 2 ∧ 1 < (2 : Byte).toNat ∧ recordsFrom s.img s.imageLen 1 24 = some recordsA ∧
      payload s.img recordsA = some [1, 2] ∧ RecordFails s.img s.imageLen (walkEnd recordsA) .segData 42 := by
  refine ⟨by unfold walks; decide, by unfold started; decide, by decide, by decide, by decide, by decide, by decide, by decide,
    ?_⟩
  exact RecordFails.data 1 (by decide) (by decide) (by decide) (by decide)

/-- The other two ways a record fails, at their boundaries (vectors W-3, W-5). -/
theorem witness_RecordFails :
    RecordFails (mem 0 (hdr 1 ++ [0, 0, 0])) 27 24 .segLoadAddr 24 ∧
      RecordFails (mem 0 (hdr 1 ++ List.replicate 7 0)) 31 24 .segDataLen 28 :=
  ⟨.loadAddr (by decide), .dataLen (by decide) (by decide) (by decide)⟩

theorem witness_TruncationLaw :
    let s := readyLen .verify imageA67 34
    walks .verify ∧ started .verify s ∧ 67 < 2 ^ 32 ∧ s.imageLen ≤ 67 ∧ Parses s.img 67 1 recordsA ∧
      (Memory.bytes s.img 0 67).isSome = true ∧ s.errCode = 0 ∧ walkEnd recordsA ≤ s.imageLen ∧
      (readyLen .verify imageA67 33).imageLen < walkEnd recordsA ∧ (readyLen .verify imageA67 23).imageLen < 24 :=
  ⟨by unfold walks; decide, by unfold started; decide, by decide, by decide, witness_parses, by decide, by decide, by decide,
    by decide, by decide⟩

theorem witness_FoldIsOrderIndependent : ([[1, 2], [0xFF]] : List (List Byte)).Perm [[0xFF], [1, 2]] := List.Perm.swap _ _ _

theorem witness_ChecksumLaws :
    let s := ready .checksum imageA
    let s' := ready .checksum (hdr 1 ++ [0, 0, 0, 0, 2, 0, 0, 0, 2, 1])
    started .checksum s ∧ started .checksum s' ∧ Parses s.img s.imageLen 1 recordsA ∧ Parses s'.img s'.imageLen 1 recordsA ∧
      payload s.img recordsA = some [1, 2] ∧ payload s'.img recordsA = some [2, 1] ∧ [(1 : Byte), 2].Perm [2, 1] :=
  ⟨by unfold started; decide, by unfold started; decide, ⟨by decide, by decide, by decide, by decide⟩,
    ⟨by decide, by decide, by decide, by decide⟩, by decide, by decide, List.Perm.swap _ _ _⟩

/-- Law (1): no records. Law (2): one byte replaced. -/
theorem witness_ChecksumLaws_more :
    Parses (mem 0 (hdr 0)) 24 0 [] ∧ payload (mem 0 (hdr 0)) [] = some [] ∧
      ([1, 2] : List Byte) = [1] ++ 2 :: [] ∧ ([1, 7] : List Byte) = [1] ++ 7 :: [] ∧
      Parses (mem 0 (hdr 1 ++ [0, 0, 0, 0, 2, 0, 0, 0, 1, 7])) 34 1 recordsA ∧
      payload (mem 0 (hdr 1 ++ [0, 0, 0, 0, 2, 0, 0, 0, 1, 7])) recordsA = some [1, 7] :=
  ⟨⟨by decide, by decide, by decide, by decide⟩, rfl, rfl, rfl, ⟨by decide, by decide, by decide, by decide⟩, by decide⟩

theorem witness_DigestCommand :
    started .digest (readyLen .digest [] 31) ∧ (readyLen .digest [] 31).imageLen < 32 ∧
      started .digest (readyLen .digest [0xAB] 33) ∧ 32 ≤ (readyLen .digest [] 32).imageLen ∧
      Memory.bytes (readyLen .digest [0xAB] 33).img 0 ((readyLen .digest [0xAB] 33).imageLen - 32) = some [0xAB] ∧
      0 < (readyLen .digest [] 33).imageLen - 32 ∧ Table.get (readyLen .digest [] 33).img 0 = none := by
  unfold started
  decide

theorem witness_DigestIsDeterministic :
    let s := readyLen .digest [0xAB] 33
    let s' := readyLen .digest [0xAB, 0xCD] 33
    s.imageLen = s'.imageLen ∧ (∀ a < s.imageLen - 32, Table.get s.img a = Table.get s'.img a) ∧ s.digest = s'.digest ∧
      (at? (exec .digest s) fun t => t.status.toNat) = some 0x0A := by decide

theorem witness_VerifyReportsFindings :
    let s := ready .verify imageA67
    started .verify s ∧ Parses s.img s.imageLen 1 recordsA ∧ payload s.img recordsA = some [1, 2] ∧ 33 ≤ s.imageLen ∧
      Memory.bytes s.img 0 s.imageLen = some imageA67 ∧ imageA67[s.imageLen - 33]? = some 0 :=
  ⟨by unfold started; decide, witness_parses, by decide, by decide, by decide, by decide⟩

theorem witness_TooShortForSlot :
    let s := ready (.reseal false) (hdr 0 ++ List.replicate 8 0)
    needsSlot (.reseal false) ∧ started (.reseal false) s ∧ Parses s.img s.imageLen 0 [] ∧ payload s.img [] = some [] ∧
      s.imageLen < 33 :=
  ⟨trivial, by unfold started; decide, ⟨by decide, by decide, by decide, by decide⟩, rfl, by decide⟩

theorem witness_ResealSucceeds (inplace : Bool) :
    let s := ready (.reseal inplace) imageA67
    started (.reseal inplace) s ∧ Parses s.img s.imageLen 1 recordsA ∧ payload s.img recordsA = some [1, 2] ∧
      33 ≤ s.imageLen ∧ Memory.bytes s.img 0 (s.imageLen - 33) = some imageA ∧
      Table.get s.img (s.imageLen - 33) = some 0 := by
  cases inplace <;>
    exact ⟨by unfold started; decide, witness_parses, by decide, by decide, by decide, by decide⟩

theorem witness_DigestCoversNewChecksum :
    started (.reseal true) (ready (.reseal true) imageA67) ∧
      ∃ t, exec (.reseal true) (ready (.reseal true) imageA67) = .next t ∧ t.status = 0x0A :=
  ⟨by unfold started; decide, _, rfl, by decide⟩

theorem witness_FailedResealLeavesImage :
    started (.reseal false) (ready (.reseal false) (hdr 0)) ∧
      ∃ t, exec (.reseal false) (ready (.reseal false) (hdr 0)) = .next t ∧ t.status ≠ 0x0A :=
  ⟨by unfold started; decide, _, rfl, by decide⟩

theorem witness_WellFormedImage : WellFormedImage (mem 0 imageA67) 67 71 1 recordsA :=
  ⟨by decide, witness_parses, by decide, by decide, by decide⟩

theorem witness_ResealIsIdempotent :
    let s := ready (.reseal false) imageA67
    started (.reseal false) s ∧ WellFormedImage s.img s.imageLen s.cap.toNat 1 recordsA ∧
      ∃ t, exec (.reseal false) s = .next t ∧
        let s' : State := { ready (.reseal true) imageA67 with img := resultBuffer false t }
        started (.reseal true) s' ∧ s'.imageLen = s.imageLen ∧ sameBytes s'.img (resultBuffer false t) s.imageLen :=
  ⟨by unfold started; decide, witness_WellFormedImage, _, rfl, by unfold started; decide, rfl, fun _ _ => rfl⟩

theorem witness_ResealThenVerifyIsClean :
    let s := ready (.reseal true) imageA67
    started (.reseal true) s ∧ WellFormedImage s.img s.imageLen s.cap.toNat 1 recordsA ∧
      ∃ t, exec (.reseal true) s = .next t ∧
        let s' : State := { ready .verify imageA67 with img := resultBuffer true t }
        started .verify s' ∧ s'.imageLen = s.imageLen ∧ sameBytes s'.img (resultBuffer true t) s.imageLen :=
  ⟨by unfold started; decide, witness_WellFormedImage, _, rfl, by unfold started; decide, rfl, fun _ _ => rfl⟩

/-! The sealed image of scenario A, whatever H is. -/

/-- The digest of scenario A with its checksum byte. -/
def digestA : Vector Byte 32 := Config.hash (imageA ++ [0xEC])

/-- Scenario A sealed: slot `0xEC` at 34, trailer from 35. -/
def sealedA : Memory := resealedBuffer (mem 0 imageA67) 67 0xEC digestA

theorem sealedA_sameBytes : sameBytes (mem 0 imageA67) sealedA 34 := fun a ha => by
  rw [sealedA, get_resealedBuffer _ (by decide), if_neg (by omega), if_neg (by omega)]

theorem sealedA_parses : Parses sealedA 67 1 recordsA :=
  witness_parses.congr (sealedA_sameBytes.mono (by decide)) (by decide)

theorem sealedA_payload : payload sealedA recordsA = some [1, 2] := by
  rw [← witness_parses.payload_congr (by decide) (sealedA_sameBytes.mono (by decide))]
  decide

theorem sealedA_slot : Table.get sealedA 34 = some 0xEC := by
  rw [sealedA, get_resealedBuffer _ (by decide), if_pos rfl]

theorem sealedA_before : Memory.bytes sealedA 0 35 = some (imageA ++ [0xEC]) :=
  bytes_before (L := 67) (by decide) (by decide) _ _

theorem sealedA_trailer : Memory.bytes sealedA 35 32 = some digestA.toList := bytes_trailer (L := 67) (by decide) _ _

theorem sealedA_wellFormed : WellFormedImage sealedA 67 71 1 recordsA :=
  ⟨by decide, sealedA_parses, by decide, by decide, by
    rw [show 67 = 35 + 32 from rfl, Memory.bytes_add, sealedA_before, Nat.zero_add, sealedA_trailer]; rfl⟩

/-- Vector V-1: VERIFY of the sealed image ends with STATUS `0x0A`. -/
theorem witness_VerifyCleanMakesResealNoop :
    let s : State := { ready .verify imageA67 with img := sealedA }
    let s' : State := { ready (.reseal false) imageA67 with img := sealedA }
    started .verify s ∧ (∃ t, exec .verify s = .next t ∧ t.status = 0x0A) ∧ started (.reseal false) s' ∧
      s'.imageLen = s.imageLen ∧ sameBytes s'.img s.img s.imageLen := by
  refine ⟨by unfold started; decide, ?_, by unfold started; decide, rfl, fun _ _ => rfl⟩
  rw [exec, execVerify_eq_headWalk,
    headWalk_ok (s := selectTarget .img { ready .verify imageA67 with img := sealedA }) quiet_id sealedA_parses
      (fun _ => sealedA_payload), slotCheck, if_neg (by rw [afterWalk_imageLen quiet_id]; decide),
    verifyTrailer_ok (by rw [afterWalk_target quiet_id, afterWalk_imageLen quiet_id]; exact sealedA_slot)
      (by rw [afterWalk_target quiet_id, afterWalk_imageLen quiet_id]; exact sealedA_before)
      (by rw [afterWalk_target quiet_id, afterWalk_imageLen quiet_id]; exact sealedA_trailer)]
  refine ⟨_, rfl, ?_⟩
  have h : checksumOf [1, 2] = 0xEC := by decide
  simp only [verified, afterWalk_acc]
  rw [show (afterWalk true id 1 recordsA [1, 2] (selectTarget .img { ready .verify imageA67 with img := sealedA })).status = 0x01 from
    by decide, statusOk_findings, if_neg (by rw [h]; simp), if_neg (by simp [digestA])]
  decide

/-- Scenario D: data byte 32 of the sealed image, `0x01`, zeroed. -/
theorem witness_EditThenReseal :
    let s : State := { ready (.reseal false) imageA67 with img := Table.set sealedA 32 0 }
    started (.reseal false) s ∧ WellFormedImage sealedA s.imageLen s.cap.toNat 1 recordsA ∧
      payload sealedA recordsA = some [1, 2] ∧ Table.get sealedA (s.imageLen - 33) = some (checksumOf [1, 2]) ∧
      Memory.bytes sealedA 0 (s.imageLen - 32) = some (imageA ++ [0xEC]) ∧
      Memory.bytes sealedA (s.imageLen - 32) 32 = some (Config.hash (imageA ++ [0xEC])).toList ∧ isDataByte recordsA 32 ∧
      Table.get sealedA 32 = some 1 ∧ s.img = Table.set sealedA 32 0 := by
  refine ⟨by unfold started; decide, sealedA_wellFormed, sealedA_payload, sealedA_slot, sealedA_before, sealedA_trailer,
    ⟨_, List.mem_singleton.2 rfl, by decide, by decide⟩, ?_, rfl⟩
  rw [← sealedA_sameBytes 32 (by decide)]
  decide

/-- For the statements about any command that completes: each of them completes on scenario A with room for its trailer. -/
theorem witness_exec_completes (i : Instr) :
    started i (ready i imageA67) ∧ (ready i imageA67).segDone = 0 ∧ ∃ t, exec i (ready i imageA67) = .next t := by
  cases i with
  | reseal b => cases b <;> exact ⟨by unfold started; decide, rfl, _, rfl⟩
  | _ => exact ⟨by unfold started; decide, rfl, _, rfl⟩

/-- A whole image but for the last byte of its trailer (VERIFY), and but for a gap byte before the slot (RESEAL). -/
theorem witness_UndefinedByteFaults :
    let s := readyLen .verify (imageA67.take 66) 67
    let s' := readyLen (.reseal false) (imageA.take 33) 68
    needsSlot .verify ∧ Parses s.img s.imageLen 1 recordsA ∧ 33 ≤ s.imageLen ∧ 66 < s.imageLen ∧ Table.get s.img 66 = none ∧
      needsSlot (.reseal false) ∧ Parses s'.img s'.imageLen 1 recordsA ∧ payload s'.img recordsA = none ∧
      35 < s'.imageLen - 32 ∧ Table.get s'.img 35 = none :=
  ⟨trivial, ⟨by decide, by decide, by decide, by decide⟩, by decide, by decide, by decide, trivial,
    ⟨by decide, by decide, by decide, by decide⟩, by decide, by decide, by decide⟩

theorem witness_UndefinedHeaderByteFaults :
    let s := readyLen .parse [] 24
    let s' := readyLen (.reseal true) [0xE9] 24
    Instr.parse ≠ .digest ∧ 24 ≤ s.imageLen ∧ Table.get s.img 0 = none ∧
      Instr.reseal true ≠ .digest ∧ 24 ≤ s'.imageLen ∧ Table.get s'.img 0 = some 0xE9 ∧ Table.get s'.img 1 = none := by
  decide

/-- The last byte of a load address and of a data length, the image ending there, and a data byte of a second record. -/
theorem witness_UndefinedRecordByteFaults :
    let s := readyLen .parse (hdr 1 ++ [0, 0, 0]) 28
    let u := readyLen .checksum (hdr 1 ++ [0, 0, 0, 0, 0, 0, 0]) 32
    let v := readyLen (.reseal false) (imageB.take 42) 43
    (walks .parse ∧ 24 ≤ s.imageLen ∧ Table.get s.img 0 = some 0xE9 ∧ Table.get s.img 1 = some 1 ∧ 0 < (1 : Byte).toNat ∧
      recordsFrom s.img s.imageLen 0 24 = some [] ∧ Table.get s.img 27 = none ∧
      walkEnd [] ≤ 27 ∧ 27 < walkEnd [] + 4 ∧ walkEnd [] + 4 ≤ s.imageLen) ∧
    (walks .checksum ∧ 24 ≤ u.imageLen ∧ Table.get u.img 0 = some 0xE9 ∧ Table.get u.img 1 = some 1 ∧
      recordsFrom u.img u.imageLen 0 24 = some [] ∧ Table.get u.img 31 = none ∧
      walkEnd [] + 4 ≤ 31 ∧ 31 < walkEnd [] + 8 ∧ walkEnd [] + 8 ≤ u.imageLen) ∧
    (walks (.reseal false) ∧ 24 ≤ v.imageLen ∧ Table.get v.img 0 = some 0xE9 ∧ Table.get v.img 1 = some 2 ∧
      1 < (2 : Byte).toNat ∧ recordsFrom v.img v.imageLen 1 24 = some recordsA ∧ Table.get v.img 42 = none ∧
      Instr.reseal false ≠ .parse ∧ recordAt v.img v.imageLen (walkEnd recordsA) = some ⟨0, 1, 42⟩) := by
  unfold walks
  decide

/-- ENGINE's step, HOST's step and a reset, each from a sound state. -/
theorem witness_StepKeepsInvariant :
    (Inv (ready .checksum imageA) ∧ ∃ t, step (ready .checksum imageA) = .next t) ∧
      (Inv polling ∧ ∃ t, step polling = .next t) ∧
      Inv { ready .checksum imageA with turns := [.reset], pending := [] } ∧
      ∃ t, step { ready .checksum imageA with turns := [.reset], pending := [] } = .next t :=
  ⟨⟨inv_ready, _, rfl⟩, ⟨inv_host _ _, _, rfl⟩, inv_host _ _, _, rfl⟩

theorem witness_SoundStatesAreNeverRefused : Inv (ready .checksum imageA) := inv_ready

end Sys2Proof.Tests
end

section
/-! HOST's bus, region by region: unmapped bytes and reserved register offsets (O15), and what a write changes (O16). -/

namespace Sys2Proof.Machine

/-! One access, its item and turn taken off (R62, R65). -/

theorem step_hostWrite {s : State} {width : Nat} {addr : Addr} {v : Word} {rest : List HostItem} (hb : s.busy = false)
    (ha : shapeAllowed width addr) (hm : hostMakes s (.write width addr v) rest) :
    step s = .next (busWrite width addr v (afterItem s rest)) := by
  rw [hostMakes_step hm, busAccess_write (by simpa using hb) ha]

theorem step_hostRead {s : State} {width : Nat} {addr : Addr} {v : Word} {rest : List HostItem} (hb : s.busy = false)
    (ha : shapeAllowed width addr) (hm : hostMakes s (.read width addr) rest)
    (hv : busRead width addr (afterItem s rest) = some v) :
    step s = .next { afterItem s rest with reads := v :: s.reads } := by
  rw [hostMakes_step hm, busAccess_read (by simpa using hb) ha hv, afterItem_reads]

/-- A read that completes returned the bus's value; on no value it would have faulted (R11). -/
theorem step_hostRead_next {s t : State} {width : Nat} {addr : Addr} {rest : List HostItem} (hb : s.busy = false)
    (ha : shapeAllowed width addr) (hm : hostMakes s (.read width addr) rest) (ht : step s = .next t) :
    ∃ v, busRead width addr (afterItem s rest) = some v ∧ t.reads = v :: s.reads := by
  cases hv : busRead width addr (afterItem s rest) with
  | none =>
    rw [hostMakes_step hm, busAccess_read_undefined (by simpa using hb) ha hv] at ht
    cases ht
  | some v =>
    rw [step_hostRead hb ha hm hv] at ht
    cases ht
    exact ⟨v, rfl, rfl⟩

/-! The bytes that read 0 (R40, R60, R63). -/

/-- An allowed access stays in the 32-bit word it starts in, so in one region: the bounds of R60's regions are multiples of 4. -/
theorem shapeAllowed_sameWord {width k : Nat} {addr : Addr} (h : shapeAllowed width addr) (hk : k < width) :
    (addr.toNat + k) / 4 = addr.toNat / 4 := by
  obtain ⟨rfl | rfl | rfl, h⟩ := shapeAllowed_width h <;> omega

theorem shapeAllowed_width_bounds {width : Nat} {addr : Addr} (h : shapeAllowed width addr) : 0 < width ∧ width ≤ 4 := by
  obtain ⟨rfl | rfl | rfl, -⟩ := shapeAllowed_width h <;> decide

/-- Where an access with a byte that reads 0 lies: the reserved registers, a window with that byte at or above CAP, a hole. -/
theorem readsAsZero_cases {width k cap : Nat} {addr : Addr} (h : shapeAllowed width addr) (hk : k < width)
    (hz : readsAsZero cap (addr.toNat + k)) :
    (0x60 ≤ addr.toNat ∧ addr.toNat < 0x100) ∨
      ((0x1000000 ≤ addr.toNat ∧ addr.toNat < 0x2000000) ∧ cap ≤ addr.toNat - 0x1000000 + k) ∨
      ((0x2000000 ≤ addr.toNat ∧ addr.toNat < 0x3000000) ∧ cap ≤ addr.toNat - 0x2000000 + k) ∨
      ((0x100 ≤ addr.toNat ∧ addr.toNat < 0x1000) ∨ (0x2000 ≤ addr.toNat ∧ addr.toNat < 0x1000000) ∨
        0x3000000 ≤ addr.toNat) := by
  have hword := shapeAllowed_sameWord h hk
  rcases hz with hz | hz
  · simp only [unmappedByte] at hz
    omega
  · omega

/-- The word numbers after DIGEST7 hold no register (R40). -/
theorem readReg_reserved (s : State) {k : Nat} (h : 24 ≤ k) : readReg s k = 0 := by
  obtain ⟨j, rfl⟩ := Nat.exists_eq_add_of_le' h
  rfl

theorem leNat_replicate_zero (n : Nat) : leNat (List.replicate n 0#8) = 0 := by
  induction n with
  | zero => rfl
  | succ n ih => simp [List.replicate_succ, leNat, ih]

/-- A byte of a window read at or above CAP is 0 in the value returned (R63). -/
theorem windowBytes_digit_zero {m : Memory} {cap a n k : Nat} {bs : List Byte} (h : windowBytes m cap a n = some bs)
    (hn : n ≤ 4) (hk : k < n) (hc : cap ≤ a + k) : (leWord bs).toNat / 256 ^ k % 256 = 0 := by
  obtain ⟨hlen, hget⟩ := windowBytes_eq_some.1 h
  have hbyte : bs[k]? = some 0 := by rw [← hget k hk, if_neg (by omega)]
  simp [leWord_toNat (hlen ▸ hn), leNat_digit, hbyte]

/-- A window read wholly at or above CAP is 0 (R63). -/
theorem windowBytes_word_zero {m : Memory} {cap a n : Nat} (h : cap ≤ a) :
    (windowBytes m cap a n).map leWord = some 0 := by
  simp [windowBytes_unmapped h, leWord, leNat_replicate_zero]

/-- A window write wholly at or above CAP is ignored (R63). -/
theorem windowWrite_unmapped {m : Memory} {cap a : Nat} (bs : List Byte) (h : cap ≤ a) : windowWrite m cap a bs = m := by
  induction bs generalizing a with
  | nil => rfl
  | cons b bs ih => rw [windowWrite, if_neg (by omega), ih (by omega)]

/-! What the bus does, region by region (R60). -/

theorem busRead_reservedReg (width : Nat) {addr : Addr} (s : State) (h : 0x60 ≤ addr.toNat ∧ addr.toNat < 0x100) :
    busRead width addr s = some 0 := by
  simp only [busRead, regionOf_reg h.2]
  rw [readReg_reserved s (by omega)]

theorem busRead_img (width : Nat) {addr : Addr} (s : State) (h : 0x1000000 ≤ addr.toNat ∧ addr.toNat < 0x2000000) :
    busRead width addr s = (windowBytes s.img s.cap.toNat (addr.toNat - 0x1000000) width).map leWord := by
  simp only [busRead, regionOf_img h.1 h.2]

theorem busRead_out (width : Nat) {addr : Addr} (s : State) (h : 0x2000000 ≤ addr.toNat ∧ addr.toNat < 0x3000000) :
    busRead width addr s = (windowBytes s.out s.cap.toNat (addr.toNat - 0x2000000) width).map leWord := by
  simp only [busRead, regionOf_out h.1 h.2]

theorem busRead_hole (width : Nat) {addr : Addr} (s : State)
    (h : (0x100 ≤ addr.toNat ∧ addr.toNat < 0x1000) ∨ (0x2000 ≤ addr.toNat ∧ addr.toNat < 0x1000000) ∨
      0x3000000 ≤ addr.toNat) : busRead width addr s = some 0 := by
  simp only [busRead, regionOf_unmapped h]

theorem busWrite_cmd (width : Nat) {addr : Addr} (v : Word) (s : State) (h : addr.toNat = 0) :
    busWrite width addr v s = issue v s := by
  simp only [busWrite, regionOf_reg (show addr.toNat < 0x100 by omega), h]

theorem busWrite_len (width : Nat) {addr : Addr} (v : Word) (s : State) (h : addr.toNat = 0xC) :
    busWrite width addr v s = { s with len := v } := by
  simp only [busWrite, regionOf_reg (show addr.toNat < 0x100 by omega), h]

/-- Every register but CMD and LEN is read-only or reserved (R40, R64); `hcmd` and `hlen` rule out the two other arms. -/
theorem busWrite_readOnlyReg (width : Nat) {addr : Addr} (v : Word) (s : State)
    (h : addr.toNat < 0x100 ∧ addr.toNat ≠ 0 ∧ addr.toNat ≠ 0xC) : busWrite width addr v s = s := by
  obtain ⟨hreg, hcmd, hlen⟩ := h
  simp only [busWrite, regionOf_reg hreg]

theorem busWrite_segtab (width : Nat) {addr : Addr} (v : Word) (s : State)
    (h : 0x1000 ≤ addr.toNat ∧ addr.toNat < 0x2000) : busWrite width addr v s = s := by
  simp only [busWrite, regionOf_segtab h.1 h.2]

theorem busWrite_img (width : Nat) {addr : Addr} (v : Word) (s : State)
    (h : 0x1000000 ≤ addr.toNat ∧ addr.toNat < 0x2000000) :
    busWrite width addr v s =
      { s with img := windowWrite s.img s.cap.toNat (addr.toNat - 0x1000000) (valueBytes width v) } := by
  simp only [busWrite, regionOf_img h.1 h.2]

theorem busWrite_out (width : Nat) {addr : Addr} (v : Word) (s : State)
    (h : 0x2000000 ≤ addr.toNat ∧ addr.toNat < 0x3000000) : busWrite width addr v s = s := by
  simp only [busWrite, regionOf_out h.1 h.2]

theorem busWrite_hole (width : Nat) {addr : Addr} (v : Word) (s : State)
    (h : (0x100 ≤ addr.toNat ∧ addr.toNat < 0x1000) ∨ (0x2000 ≤ addr.toNat ∧ addr.toNat < 0x1000000) ∨
      0x3000000 ≤ addr.toNat) : busWrite width addr v s = s := by
  simp only [busWrite, regionOf_unmapped h]

/-! Accesses to bytes that read 0 (R63). -/

/-- Each byte that reads 0 is 0 in the value an allowed read returns. -/
theorem busRead_digit_zero {width k : Nat} {addr : Addr} {s : State} {v : Word} (h : shapeAllowed width addr)
    (hv : busRead width addr s = some v) (hk : k < width) (hz : readsAsZero s.cap.toNat (addr.toNat + k)) :
    v.toNat / 256 ^ k % 256 = 0 := by
  have hwidth := (shapeAllowed_width_bounds h).2
  rcases readsAsZero_cases h hk hz with hr | ⟨hr, hc⟩ | ⟨hr, hc⟩ | hr
  · rw [busRead_reservedReg width s hr] at hv
    cases hv
    simp
  · rw [busRead_img width s hr] at hv
    obtain ⟨bs, hbs, rfl⟩ := Option.map_eq_some_iff.1 hv
    exact windowBytes_digit_zero hbs hwidth hk hc
  · rw [busRead_out width s hr] at hv
    obtain ⟨bs, hbs, rfl⟩ := Option.map_eq_some_iff.1 hv
    exact windowBytes_digit_zero hbs hwidth hk hc
  · rw [busRead_hole width s hr] at hv
    cases hv
    simp

/-- A read of bytes that read 0 only never reads a cell of IMG or OUT, so it cannot be UndefinedRead (R11). -/
theorem busRead_unmapped {width : Nat} {addr : Addr} {s : State} (h : shapeAllowed width addr)
    (hz : ∀ k < width, readsAsZero s.cap.toNat (addr.toNat + k)) : busRead width addr s = some 0 := by
  have hwidth := (shapeAllowed_width_bounds h).1
  rcases readsAsZero_cases h hwidth (hz 0 hwidth) with hr | ⟨hr, hc⟩ | ⟨hr, hc⟩ | hr
  · exact busRead_reservedReg width s hr
  · rw [busRead_img width s hr]; exact windowBytes_word_zero (by simpa using hc)
  · rw [busRead_out width s hr]; exact windowBytes_word_zero (by simpa using hc)
  · exact busRead_hole width s hr

theorem busWrite_unmapped {width : Nat} {addr : Addr} (v : Word) {s : State} (h : shapeAllowed width addr)
    (hz : ∀ k < width, readsAsZero s.cap.toNat (addr.toNat + k)) : busWrite width addr v s = s := by
  have hwidth := (shapeAllowed_width_bounds h).1
  rcases readsAsZero_cases h hwidth (hz 0 hwidth) with hr | ⟨hr, hc⟩ | ⟨hr, -⟩ | hr
  · exact busWrite_readOnlyReg width v s (by omega)
  · rw [busWrite_img width v s hr, windowWrite_unmapped _ (by simpa using hc)]
  · exact busWrite_out width v s hr
  · exact busWrite_hole width v s hr

/-- Settles O15, by where an access with a byte that reads 0 can lie (`readsAsZero_cases`). -/
theorem unmappedReadZeroWriteIgnored : Obligations.UnmappedReadZeroWriteIgnored := by
  intro s width addr rest hb ha
  refine ⟨fun hm => ⟨fun t ht => ?_, fun hz => ?_⟩, fun v hm hz => ?_⟩
  · obtain ⟨v, hv, hreads⟩ := step_hostRead_next hb ha hm ht
    exact ⟨v, hreads, fun k hk hz => busRead_digit_zero ha hv hk hz⟩
  · exact step_hostRead hb ha hm (busRead_unmapped ha hz)
  · rw [step_hostWrite hb ha hm, busWrite_unmapped (s := afterItem s rest) v ha hz]

/-! Writes to IMG (R61, R64). -/

/-- The cells after a window write of the low `width` bytes of a value: its base-256 digits where they fall below CAP. -/
theorem get_windowWrite_valueBytes (m : Memory) (cap o : Nat) {width : Nat} (hw : width ≤ 4) (v : Word) (b : Nat) :
    Table.get (windowWrite m cap o (valueBytes width v)) b =
      if o ≤ b ∧ b < o + width ∧ b < cap then some (BitVec.ofNat 8 (v.toNat / 256 ^ (b - o))) else Table.get m b := by
  simp only [get_windowWrite, valueBytes_length hw, and_assoc]
  split
  next hin => exact valueBytes_getElem? hw v (by omega)
  next => rfl

/-- Settles O16, by the region the address is in. -/
theorem hostWrites : Obligations.HostWrites := by
  intro s width addr v rest hb ha hm
  have hwidth := (shapeAllowed_width_bounds ha).2
  rw [step_hostWrite hb ha hm]
  refine ⟨?readOnly, fun h => ?len, fun h => ?cmd, fun h => ?img⟩
  case readOnly =>
    rintro (h | h | h)
    · rw [busWrite_readOnlyReg width v _ h]
    · rw [busWrite_segtab width v _ h]
    · rw [busWrite_out width v _ h]
  case len => rw [busWrite_len width v _ h]
  case cmd => rw [busWrite_cmd width v _ h]
  case img =>
    rw [busWrite_img width v _ h]
    exact ⟨_, rfl, rfl, get_windowWrite_valueBytes s.img s.cap.toNat _ hwidth v⟩

end Sys2Proof.Machine
end

section
/-! The command word in numbers (O3), and what issuing a word does (O7). -/

namespace Sys2Proof

/-! The fields of a word as digits of its number (R90). -/

theorem opOf_toNat (w : Word) : (opOf w).toNat = w.toNat % 256 := by
  simp [opOf]

theorem inplaceOf_eq_false_iff (w : Word) : inplaceOf w = false ↔ w.toNat / 256 % 2 = 0 := by
  simp [inplaceOf, BitVec.getLsbD, Nat.testBit_eq_decide_div_mod_eq]

theorem rsvOf_eq_zero_iff (w : Word) : rsvOf w = 0 ↔ w.toNat / 512 = 0 := by
  have hdigit : (rsvOf w).toNat = w.toNat / 512 := by
    simp only [rsvOf, BitVec.extractLsb'_toNat, Nat.shiftRight_eq_div_pow]
    omega
  rw [← hdigit]
  exact BitVec.toNat_inj.symm

/-! The legal words (R92). -/

/-- An opcode and an INPLACE bit are some command's exactly when R91 maps the opcode and the bit, if set, stands with RESEAL. -/
theorem exists_command_iff {op : Byte} {b : Bool} :
    (∃ i : Instr, op = i.op ∧ b = i.inplaceBit) ↔ (1 ≤ op.toNat ∧ op.toNat ≤ 6) ∧ (b = false ∨ op.toNat = 6) := by
  constructor
  · rintro ⟨i, rfl, rfl⟩
    cases i with
    | reseal inplace => exact ⟨by simp [Instr.op], .inr rfl⟩
    | _ => exact ⟨by decide, .inl rfl⟩
  · rintro ⟨⟨hlow, hhigh⟩, rfl | hreseal⟩
    · have plain : op = 1 ∨ op = 2 ∨ op = 3 ∨ op = 4 ∨ op = 5 ∨ op = 6 := by bv_omega
      rcases plain with rfl | rfl | rfl | rfl | rfl | rfl
      · exact ⟨.hdrParse, rfl, rfl⟩
      · exact ⟨.parse, rfl, rfl⟩
      · exact ⟨.checksum, rfl, rfl⟩
      · exact ⟨.digest, rfl, rfl⟩
      · exact ⟨.verify, rfl, rfl⟩
      · exact ⟨.reseal false, rfl, rfl⟩
    · exact ⟨.reseal b, BitVec.eq_of_toNat_eq hreseal, rfl⟩

/-- The words that decode to a command, by their digits. -/
theorem exists_decodeWord_eq_ok_iff (w : Word) :
    (∃ i, decodeWord w = .ok i) ↔ (1 ≤ w.toNat % 256 ∧ w.toNat % 256 ≤ 6) ∧ w.toNat / 512 = 0 ∧
      (w.toNat / 256 % 2 = 0 ∨ w.toNat % 256 = 6) := by
  simp only [decodeWord_eq_ok_fields, exists_and_left, exists_command_iff, rsvOf_eq_zero_iff, inplaceOf_eq_false_iff,
    opOf_toNat]
  exact and_left_comm

theorem exists_decodeWord_eq_error {w : Word} (h : ¬ ∃ i, decodeWord w = .ok i) : ∃ e, decodeWord w = .error e := by
  cases hw : decodeWord w with
  | ok i => exact absurd ⟨i, hw⟩ h
  | error e => exact ⟨e, rfl⟩

end Sys2Proof

namespace Sys2Proof.Machine

/-! The three ends of an issue (R93, R254, R255, R257). -/

/-- The error epilogue after issue's clearing: STATUS, ERR_CODE and ERR_FIELD alone differ from the cleared registers (R256). -/
theorem errorState_clearForIssue (e : ErrCode) (f : ErrField) (w : Word) (s : State) :
    errorState e f 0 0 (clearForIssue w s) =
      { clearForIssue w s with
        status := 0x06, errCode := errCodeNumber e, errField := errFieldNumber f, eng := Engine.none } := by
  ext1 <;> simp

/-- Acceptance: the latches, FSM and BUSY are all it adds to issue's clearing (R93). -/
theorem acceptCommand_eq (w : Word) (s : State) :
    acceptCommand w s =
      { clearForIssue w s with
        status := 0x01, fsm := if opOf w = 0x06 then .loaded else .idle
        eng := { Engine.none with op := opOf w, inplace := inplaceOf w, len := s.len } } := by
  ext1 <;> simp

theorem issue_legal {w : Word} {i : Instr} {s : State} (hw : decodeWord w = .ok i) (hlen : s.len.toNat ≤ s.cap.toNat) :
    issue w s = acceptCommand w s := by
  simp [issue, hw, hlen]

theorem issue_badLength {w : Word} {i : Instr} {s : State} (hw : decodeWord w = .ok i) (hlen : s.cap.toNat < s.len.toNat) :
    issue w s = errorState .badLength .len 0 0 (clearForIssue w s) := by
  simp [issue, hw, hlen]

theorem issue_illegal {w : Word} {e : DecodeError} {s : State} (hw : decodeWord w = .error e) :
    issue w s = errorState .illegalCmd .cmd 0 0 (clearForIssue w s) := by
  simp [issue, hw]

/-- A HOST write to CMD while no command is in progress is an issue (R93). -/
theorem step_writeCmd {s : State} {w : Word} {rest : List HostItem} (hb : s.busy = false)
    (hm : hostMakes s (.write 4 cmdAddr w) rest) : step s = .next (issue w (afterItem s rest)) := by
  rw [step_hostWrite hb (shapeAllowed_word rfl) hm, busWrite_cmd 4 w _ rfl]

/-- Settles O3, by the digits of the word; an illegal word's step is the error epilogue after issue's clearing. -/
theorem legalWords : Obligations.LegalWords := by
  intro w
  refine ⟨exists_decodeWord_eq_ok_iff w, fun hillegal s rest hb hm => ?_⟩
  rw [← exists_decodeWord_eq_ok_iff] at hillegal
  obtain ⟨e, hw⟩ := exists_decodeWord_eq_error hillegal
  rw [step_writeCmd hb hm, issue_illegal hw, errorState_clearForIssue]
  exact ⟨_, rfl, rfl, by simp [State.busy, busyBit], by simp [State.done, doneBit]⟩

/-- Settles O7: the hazard while BUSY, else one case for each end of an issue. -/
theorem issueOfAWord : Obligations.IssueOfAWord := by
  intro s w rest hm
  refine ⟨fun hb => ?hazard, fun hb => ?idle⟩
  case hazard => exact (hostMakes_step hm).trans (busAccess_hazard (by simpa using hb) (by simp))
  case idle =>
    rw [step_writeCmd hb hm]
    refine ⟨fun i hw hlen => ?accepted, fun i hw hlen => ?badLength, fun e hw => ?illegal⟩
    case accepted =>
      obtain ⟨-, hop, hinplace⟩ := decodeWord_eq_ok_fields.1 hw
      rw [issue_legal hw (by simpa using hlen), acceptCommand_eq, hop, hinplace]
      exact ⟨_, rfl, rfl, rfl, rfl, rfl⟩
    case badLength =>
      rw [issue_badLength hw (by simpa using hlen), errorState_clearForIssue]
      exact ⟨_, rfl, rfl⟩
    case illegal =>
      rw [issue_illegal hw, errorState_clearForIssue]
      exact ⟨_, rfl, rfl⟩

end Sys2Proof.Machine
end

section
/-! The header parser's outcome over any target buffer (O23). -/

namespace Sys2Proof.Machine

/-- Settles O23, one clause for each end of the header parser, in the order of its tests (R120, R124). -/
theorem headerParseOutcome : Obligations.HeaderParseOutcome := by
  intro s
  refine ⟨fun hshort => ?truncated, fun hlen =>
    ⟨fun hm => ?magicUndefined, fun m hm hne => ?badMagic, fun hm => ⟨fun hn => ?countUndefined, fun n hn => ?parsed⟩⟩⟩
  case truncated => rw [headerParse_short hshort, raise_eq]
  case magicUndefined => exact headerParse_undefined hlen (.inl hm)
  case badMagic => rw [headerParse_badMagic hlen hm hne, raise_eq]
  case countUndefined => exact headerParse_undefined hlen (.inr ⟨hm, hn⟩)
  case parsed => exact headerParse_ok hlen hm hn

end Sys2Proof.Machine
end

section
/-! The truncation law (O31): an image whose records parse over `L` bytes, walked again over a shorter length. -/

namespace Sys2Proof.Machine

/-! The walking commands as one: header parse and walk, then the command's own end (R140, R146, R165, R208, R230). -/

/-- Whether a walking command folds (R140). -/
def walkFolds : Instr → Bool
  | .parse => false
  | _ => true

/-- What happens between header parse and walk: RESEAL's FSM transition (R202). -/
def walkEntry : Instr → State → State
  | .reseal _ => enterFsm .headerValidated
  | _ => id

/-- What follows the walk. -/
def walkTail : Instr → State → Res Unit
  | .verify => slotCheck verifyTrailer
  | .reseal _ => slotCheck resealTail
  | _ => finishOk

theorem exec_eq_headWalk {i : Instr} (hw : walks i) (s : State) :
    exec i s = (headWalk (walkFolds i) (walkEntry i) (walkTail i) (startOf i s)).toOutcome := by
  cases i with
  | hdrParse => exact absurd rfl hw.1
  | digest => exact absurd rfl hw.2
  | parse => exact execParse_eq_headWalk s
  | checksum => exact execChecksum_eq_headWalk s
  | verify => exact execVerify_eq_headWalk s
  | reseal b => exact execReseal_eq_headWalk b s

theorem walkEntry_cases (i : Instr) : walkEntry i = id ∨ (i.op = 0x06 ∧ walkEntry i = enterFsm .headerValidated) := by
  cases i with
  | reseal b => exact .inr ⟨rfl, rfl⟩
  | _ => exact .inl rfl

theorem quiet_walkEntry (i : Instr) : Quiet (walkEntry i) := by
  rcases walkEntry_cases i with h | ⟨-, h⟩
  · exact h ▸ quiet_id
  · exact h ▸ quiet_enterFsm _

/-- Every command's rule starts on IMG's own bytes below the latched length (R201). -/
theorem startOf_sameBytes (i : Instr) (s : State) : sameBytes s.img (startOf i s).target (startOf i s).imageLen := by
  rw [startOf_imageLen]
  cases i with
  | reseal b => exact working_sameBytes b s
  | _ => exact fun _ _ => rfl

/-- Where `[0, L)` of IMG is defined, so is the target of every command over a length of at most `L`. -/
theorem startOf_defined (i : Instr) {s : State} {L : Nat} (h : (Memory.bytes s.img 0 L).isSome = true)
    (hle : s.imageLen ≤ L) : ∀ a < (startOf i s).imageLen, Table.get (startOf i s).target a ≠ none := fun a ha => by
  have hL := startOf_imageLen i s
  have hbyte := Memory.bytes_isSome.1 h a (by omega)
  rw [Nat.zero_add, startOf_sameBytes i s a ha] at hbyte
  exact Option.isSome_iff_ne_none.1 hbyte

/-! Past the walk. -/

theorem slotCheck_short {k : State → Res Unit} {u : State} (h : u.imageLen < 33) :
    slotCheck k u = .raised (errorState .tooShort .trailer 0 0 u) := if_pos h

theorem slotCheck_fits {k : State → Res Unit} {u : State} (h : 33 ≤ u.imageLen) : slotCheck k u = k u :=
  if_neg (Nat.not_lt.2 h)

theorem walkTail_short {i : Instr} {u : State} (hn : needsSlot i) (h : u.imageLen < 33) :
    walkTail i u = .raised (errorState .tooShort .trailer 0 0 u) := by
  cases i with
  | verify => exact slotCheck_short h
  | reseal b => exact slotCheck_short h
  | _ => exact hn.elim

/-- The success epilogue sets RESULT_VALID (R95). -/
theorem statusOk_resultValid (w : Word) : (statusOk w).getLsbD resultValidBit = true := by
  simp [statusOk, writeFlag, resultValidBit]

/-- Where the slot fits, or is not needed, and every byte is defined, the end of a walking command succeeds. -/
theorem walkTail_succeeds {i : Instr} {u : State} (h : needsSlot i → 33 ≤ u.imageLen)
    (hdef : ∀ a < u.imageLen, Table.get u.target a ≠ none) :
    ∃ t, walkTail i u = .ok () t ∧ t.resultValid = true ∧ t.errCode = u.errCode ∧
      (needsSlot i → t.trailerStart = BitVec.ofNat 32 (u.imageLen - 32)) := by
  cases i with
  | verify =>
    have hL : 33 ≤ u.imageLen := h trivial
    rcases verifyTrailer_cases u with ⟨slot, pre, trailer, -, -, -, e⟩ | ⟨⟨a, ha, hnone⟩, -⟩
    · exact ⟨_, (slotCheck_fits hL).trans e, statusOk_resultValid _, rfl, fun _ => rfl⟩
    · exact absurd hnone (hdef a (ha hL))
  | reseal b =>
    have hL : 33 ≤ u.imageLen := h trivial
    rcases resealTail_cases hL with ⟨old, pre, -, -, e⟩ | ⟨hslot | hpre, -⟩
    · exact ⟨_, (slotCheck_fits hL).trans e, statusOk_resultValid _, by simp [resealed], fun _ => rfl⟩
    · exact absurd hslot (hdef _ (by omega))
    · obtain ⟨a, ha, hnone⟩ := Memory.bytes_eq_none.1 hpre
      exact absurd hnone (hdef _ (by omega))
  | _ => exact ⟨_, rfl, statusOk_resultValid _, rfl, False.elim⟩

/-- What an error of a started command reports (R256). -/
theorem reports_errorState {u : State} (h : u.status = 0x01) (e : ErrCode) (f : ErrField) (o g : Nat) :
    reports (errorState e f o g u) (errCodeNumber e) (errFieldNumber f) o g := by
  refine ⟨rfl, rfl, rfl, rfl, ?_⟩
  rw [errorState_status, h]
  exact statusError_one

/-! The walk over a length cut to `s.imageLen`, on the bytes of an image that parses over `L` (R147). -/

theorem RecordFails.field_cases {m : Memory} {L c : Nat} {f : ErrField} {o : Nat} (h : RecordFails m L c f o) :
    f = .segLoadAddr ∨ f = .segDataLen ∨ f = .segData := by
  cases h <;> simp

/-- The records are determined by the bytes: the same bytes, parsed over a shorter length, hold the same records. -/
theorem Parses.unique_of_sameBytes {m m' : Memory} {L L' : Nat} {n n' : Byte} {ds ds' : List SegDesc}
    (hp : Parses m L n ds) (hp' : Parses m' L' n' ds') (hs : sameBytes m m' L') (hle : L' ≤ L) : ds' = ds := by
  have hend := walkEnd_le hp'.records hp'.header
  have hlong : Parses m L n' ds' := hp'.congr (hs.symm.mono hend) (by omega)
  have hn : n = n' := Option.some.inj (hp.count.symm.trans hlong.count)
  subst hn
  exact Option.some.inj (hlong.records.symm.trans hp.records)

section
variable {st : State → State} {m : Memory} {s : State} {L : Nat} {n : Byte} {ds : List SegDesc}

/-- Cut before the walk end: TRUNCATED, from the header below 24 bytes and from a record otherwise. -/
theorem headWalk_truncated (hq : Quiet st) (fold : Bool) (k : State → Res Unit) (hp : Parses m L n ds)
    (hle : s.imageLen ≤ L) (hs : sameBytes m s.target s.imageLen) (hdef : ∀ a < s.imageLen, Table.get s.target a ≠ none)
    (hcut : s.imageLen < walkEnd ds) :
    ∃ f o g u, headWalk fold st k s = .raised (errorState .truncated f o g u) ∧
      (s.imageLen < 24 → f = .header) ∧
      (24 ≤ s.imageLen → f = .segLoadAddr ∨ f = .segDataLen ∨ f = .segData) := by
  rcases headWalk_cases hq fold k s with
    ⟨hshort, e⟩ | ⟨b, hlen, hb, hne, -⟩ | ⟨n', j, ds', bs, f, o, hlen, -, -, -, -, -, hf, e⟩ |
    ⟨n', ds', bs, hp', -, -⟩ | ⟨⟨a, ha, hnone⟩, -⟩
  · exact ⟨_, _, _, _, e, fun _ => rfl, fun h => by omega⟩
  · have hmagic : Table.get s.target 0 = some 0xE9 := (hs 0 (by omega)).symm.trans hp.magic
    exact absurd (Option.some.inj (hb.symm.trans hmagic)) hne
  · exact ⟨f, o, j, _, e, fun h => by omega, fun _ => hf.field_cases⟩
  · have hds := hp.unique_of_sameBytes hp' hs hle
    have hend := walkEnd_le hp'.records hp'.header
    rw [hds] at hend
    omega
  · exact absurd hnone (hdef a ha)

/-- Cut at or past the walk end: the walk ends as over the whole image. -/
theorem headWalk_whole (hq : Quiet st) (fold : Bool) (k : State → Res Unit) (hp : Parses m L n ds)
    (hs : sameBytes m s.target s.imageLen) (hdef : ∀ a < s.imageLen, Table.get s.target a ≠ none)
    (hend : walkEnd ds ≤ s.imageLen) :
    Parses s.target s.imageLen n ds ∧ ∃ bs, headWalk fold st k s = k (afterWalk fold st n ds bs s) := by
  have hp' : Parses s.target s.imageLen n ds := hp.congr (hs.mono hend) hend
  obtain ⟨bs, hbs⟩ := payload_isSome hp'.records s.eng.len.isLt fun a _ ha =>
    Option.isSome_iff_ne_none.2 (hdef a (ha.trans_le hend))
  exact ⟨hp', bs, headWalk_ok hq hp' fun _ => hbs⟩

end

/-- Settles O31 (R147): the cut either lies before the walk end, or leaves the walk as it was and the command's own end,
which needs the slot and the trailer or not, decides. -/
theorem truncationLaw : Obligations.TruncationLaw := by
  intro i s L n ds hw hst _ hle hp hbytes herr
  have hL : (startOf i s).imageLen = s.imageLen := startOf_imageLen i s
  have hs := startOf_sameBytes i s
  have hdef := startOf_defined i hbytes hle
  have hend24 : 24 ≤ walkEnd ds := Nat.le_add_right ..
  rw [exec_eq_headWalk hw]
  by_cases hcut : s.imageLen < walkEnd ds
  case pos =>
    obtain ⟨f, o, g, u, e, hheader, hrecord⟩ := headWalk_truncated (quiet_walkEntry i) (walkFolds i) (walkTail i) hp
      (hL.trans_le hle) hs hdef (hL.trans_lt hcut)
    rw [hL] at hheader hrecord
    refine ⟨errorState .truncated f o g u, by rw [e]; rfl, iff_of_true rfl hcut, fun h => ?_, fun h _ => ?_,
      fun h => by omega⟩
    · rw [hheader h]; rfl
    · rcases hrecord h with rfl | rfl | rfl
      exacts [.inl rfl, .inr (.inl rfl), .inr (.inr rfl)]
  case neg =>
    obtain ⟨hp', bs, e⟩ := headWalk_whole (quiet_walkEntry i) (walkFolds i) (walkTail i) hp hs hdef (by omega)
    have hc := carried_afterWalk (walkEntry_cases i) (walkFolds i) n bs (startOf i s) hp'.header (count_le n) hp'.records
    rw [e]
    generalize afterWalk (walkFolds i) (walkEntry i) n ds bs (startOf i s) = u at hc
    have huL : u.imageLen = s.imageLen := hc.imageLen.trans hL
    by_cases hslot : needsSlot i ∧ s.imageLen < 33
    · have hstatus : u.status = 0x01 := (hc.status.trans (startOf_status i s)).trans hst.1
      rw [walkTail_short hslot.1 (huL.trans_lt hslot.2)]
      exact ⟨_, rfl, iff_of_false (show (0x03 : Word) ≠ 0x02 by decide) hcut, fun h => by omega, fun _ h => absurd h hcut,
        fun _ => ⟨fun _ => reports_errorState hstatus .tooShort .trailer 0 0, fun h => absurd hslot h⟩⟩
    · have huerr : u.errCode = 0 := (hc.errCode.trans (startOf_errCode i s)).trans herr
      obtain ⟨t, et, hvalid, hcode, hts⟩ := walkTail_succeeds (i := i) (u := u)
        (fun hn => by rw [huL]; exact Nat.not_lt.1 fun h => hslot ⟨hn, h⟩) (by rw [hc.imageLen, hc.target]; exact hdef)
      have hzero : t.errCode = 0 := hcode.trans huerr
      rw [et]
      refine ⟨t, rfl, iff_of_false (by rw [hzero]; decide) hcut, fun h => by omega, fun _ h => absurd h hcut,
        fun _ => ⟨fun h => absurd h hslot, fun _ => ⟨hvalid, hzero, huL ▸ hts⟩⟩⟩

end Sys2Proof.Machine
end

section
/-! The checksum fold in parts and in any order (O32), and the laws of two CHECKSUM commands (O33). -/

namespace Sys2Proof.Machine

/-! The fold over parts, over a permutation, and without its seed (R163). -/

/-- The fold runs through XOR, which is associative and commutative. -/
theorem foldBytes_perm (seed : Byte) {b c : List Byte} (h : b.Perm c) : foldBytes seed b = foldBytes seed c :=
  h.foldl_eq seed

/-- Each part may be folded from 0 on its own, and the results combined with XOR. -/
theorem foldBytes_flatten (seed : Byte) (parts : List (List Byte)) :
    foldBytes seed parts.flatten = parts.foldl (fun a p => a ^^^ foldBytes 0 p) seed := by
  induction parts generalizing seed with
  | nil => rfl
  | cons p parts ih => rw [List.flatten_cons, foldBytes_append, ih, foldBytes_seed seed p, List.foldl_cons]

/-- Settles O32 (R163). -/
theorem foldIsOrderIndependent : Obligations.FoldIsOrderIndependent :=
  fun parts _ => ⟨fun h => foldBytes_perm 0xEF h.flatten, foldBytes_flatten 0xEF parts⟩

/-! The checksum of an image as a value (R161, R166). -/

/-- The checksum tells data apart by the XOR of its bytes alone: the seed cancels. -/
theorem checksumOf_eq_iff {b c : List Byte} : checksumOf b = checksumOf c ↔ foldBytes 0 b = foldBytes 0 c := by
  rw [checksumOf, checksumOf, foldBytes_seed _ b, foldBytes_seed _ c, BitVec.xor_right_inj]

/-- An image whose `segment_count` is 0 has no data. -/
theorem Parses.payload_of_count_zero {m : Memory} {L : Nat} {ds : List SegDesc} {bs : List Byte} (hp : Parses m L 0 ds)
    (hb : payload m ds = some bs) : bs = [] := by
  have hds : [] = ds := Option.some.inj hp.records
  subst hds
  exact (Option.some.inj hb).symm

/-- CHECKSUM of an image whose records lie within it leaves the checksum of their data in CSUM (R161, R165). -/
theorem execChecksum_csum {s : State} {n : Byte} {ds : List SegDesc} {bs : List Byte}
    (hp : Parses s.img s.imageLen n ds) (hb : payload s.img ds = some bs) :
    ∃ t, exec .checksum s = .next t ∧ t.csum = (checksumOf bs).toWord := by
  have hwalk : exec .checksum s = (finishOk (afterWalk true id n ds bs (selectTarget .img s))).toOutcome :=
    (exec_eq_headWalk (i := .checksum) ⟨nofun, nofun⟩ s).trans
      (congrArg Res.toOutcome (headWalk_ok quiet_id hp fun _ => hb))
  exact ⟨_, hwalk, by simp [afterWalk, checksumOf]⟩

/-- Settles O33 (R166): CSUM shows the checksum of the data, so each law is one of the fold. -/
theorem checksumLaws : Obligations.ChecksumLaws := by
  intro s s' n n' ds ds' bs bs' _ _ hp hp' hb hb'
  obtain ⟨t, ht, hcsum⟩ := execChecksum_csum hp hb
  obtain ⟨t', ht', hcsum'⟩ := execChecksum_csum hp' hb'
  refine ⟨t, t', ht, ht', ?_⟩
  rw [hcsum, hcsum', Byte.toWord_inj]
  refine ⟨?noSegments, ?oneByte, checksumOf_eq_iff, ?reordered⟩
  case noSegments =>
    rintro rfl
    rw [hp.payload_of_count_zero hb]
    rfl
  case oneByte =>
    rintro p q x y rfl rfl
    rw [checksumOf_edit p q x y]
    exact ⟨by simp only [Byte.toWord_xor], not_iff_not.1 (xor_xor_ne_iff _ x y)⟩
  case reordered => exact fun h => (foldBytes_perm Config.seed h).symm

end Sys2Proof.Machine
end

section
/-! DIGEST: its three ends (R183), and what its result depends on (O36). -/

namespace Sys2Proof.Machine

/-! DIGEST, whole: too short for a trailer, an undefined byte before the trailer, or the digest of those bytes (R183). -/

section
variable {s : State}

theorem exec_digest_short (hL : s.imageLen < 32) :
    exec .digest s = .next (errorState .tooShort .trailer 0 0 (selectTarget .img s)) := by
  rw [exec, execDigest, if_pos (show (selectTarget .img s).imageLen < Config.minDigestLen from hL)]
  rfl

theorem exec_digest_undefined (hL : 32 ≤ s.imageLen) (hb : Memory.bytes s.img 0 (s.imageLen - 32) = none) :
    exec .digest s = .fault .undefinedRead := by
  rw [exec, execDigest, if_neg (show ¬ (selectTarget .img s).imageLen < Config.minDigestLen from Nat.not_lt.2 hL),
    digestOf_none (by exact hb)]
  rfl

theorem exec_digest_succeeds {bs : List Byte} (hL : 32 ≤ s.imageLen)
    (hb : Memory.bytes s.img 0 (s.imageLen - 32) = some bs) :
    exec .digest s = .next { s with
      status := statusOk s.status, trailerStart := BitVec.ofNat 32 (s.imageLen - 32)
      digest := packDigest (Config.hash bs), eng := Engine.none } := by
  rw [exec, execDigest, if_neg (show ¬ (selectTarget .img s).imageLen < Config.minDigestLen from Nat.not_lt.2 hL),
    digestOf_some (by exact hb)]
  rfl

end

/-- Settles O36 (R185): the bytes before the trailer, the same in both states, decide between the three ends of DIGEST and
are all that is hashed. -/
theorem digestIsDeterministic : Obligations.DigestIsDeterministic := by
  intro s s' t hlen hs hdigest ht
  by_cases hL : s.imageLen < 32
  case pos =>
    rw [exec_digest_short hL] at ht
    cases ht
    exact ⟨_, exec_digest_short (hlen ▸ hL), by simpa using (hdigest hL).symm⟩
  case neg =>
    have hL32 : 32 ≤ s.imageLen := Nat.not_lt.1 hL
    have hbytes : Memory.bytes s.img 0 (s.imageLen - 32) = Memory.bytes s'.img 0 (s'.imageLen - 32) :=
      hlen ▸ hs.bytes (Nat.zero_add _).le
    cases hb : Memory.bytes s.img 0 (s.imageLen - 32) with
    | none =>
      rw [exec_digest_undefined hL32 hb] at ht
      cases ht
    | some bs =>
      rw [exec_digest_succeeds hL32 hb] at ht
      cases ht
      exact ⟨_, exec_digest_succeeds (hlen ▸ hL32) (hbytes ▸ hb), rfl⟩

end Sys2Proof.Machine
end

section
/-! What a RESEAL that completes leaves, whatever the image: FSM and the buffers after a failure (O41), the digest after a
success (O40). -/

namespace Sys2Proof.Machine

@[simp] theorem resealed_status (u : State) (old : Byte) (d : Vector Byte 32) :
    (resealed u old d).status = statusOk u.status := rfl
@[simp] theorem resealed_csum (u : State) (old : Byte) (d : Vector Byte 32) : (resealed u old d).csum = u.csum := by
  simp [resealed]

/-- The two ends of a RESEAL (R200, R205, R206). -/
theorem exec_reseal_cases {b : Bool} {s t : State} (hst : started (.reseal b) s) (ht : exec (.reseal b) s = .next t) :
    ∃ u, Carried (.reseal b) (startOf (.reseal b) s) u ∧
      ((t.status = 0x06 ∧ ∃ e f o g, t = errorState e f o g u) ∨ (t.status = 0x0A ∧ Ends (.reseal b) u t)) := by
  have hstatus : ∀ {u}, Carried (.reseal b) (startOf (.reseal b) s) u → u.status = 0x01 := fun hc =>
    (hc.status.trans (startOf_status _ s)).trans hst.1
  rcases exec_completes (.reseal b) s with ⟨u, e, f, o, g, hc, h, -⟩ | ⟨u, t', hc, h, hend⟩ | ⟨-, h⟩
  · cases ht.symm.trans h
    exact ⟨u, hc, .inl ⟨by simp [hstatus hc], e, f, o, g, rfl⟩⟩
  · cases ht.symm.trans h
    refine ⟨u, hc, .inr ⟨?_, hend⟩⟩
    obtain ⟨old, pre, -, -, -, -, rfl⟩ := hend
    simp [hstatus hc]
  · cases ht.symm.trans h

/-- Settles O41: an error comes before any write but the copy to OUT with which RESEAL starts. -/
theorem failedResealLeavesImage : Obligations.FailedResealLeavesImage := by
  intro b s t hst ht hfail
  obtain ⟨u, hc, ⟨herr, e, f, o, g, rfl⟩ | ⟨hok, -⟩⟩ := exec_reseal_cases hst ht
  case inr => exact absurd hok hfail
  have hfsm : u.fsm ≠ .idle := by
    rcases hc.fsm with h | ⟨-, h⟩
    · rw [h, startOf_fsm, hst.2]; exact nofun
    · rw [h]; exact nofun
  have hout : (errorState e f o g u).out = (startOf (.reseal b) s).out := hc.out
  refine ⟨herr, if_neg hfsm, hc.img.trans (startOf_img _ s), ?outOfPlace, ?inPlace⟩
  case outOfPlace =>
    rintro rfl a
    rw [hout, get_startOf_out]
    simp
  case inPlace =>
    rintro rfl
    exact hout.trans (startOf_out (by simp) s)

/-- Settles O40: step 3 hashes the buffer in which step 2 has written the slot, and the trailer lies behind it. -/
theorem digestCoversNewChecksum : Obligations.DigestCoversNewChecksum := by
  intro b s t hst ht hok
  obtain ⟨u, hc, ⟨herr, -⟩ | ⟨-, old, pre, hL, -, hpre, hcsum, rfl⟩⟩ := exec_reseal_cases hst ht
  case inl => rw [herr] at hok; exact absurd hok (by decide)
  have hlen : u.imageLen = s.imageLen := hc.imageLen.trans (startOf_imageLen _ s)
  rw [resultBuffer_resealed hc, ← hlen]
  exact ⟨pre ++ [u.eng.acc], u.eng.acc, bytes_before hL hpre _ _, List.getLast?_concat, by simpa using hcsum,
    rfl, bytes_trailer hL _ _⟩

end Sys2Proof.Machine
end

section
/-! The image RESEAL makes of a well-formed one, as a buffer (R203, R204), and the laws that follow: RESEAL again (O43), VERIFY
(O44), RESEAL after an edit (O46). -/

namespace Sys2Proof.Machine

/-! Well-formed images (R209). -/

section
variable {m m' : Memory} {L cap : Nat} {n : Byte} {ds : List SegDesc}

/-- A well-formed image depends on its own bytes alone. -/
theorem WellFormedImage.congr (h : WellFormedImage m L cap n ds) (hs : sameBytes m m' L) :
    WellFormedImage m' L cap n ds where
  fits := h.fits
  parses := h.parses.congr (hs.mono (walkEnd_le h.parses.records h.parses.header))
    (walkEnd_le h.parses.records h.parses.header)
  slot := h.slot
  ends := h.ends
  defined := by rw [← hs.bytes (Nat.zero_add L).le]; exact h.defined

theorem WellFormedImage.payload_congr (h : WellFormedImage m L cap n ds) (hL : L < 2 ^ 32) (hs : sameBytes m m' L) :
    payload m ds = payload m' ds :=
  h.parses.payload_congr hL (hs.mono (walkEnd_le h.parses.records h.parses.header))

/-- The slot, the bytes before it and the records' data: what RESEAL reads of a well-formed image (R203, R204). -/
theorem WellFormedImage.parts (h : WellFormedImage m L cap n ds) (hL : L < 2 ^ 32) :
    ∃ bs pre old, payload m ds = some bs ∧ Memory.bytes m 0 (L - 33) = some pre ∧
      Table.get m (L - 33) = some old := by
  have hslot := h.slot
  have hends : 24 + recordsSize ds ≤ L - 33 := h.ends
  have hbyte : ∀ a < L, (Table.get m a).isSome = true := by simpa using Memory.bytes_isSome.1 h.defined
  obtain ⟨bs, hbs⟩ := payload_isSome h.parses.records hL fun a _ ha => hbyte a (by omega)
  obtain ⟨pre, hpre⟩ := Option.isSome_iff_exists.1
    (Memory.bytes_isSome_sub (b := 0) (k := L - 33) h.defined le_rfl (by omega))
  obtain ⟨old, hold⟩ := Option.isSome_iff_exists.1 (hbyte (L - 33) (by omega))
  exact ⟨bs, pre, old, hbs, hpre, hold⟩

/-- A data byte lies between the first record header and the slot. -/
theorem WellFormedImage.dataByte_bounds (h : WellFormedImage m L cap n ds) (hL : L < 2 ^ 32) {a : Nat}
    (ha : isDataByte ds a) : 32 ≤ a ∧ a < L - 33 := by
  obtain ⟨d, hd, hlow, hhigh⟩ := ha
  have hdata := recordsFrom_data h.parses.records hL hd
  have hends : 24 + recordsSize ds ≤ L - 33 := h.ends
  omega

/-- A data byte replaced: the image stays well-formed with the same records, and its data changes in that byte (R213). -/
theorem WellFormedImage.edit (h : WellFormedImage m L cap n ds) (hL : L < 2 ^ 32) {a : Nat} {x : Byte} (y : Byte)
    {bs : List Byte} (ha : isDataByte ds a) (hx : Table.get m a = some x) (hb : payload m ds = some bs) :
    WellFormedImage (Table.set m a y) L cap n ds ∧
      ∃ p q, bs = p ++ x :: q ∧ payload (Table.set m a y) ds = some (p ++ y :: q) := by
  have hbounds := h.dataByte_bounds hL ha
  obtain ⟨hrecords, hdata⟩ := recordsFrom_edit (y := y) h.parses.records hL ha hx hb
  refine ⟨⟨h.fits, ⟨h.parses.header, ?magic, ?count, hrecords⟩, h.slot, h.ends, ?defined⟩, hdata⟩
  case magic => rw [Table.get_set, if_neg (by omega), h.parses.magic]
  case count => rw [Table.get_set, if_neg (by omega), h.parses.count]
  case defined =>
    refine Memory.bytes_isSome.2 fun k hk => ?_
    rw [Table.get_set]
    split
    · rfl
    · exact Memory.bytes_isSome.1 h.defined k hk

end

/-! The resealed image. -/

/-- `m` with the slot and the trailer of an image of length `L` whose records' data is `bs` and whose bytes before the slot
are `pre`. -/
def resealedImage (m : Memory) (L : Nat) (bs pre : List Byte) : Memory :=
  resealedBuffer m L (checksumOf bs) (Config.hash (pre ++ [checksumOf bs]))

section
variable {m m' : Memory} {L cap : Nat} {n : Byte} {ds : List SegDesc} {bs pre : List Byte}

theorem resealedImage_slot (hL : 33 ≤ L) : Table.get (resealedImage m L bs pre) (L - 33) = some (checksumOf bs) := by
  rw [resealedImage, get_resealedBuffer m hL, if_pos rfl]

theorem resealedImage_before (hL : 33 ≤ L) (hpre : Memory.bytes m 0 (L - 33) = some pre) :
    Memory.bytes (resealedImage m L bs pre) 0 (L - 32) = some (pre ++ [checksumOf bs]) :=
  bytes_before hL hpre _ _

theorem resealedImage_trailer (hL : 33 ≤ L) :
    Memory.bytes (resealedImage m L bs pre) (L - 32) 32 = some (Config.hash (pre ++ [checksumOf bs])).toList :=
  bytes_trailer hL _ _

/-- Only the slot and the trailer are written. -/
theorem sameBytes_resealedImage (hL : 33 ≤ L) : sameBytes m (resealedImage m L bs pre) (L - 33) := fun a ha => by
  rw [resealedImage, get_resealedBuffer m hL, if_neg (by omega), if_neg (by omega)]

/-- The slot and the trailer do not depend on what was there before. -/
theorem resealedImage_congr (hL : 33 ≤ L) (hs : sameBytes m m' (L - 33)) :
    sameBytes (resealedImage m L bs pre) (resealedImage m' L bs pre) L := fun a ha => by
  simp only [resealedImage, get_resealedBuffer _ hL]
  by_cases hslot : a = L - 33
  · rw [if_pos hslot, if_pos hslot]
  by_cases htrailer : L - 32 ≤ a ∧ a < L
  · rw [if_neg hslot, if_neg hslot, if_pos htrailer, if_pos htrailer]
  · rw [if_neg hslot, if_neg hslot, if_neg htrailer, if_neg htrailer, hs a (by omega)]

/-- The records end before the slot, so the resealed image is well-formed with the same records and data. -/
theorem WellFormedImage.reseal (h : WellFormedImage m L cap n ds) (hL : L < 2 ^ 32)
    (hb : payload m ds = some bs) (hpre : Memory.bytes m 0 (L - 33) = some pre) :
    WellFormedImage (resealedImage m L bs pre) L cap n ds ∧
      payload (resealedImage m L bs pre) ds = some bs := by
  have hslot := h.slot
  have hs : sameBytes m (resealedImage m L bs pre) (walkEnd ds) := (sameBytes_resealedImage hslot).mono h.ends
  refine ⟨⟨h.fits, h.parses.congr hs (walkEnd_le h.parses.records h.parses.header), hslot, h.ends, ?defined⟩, ?data⟩
  case defined =>
    rw [show L = (L - 32) + 32 by omega, Memory.bytes_add, show L - 32 + 32 = L by omega, resealedImage_before hslot hpre,
      Nat.zero_add, resealedImage_trailer hslot]
    rfl
  case data => rw [← h.parses.payload_congr hL hs, hb]

end

/-! RESEAL and VERIFY of a well-formed image (R208, R230). -/

section
variable {s : State} {cap : Nat} {n : Byte} {ds : List SegDesc} {bs pre : List Byte}

/-- A folding command on an image that parses reaches its own end with the checksum of the data in the accumulator. -/
theorem exec_pastWalk {i : Instr} (hw : walks i) (hfold : walkFolds i = true) (hp : Parses s.img s.imageLen n ds)
    (hb : payload s.img ds = some bs) :
    ∃ u, exec i s = (walkTail i u).toOutcome ∧ Carried i (startOf i s) u ∧ u.imageLen = s.imageLen ∧
      u.eng.acc = checksumOf bs := by
  have hlen := startOf_imageLen i s
  have hend := walkEnd_le hp.records hp.header
  have hs : sameBytes s.img (startOf i s).target (walkEnd ds) :=
    (startOf_sameBytes i s).mono (hend.trans_eq hlen.symm)
  have hp' : Parses (startOf i s).target (startOf i s).imageLen n ds := hp.congr hs (hend.trans_eq hlen.symm)
  have hb' : payload (startOf i s).target ds = some bs := (hp.payload_congr s.eng.len.isLt hs).symm.trans hb
  have hc := carried_afterWalk (walkEntry_cases i) true n bs (startOf i s) hp'.header (count_le n) hp'.records
  refine ⟨afterWalk true (walkEntry i) n ds bs (startOf i s), ?_, hc, hc.imageLen.trans hlen, afterWalk_acc ..⟩
  rw [exec_eq_headWalk hw, hfold, headWalk_ok (quiet_walkEntry i) hp' fun _ => hb']

/-- RESEAL of a well-formed image succeeds, and its result buffer holds the resealed image. -/
theorem exec_reseal_wellFormed {b : Bool} (hst : started (.reseal b) s)
    (h : WellFormedImage s.img s.imageLen cap n ds) (hb : payload s.img ds = some bs)
    (hpre : Memory.bytes s.img 0 (s.imageLen - 33) = some pre) :
    ∃ t, exec (.reseal b) s = .next t ∧ t.status = 0x0A ∧
      sameBytes (resultBuffer b t) (resealedImage s.img s.imageLen bs pre) s.imageLen := by
  have hL := h.slot
  obtain ⟨-, -, old, -, -, hold⟩ := h.parts s.eng.len.isLt
  obtain ⟨u, hexec, hc, hlen, hacc⟩ := exec_pastWalk (i := .reseal b) ⟨nofun, nofun⟩ rfl h.parses hb
  have hs : sameBytes u.target s.img s.imageLen := by rw [hc.target]; exact (working_sameBytes b s).symm
  have htail : walkTail (.reseal b) u = .ok () (resealed u old (Config.hash (pre ++ [u.eng.acc]))) :=
    (slotCheck_fits (hlen ▸ hL)).trans (resealTail_ok (hlen ▸ hL) (by rw [hlen, hs _ (by omega), hold])
      (by rw [hlen, hs.bytes (by omega), hpre]))
  rw [hexec, htail]
  refine ⟨_, rfl, by simp [hc.status, hst.1], ?_⟩
  rw [resultBuffer_resealed hc, hlen, hacc]
  exact resealedImage_congr hL (hs.mono (by omega))

/-- VERIFY of an image whose slot holds the checksum and whose trailer holds the digest: no finding. -/
theorem exec_verify_sealed (hst : started .verify s) (hp : Parses s.img s.imageLen n ds) (hL : 33 ≤ s.imageLen)
    (hb : payload s.img ds = some bs) (hslot : Table.get s.img (s.imageLen - 33) = some (checksumOf bs))
    (hpre : Memory.bytes s.img 0 (s.imageLen - 32) = some pre)
    (htrailer : Memory.bytes s.img (s.imageLen - 32) 32 = some (Config.hash pre).toList) :
    ∃ t, exec .verify s = .next t ∧ t.status = 0x0A := by
  obtain ⟨u, hexec, hc, hlen, hacc⟩ := exec_pastWalk (i := .verify) ⟨nofun, nofun⟩ rfl hp hb
  have htarget : u.target = s.img := hc.target
  have hstatus : u.status = 0x01 := hc.status.trans hst.1
  have htail : walkTail .verify u = .ok () (verified u (checksumOf bs) (Config.hash pre) (Config.hash pre).toList) :=
    (slotCheck_fits (hlen ▸ hL)).trans (verifyTrailer_ok (by rw [htarget, hlen, ← hslot]; rfl)
      (by rw [htarget, hlen, hpre]) (by rw [htarget, hlen, htrailer]))
  rw [hexec, htail]
  refine ⟨_, rfl, ?_⟩
  simp only [verified, hstatus, statusOk_findings, hacc, ne_eq, not_true_eq_false, if_false]
  rfl

end

/-- Settles O43: the first RESEAL wrote the slot and trailer that the second computes from the same data and the same bytes
before the slot. -/
theorem resealIsIdempotent : Obligations.ResealIsIdempotent := by
  intro b b' s n ds hst h
  have hL32 : s.imageLen < 2 ^ 32 := s.eng.len.isLt
  obtain ⟨bs, pre, -, hb, hpre, -⟩ := h.parts hL32
  obtain ⟨t, ht, hok, hres⟩ := exec_reseal_wellFormed hst h hb hpre
  obtain ⟨hwf, hb₁⟩ := h.reseal hL32 hb hpre
  have hunwritten : sameBytes s.img (resealedImage s.img s.imageLen bs pre) (s.imageLen - 33) :=
    sameBytes_resealedImage h.slot
  refine ⟨t, ht, hok, hwf.congr hres.symm, fun s' hst' hlen hs' => ?_⟩
  have hs : sameBytes s'.img (resealedImage s.img s.imageLen bs pre) s.imageLen := hs'.trans hres
  have hwf' : WellFormedImage s'.img s'.imageLen s.cap.toNat n ds := hlen ▸ hwf.congr hs.symm
  have hb' : payload s'.img ds = some bs := (hwf.payload_congr hL32 hs.symm).symm.trans hb₁
  have hbefore : sameBytes s'.img s.img (s.imageLen - 33) := (hs.mono (Nat.sub_le ..)).trans hunwritten.symm
  have hpre' : Memory.bytes s'.img 0 (s'.imageLen - 33) = some pre := by
    rw [hlen, hbefore.bytes (Nat.zero_add _).le, hpre]
  obtain ⟨t', ht', hok', hres'⟩ := exec_reseal_wellFormed hst' hwf' hb' hpre'
  rw [hlen] at hres'
  exact ⟨t', ht', hok', (hres'.trans (resealedImage_congr h.slot hbefore)).trans hres.symm⟩

/-- Settles O44: VERIFY finds the slot and the trailer that RESEAL computed from the same bytes. -/
theorem resealThenVerifyIsClean : Obligations.ResealThenVerifyIsClean := by
  intro b s n ds hst h
  have hL32 : s.imageLen < 2 ^ 32 := s.eng.len.isLt
  obtain ⟨bs, pre, -, hb, hpre, -⟩ := h.parts hL32
  obtain ⟨t, ht, -, hres⟩ := exec_reseal_wellFormed hst h hb hpre
  obtain ⟨hwf, hb₁⟩ := h.reseal hL32 hb hpre
  refine ⟨t, ht, fun s' hst' hlen hs' => ?_⟩
  have hs : sameBytes (resealedImage s.img s.imageLen bs pre) s'.img s.imageLen := (hs'.trans hres).symm
  have hL := h.slot
  obtain ⟨t', ht', hok⟩ := exec_verify_sealed (s := s') (n := n) (ds := ds) (bs := bs) (pre := pre ++ [checksumOf bs]) hst'
    (hlen ▸ (hwf.congr hs).parses) (hlen ▸ hL)
    ((hwf.payload_congr hL32 hs).symm.trans hb₁)
    (by rw [hlen, ← hs _ (by omega), resealedImage_slot hL])
    (by rw [hlen, ← hs.bytes (by omega), resealedImage_before hL hpre])
    (by rw [hlen, ← hs.bytes (by omega), resealedImage_trailer hL])
  exact ⟨t', ht', hok, by rw [State.csumMismatch, hok]; rfl, by rw [State.digestMismatch, hok]; rfl⟩

/-- Two memories that read as the same byte string hold the same cells there. -/
theorem get_eq_of_bytes_eq {m m' : Memory} {k a : Nat} {bs : List Byte} (h : Memory.bytes m 0 k = some bs)
    (h' : Memory.bytes m' 0 k = some bs) (ha : a < k) : Table.get m a = Table.get m' a := by
  have hm := (Memory.bytes_eq_some.1 h).2 a ha
  have hm' := (Memory.bytes_eq_some.1 h').2 a ha
  rw [Nat.zero_add] at hm hm'
  exact hm.trans hm'.symm

/-- Settles O46: the edited image is well-formed with the same records, its checksum is the old one with both values of the
byte folded in, and the slot is a byte of the digest's input. -/
theorem editThenReseal : Obligations.EditThenReseal := by
  intro b s n ds img bs pre a x y hst h hb hslot hpre _ ha hx himg
  have hL32 : s.imageLen < 2 ^ 32 := s.eng.len.isLt
  have hL := h.slot
  obtain ⟨hwf, p, q, rfl, hb'⟩ := h.edit hL32 y ha hx hb
  rw [← himg] at hwf hb'
  obtain ⟨-, pre₁, -, -, hpre₁, -⟩ := hwf.parts hL32
  obtain ⟨t, ht, hok, hres⟩ := exec_reseal_wellFormed hst hwf hb' hpre₁
  have hslot' : Table.get (resultBuffer b t) (s.imageLen - 33) = some (checksumOf (p ++ x :: q) ^^^ x ^^^ y) := by
    rw [hres _ (by omega), resealedImage_slot hL, checksumOf_edit p q x y]
  have hpre' : Memory.bytes (resultBuffer b t) 0 (s.imageLen - 32) = some (pre₁ ++ [checksumOf (p ++ y :: q)]) := by
    rw [hres.bytes (by omega), resealedImage_before hL hpre₁]
  have hiff := xor_xor_ne_iff (checksumOf (p ++ x :: q)) x y
  refine ⟨t, _, ht, hok, hslot', hiff, hpre', fun hne hsep => ?_⟩
  have hinputs : pre ≠ pre₁ ++ [checksumOf (p ++ y :: q)] := by
    rintro rfl
    have hsame := get_eq_of_bytes_eq hpre hpre' (show s.imageLen - 33 < s.imageLen - 32 by omega)
    rw [hslot, hslot', Option.some.injEq] at hsame
    exact hiff.2 hne hsame.symm
  rw [hres.bytes (by omega), resealedImage_trailer hL, ne_eq, Option.some.injEq, Vector.toList_inj]
  exact (hsep hinputs).symm

end Sys2Proof.Machine
end

section
/-! VERIFY answers STATUS `0x0A` only of a sealed image, and RESEAL leaves a sealed image as it is (O45). -/

namespace Sys2Proof.Machine

/-! Sealed images: what a clean VERIFY says of the bytes (R230). Unlike in a well-formed image, the records may run into
the slot and the trailer (R98, R209). -/

/-- The image of length `L` in `m` parses with data `bs`, the slot holds the checksum of `bs`, and the trailer holds the
digest of the bytes `pre` before the slot followed by that checksum. -/
structure SealedImage (m : Memory) (L : Nat) (n : Byte) (ds : List SegDesc) (bs pre : List Byte) : Prop where
  parses : Parses m L n ds
  data : payload m ds = some bs
  slotFits : 33 ≤ L
  before : Memory.bytes m 0 (L - 33) = some pre
  slot : Table.get m (L - 33) = some (checksumOf bs)
  trailer : Memory.bytes m (L - 32) 32 = some (Config.hash (pre ++ [checksumOf bs])).toList

section
variable {m m' : Memory} {L : Nat} {n : Byte} {ds : List SegDesc} {bs pre : List Byte}

/-- A sealed image depends on its own bytes alone. -/
theorem SealedImage.congr (h : SealedImage m L n ds bs pre) (hL : L < 2 ^ 32) (hs : sameBytes m m' L) :
    SealedImage m' L n ds bs pre := by
  have hslot := h.slotFits
  have hend := walkEnd_le h.parses.records h.parses.header
  have hwalk : sameBytes m m' (walkEnd ds) := hs.mono hend
  exact {
    parses := h.parses.congr hwalk hend
    data := (h.parses.payload_congr hL hwalk).symm.trans h.data
    slotFits := hslot
    before := (hs.bytes (by omega)).symm.trans h.before
    slot := (hs _ (by omega)).symm.trans h.slot
    trailer := (hs.bytes (by omega)).symm.trans h.trailer }

/-- RESEAL's two writes put into a sealed image the bytes it holds (R203, R204). -/
theorem SealedImage.sameBytes_resealedImage (h : SealedImage m L n ds bs pre) :
    sameBytes (resealedImage m L bs pre) m L := fun a ha => by
  rw [resealedImage, get_resealedBuffer m h.slotFits]
  split
  case isTrue hslot => rw [hslot, h.slot]
  case isFalse =>
    split
    case isTrue htrailer =>
      obtain ⟨hlow, -⟩ := htrailer
      rw [← (Memory.bytes_eq_some.1 h.trailer).2 (a - (L - 32)) (by omega), Nat.add_sub_cancel' hlow]
    case isFalse => rfl

/-- The digest's input is the bytes before the slot, then the slot (R98). -/
theorem Memory.bytes_before_slot {b : Byte} (hL : 33 ≤ L) (hpre : Memory.bytes m 0 (L - 32) = some pre)
    (hslot : Table.get m (L - 33) = some b) :
    ∃ front, Memory.bytes m 0 (L - 33) = some front ∧ pre = front ++ [b] := by
  have hfront := Memory.bytes_take hpre (show L - 33 ≤ L - 32 by omega)
  have hwhole := Memory.bytes_snoc hfront (by rw [Nat.zero_add, hslot])
  rw [show L - 33 + 1 = L - 32 by omega, hpre] at hwhole
  exact ⟨_, hfront, Option.some.inj hwhole⟩

end

/-! VERIFY's STATUS `0x0A`, read backwards: no error and no finding (R230, R232). -/

/-- The success epilogue leaves `0x0A` exactly where neither comparison found a mismatch. -/
theorem statusOk_findings_clean_iff (p q : Prop) [Decidable p] [Decidable q] :
    statusOk (writeFlag (writeFlag 0x01 csumMismatchBit (decide p)) digestMismatchBit (decide q)) = 0x0A ↔ ¬p ∧ ¬q := by
  rw [statusOk_findings]
  by_cases hp : p <;> by_cases hq : q <;> simp [hp, hq]

section
variable {s t u : State}

/-- A started command that raises does not show a success (R256). -/
theorem status_ne_ok_of_raised {r : Res Unit} {e : ErrCode} {f : ErrField} {o g : Nat}
    (hr : r = .raised (errorState e f o g u)) (hu : u.status = 0x01) (ht : r.toOutcome = .next t) : t.status ≠ 0x0A := by
  subst hr
  cases ht
  rw [errorState_status, hu]
  decide

/-- VERIFY past the walk, without an error and without a finding: the slot fits and holds the accumulator, and the trailer
holds the digest of the bytes before it. -/
theorem verifyTail_clean (hu : u.status = 0x01) (ht : (walkTail .verify u).toOutcome = .next t) (hok : t.status = 0x0A) :
    ∃ pre, 33 ≤ u.imageLen ∧ Table.get u.target (u.imageLen - 33) = some u.eng.acc ∧
      Memory.bytes u.target 0 (u.imageLen - 32) = some pre ∧
      Memory.bytes u.target (u.imageLen - 32) 32 = some (Config.hash pre).toList := by
  by_cases hshort : u.imageLen < 33
  case pos => exact absurd hok (status_ne_ok_of_raised (walkTail_short (i := .verify) trivial hshort) hu ht)
  case neg =>
    have hL : 33 ≤ u.imageLen := Nat.not_lt.1 hshort
    rw [walkTail, slotCheck_fits hL] at ht
    rcases verifyTrailer_cases u with ⟨slot, pre, trailer, hslot, hpre, htrailer, e⟩ | ⟨-, e⟩
    · rw [e] at ht
      cases ht
      simp only [verified, hu, statusOk_findings_clean_iff, not_not] at hok
      obtain ⟨rfl, rfl⟩ := hok
      exact ⟨pre, hL, hslot, hpre, htrailer⟩
    · rw [e] at ht
      cases ht

/-- A VERIFY with STATUS `0x0A` has parsed the header and walked records whose data is defined. -/
theorem exec_verify_parses (hst : started .verify s) (ht : exec .verify s = .next t) (hok : t.status = 0x0A) :
    ∃ n ds bs, Parses s.img s.imageLen n ds ∧ payload s.img ds = some bs := by
  rw [exec_eq_headWalk (i := .verify) ⟨nofun, nofun⟩] at ht
  rcases headWalk_cases (quiet_walkEntry .verify) (walkFolds .verify) (walkTail .verify) (startOf .verify s) with
    ⟨-, e⟩ | ⟨m, -, -, -, e⟩ | ⟨n, j, ds, bs, f, o, hlen, -, -, hj, hd, -, -, e⟩ | ⟨n, ds, bs, hp, hb, -⟩ | ⟨-, e⟩
  · exact absurd hok (status_ne_ok_of_raised e hst.1 ht)
  · exact absurd hok (status_ne_ok_of_raised e hst.1 ht)
  · have hc := carried_afterWalk (walkEntry_cases .verify) (walkFolds .verify) n bs (startOf .verify s) hlen
      (hj.le.trans (count_le n)) hd
    exact absurd hok (status_ne_ok_of_raised e (hc.status.trans hst.1) ht)
  · exact ⟨n, ds, bs, hp, hb rfl⟩
  · rw [e] at ht
    cases ht

/-- VERIFY ends with STATUS `0x0A` only of a sealed image (R230). -/
theorem sealedImage_of_exec_verify (hst : started .verify s) (ht : exec .verify s = .next t) (hok : t.status = 0x0A) :
    ∃ n ds bs pre, SealedImage s.img s.imageLen n ds bs pre := by
  obtain ⟨n, ds, bs, hp, hb⟩ := exec_verify_parses hst ht hok
  obtain ⟨u, hexec, hc, hlen, hacc⟩ := exec_pastWalk (i := .verify) ⟨nofun, nofun⟩ rfl hp hb
  have htarget : u.target = s.img := hc.target
  obtain ⟨input, hL, hslot, hinput, htrailer⟩ :=
    verifyTail_clean (hc.status.trans hst.1) (hexec.symm.trans ht) hok
  rw [hlen] at hL
  rw [htarget, hlen, hacc] at hslot
  rw [htarget, hlen] at hinput htrailer
  obtain ⟨pre, hpre, rfl⟩ := Memory.bytes_before_slot hL hinput hslot
  exact ⟨n, ds, bs, pre, hp, hb, hL, hpre, hslot, htrailer⟩

/-! RESEAL of a sealed image (R208, R233). -/

/-- RESEAL of a sealed image succeeds, and its result buffer holds the image's own bytes. -/
theorem exec_reseal_sealed {b : Bool} {n : Byte} {ds : List SegDesc} {bs pre : List Byte} (hst : started (.reseal b) s)
    (h : SealedImage s.img s.imageLen n ds bs pre) :
    ∃ t, exec (.reseal b) s = .next t ∧ t.status = 0x0A ∧ sameBytes (resultBuffer b t) s.img s.imageLen := by
  obtain ⟨u, hexec, hc, hlen, hacc⟩ := exec_pastWalk (i := .reseal b) ⟨nofun, nofun⟩ rfl h.parses h.data
  have hs : sameBytes s.img u.target s.imageLen := by rw [hc.target]; exact working_sameBytes b s
  have hu : SealedImage u.target u.imageLen n ds bs pre := by rw [hlen]; exact h.congr s.eng.len.isLt hs
  have htail : walkTail (.reseal b) u = .ok () (resealed u (checksumOf bs) (Config.hash (pre ++ [u.eng.acc]))) :=
    (slotCheck_fits hu.slotFits).trans (resealTail_ok hu.slotFits hu.slot hu.before)
  rw [hexec, htail]
  refine ⟨_, rfl, by simp [hc.status, hst.1], ?_⟩
  rw [resultBuffer_resealed hc, hlen, hacc]
  exact (hlen ▸ hu.sameBytes_resealedImage).trans hs.symm

end

/-- Settles O45: the slot and the trailer that VERIFY found right are the ones RESEAL writes. -/
theorem verifyCleanMakesResealNoop : Obligations.VerifyCleanMakesResealNoop := by
  intro b s t s' hst ht hok hst' hlen hs
  have hL : s.imageLen < 2 ^ 32 := s.eng.len.isLt
  obtain ⟨n, ds, bs, pre, h⟩ := sealedImage_of_exec_verify hst ht hok
  have h' : SealedImage s'.img s'.imageLen n ds bs pre := by rw [hlen]; exact h.congr hL hs.symm
  obtain ⟨t', ht', hok', hres⟩ := exec_reseal_sealed hst' h'
  exact ⟨t', ht', hok', (hlen ▸ hres).trans hs⟩

end Sys2Proof.Machine
end

section
/-! BAD_MAGIC (O26): the error every command but DIGEST takes from the header parser, and the codes DIGEST can end with. -/

namespace Sys2Proof.Machine

/-! An error of the header parser ends the command (R251, R256). -/

/-- Every command but DIGEST begins with the header parser, so the parser's error is how the command ends. -/
theorem exec_of_headerParse_raised {i : Instr} {s u : State} (hi : i ≠ .digest)
    (h : headerParse (startOf i s) = .raised u) : exec i s = .next u := by
  by_cases hp : i = .hdrParse
  case pos =>
    subst hp
    exact congrArg (fun r : Res Nat => (r.andThen fun _ s => finishOk s).toOutcome) h
  case neg => rw [exec_eq_headWalk ⟨hp, hi⟩, headWalk, h, Res.andThen_raised, Res.toOutcome_raised]

/-- The start of a rule moves nothing but OUT and the hidden state (R201). -/
theorem startOf_eq (i : Instr) (s : State) : startOf i s = { s with out := (startOf i s).out, eng := (startOf i s).eng } :=
  startOf_ind (P := fun u => u = { s with out := u.out, eng := u.eng }) (fun _ => rfl) rfl i

/-- Of the commands only RESEAL has an FSM state to reject (R256). -/
theorem started.rejected {i : Instr} {s : State} (hst : started i s) :
    (if s.fsm = .idle then .idle else .rejected) = if i.op = 0x06 then Fsm.rejected else s.fsm := by
  by_cases hop : i.op = 0x06
  case pos =>
    have hfsm : s.fsm = .loaded := hst.2.trans (if_pos hop)
    rw [hfsm, if_pos hop]
    rfl
  case neg =>
    have hfsm : s.fsm = .idle := hst.2.trans (if_neg hop)
    rw [if_neg hop, if_pos hfsm, hfsm]

/-- The state in which BAD_MAGIC leaves a started command (R251, R256). -/
theorem errorState_badMagic_startOf {i : Instr} {s : State} (hst : started i s) (m : Byte) :
    errorState .badMagic .magic 0 0 { startOf i s with magic := m.toWord } =
      { s with
        magic := m.toWord, status := 0x06, errCode := 0x01, errField := 1, errOffset := 0, errSeg := 0
        fsm := if i.op = 0x06 then .rejected else s.fsm
        out := (startOf i s).out, eng := Engine.none } := by
  have hstatus : statusError s.status = 0x06 := hst.1 ▸ statusError_one
  rw [startOf_eq, ← hst.rejected, ← hstatus]
  rfl

/-- The header parser of every command finds the byte IMG holds at offset 0 (R120, R251). -/
theorem headerParse_startOf_badMagic (i : Instr) {s : State} {m : Byte} (hL : 24 ≤ s.imageLen)
    (hm : Table.get s.img 0 = some m) (hne : m ≠ 0xE9) :
    headerParse (startOf i s) = .raised (errorState .badMagic .magic 0 0 { startOf i s with magic := m.toWord }) := by
  have hL' : 24 ≤ (startOf i s).imageLen := by rwa [startOf_imageLen]
  have hbyte : Table.get (startOf i s).target 0 = some m := (startOf_sameBytes i s 0 (by omega)).symm.trans hm
  exact headerParse_badMagic hL' hbyte hne

/-! DIGEST has no header parser (R183). -/

/-- The only error DIGEST can raise is TOO_SHORT. -/
theorem exec_digest_errCode {s t : State} (ht : exec .digest s = .next t) :
    t.errCode = errCodeNumber .tooShort ∨ t.errCode = s.errCode := by
  by_cases hL : s.imageLen < 32
  case pos =>
    rw [exec_digest_short hL] at ht
    cases ht
    exact .inl rfl
  case neg =>
    have hL32 : 32 ≤ s.imageLen := Nat.not_lt.1 hL
    cases hb : Memory.bytes s.img 0 (s.imageLen - 32) with
    | none =>
      rw [exec_digest_undefined hL32 hb] at ht
      cases ht
    | some bs =>
      rw [exec_digest_succeeds hL32 hb] at ht
      cases ht
      exact .inr rfl

/-- Settles O26: the header parser's magic test fails before anything but the start of the rule has run; DIGEST has no such test. -/
theorem badMagicIsReported : Obligations.BadMagicIsReported := by
  refine ⟨fun i s m hi hst hL hm hne => ?reported, fun s t h0 ht => ?digest⟩
  case reported =>
    have hexec := exec_of_headerParse_raised hi (headerParse_startOf_badMagic i hL hm hne)
    rw [errorState_badMagic_startOf hst] at hexec
    exact ⟨_, hexec, rfl, get_startOf_out i s⟩
  case digest =>
    rcases exec_digest_errCode ht with h | h
    · rw [h]; decide
    · rw [h, h0]; decide

end Sys2Proof.Machine
end

section
/-! The command word (O1, O2, O4): the legal words are the encodings, and the decoder gives each its command. -/

namespace Sys2Proof

/-- A word is its three fields, so the fields of a command's word make no other word (R90 to R92). -/
theorem decodeWord_eq_ok_iff {w : Word} {i : Instr} : decodeWord w = .ok i ↔ w = encode i := by
  rw [decodeWord_eq_ok_fields]
  constructor
  · rintro ⟨hrsv, hop, hinplace⟩
    rw [word_eq_fields w, hrsv, hop, hinplace]
    rfl
  · rintro rfl
    exact ⟨rsvOf_encode i, opOf_encode i, inplaceOf_encode i⟩

/-- Settles O2. -/
theorem wordDecodesToExactlyItsEncoding : Obligations.WordDecodesToExactlyItsEncoding :=
  fun _ _ => decodeWord_eq_ok_iff

/-- Settles O1: the bytes of a word decode as the word does, and an encoding decodes to its command. -/
theorem decodeInvertsEncode : Obligations.DecodeInvertsEncode := by
  intro i rest _
  rw [encodeBytes, decode_bytesOfWord, decodeWord_eq_ok_iff.2 rfl]
  rfl

/-- Settles O4: each word of the opcode map is the encoding of its command. -/
theorem specWordsDecode : Obligations.SpecWordsDecode := by
  simp only [Obligations.SpecWordsDecode, decodeWord_eq_ok_iff]
  decide

end Sys2Proof
end

section
/-! Little-endian words and what the registers show (O10, O18, O20, O21, O35). -/

namespace Sys2Proof.Machine

/-- Settles O18: four bytes lose nothing in a word. -/
theorem littleEndianWord : Obligations.LittleEndianWord := by
  intro b0 b1 b2 b3
  rw [leWord_toNat (show [b0, b1, b2, b3].length ≤ 4 by simp)]
  simp only [leNat]
  omega

/-- Settles O35: DIGESTk is the word of its four bytes. -/
theorem digestPacking : Obligations.DigestPacking := by
  intro d k hk
  rw [packDigest, Vector.getElem_ofFn]
  exact littleEndianWord _ _ _ _

/-- Settles O21. -/
theorem fsmEncoding : Obligations.FsmEncoding := ⟨rfl, rfl, rfl, rfl, rfl, rfl, rfl⟩

/-- The registers in the order of the map (R23 to R39). -/
def registerList (s : State) : List Word :=
  [s.cmd, s.status, fsmCode s.fsm, s.len, s.errCode, s.errField, s.errOffset, s.errSeg, s.magic, s.segCount, s.segDone,
    s.cursor, s.trailerStart, s.csum, s.csumStored, s.cap] ++ s.digest.toList

/-- The register window shows the registers in their order, and 0 after the last (R40). -/
theorem readReg_eq_getD (s : State) (k : Nat) : readReg s k = (registerList s).getD k 0 := by
  have hlen : (registerList s).length = 24 := by simp [registerList]
  by_cases hk : k < 24
  · interval_cases k <;> simp [registerList, readReg]
  · rw [readReg_reserved s (by omega), List.getD_eq_default _ _ (by omega)]

theorem busRead_reg (width : Nat) {addr : Addr} (s : State) (h : addr.toNat < 0x100) :
    busRead width addr s = some (readReg s (addr.toNat / 4)) := by
  simp only [busRead, regionOf_reg h]

/-- Settles O20: an aligned 32-bit read of word `k` of the window. -/
theorem registerMap : Obligations.RegisterMap := by
  intro s k addr rest hb hk haddr hm
  refine step_hostRead hb (shapeAllowed_word (by omega)) hm ?_
  rw [busRead_reg 4 _ (by omega), readReg_eq_getD, haddr, Nat.mul_div_cancel_left k (by decide)]
  rfl

theorem config_cap_le : Config.cap ≤ 2 ^ 24 := Config.capLessOne.isLt

theorem cap_toNat_reset : State.reset.cap.toNat = Config.cap := by
  have h := config_cap_le
  rw [State.reset, BitVec.toNat_ofNat, Nat.mod_eq_of_lt (by omega)]

/-- Settles O10: before word 15 and after it the window shows the registers a reset makes 0, and the reserved words. -/
theorem registersAfterReset : Obligations.RegistersAfterReset := by
  intro k _
  rcases Nat.lt_trichotomy k 15 with hk | rfl | hk
  · rw [if_neg hk.ne]
    interval_cases k <;> rfl
  · exact cap_toNat_reset
  · rw [if_neg hk.ne']
    by_cases hdigest : k < 24
    · interval_cases k <;> rfl
    · rw [readReg_reserved _ (by omega)]
      rfl

end Sys2Proof.Machine
end

section
/-! One step, by the agent whose turn it is (O5, O6, O8, O9, O12), and HOST's accesses (O13, O14, O17, O19, O22). -/

namespace Sys2Proof.Machine

/-! The agents' steps (R69, R95, R280). -/

section
variable {s : State}

theorem step_of_host (h : nextTurn s = .host) : step s = hostStep (popTurn s) := by
  rw [step, h]

theorem step_of_engine (h : nextTurn s = .engine) : step s = engineStep (popTurn s) := by
  rw [step, h]

theorem step_of_reset (h : nextTurn s = .reset) : step s = .next (resetBlock (popTurn s)) := by
  rw [step, h]

theorem engineStep_busy {i : Instr} (hb : s.busy = true) (hi : latchedInstr s = some i) : engineStep s = exec i s := by
  rw [engineStep, if_pos hb, hi]

theorem engineStep_idle (hb : s.busy = false) : engineStep s = .next s := by
  rw [engineStep, hb, if_neg Bool.false_ne_true]

/-- ENGINE reads back from the latch the command that was decoded at issue (R95). -/
theorem latchedInstr_of_latch {i : Instr} (hop : s.eng.op = i.op) (hinplace : s.eng.inplace = i.inplaceBit) :
    latchedInstr s = some i := by
  have hword : latchedWord s = encode i := by rw [latchedWord, hop, hinplace]; rfl
  have hdecode := decode_bytesOfWord (encode i) []
  rw [List.append_nil, decodeWord_eq_ok_iff.2 rfl] at hdecode
  rw [latchedInstr, hword, hdecode]
  rfl

end

/-- Settles O5. -/
theorem stepPerformsLatchedCommand : Obligations.StepPerformsLatchedCommand :=
  fun _ _ hturn hb hi => (step_of_engine hturn).trans (engineStep_busy hb hi)

/-- Settles O8. -/
theorem engineIdleChangesNothing : Obligations.EngineIdleChangesNothing :=
  fun _ hturn hb => (step_of_engine hturn).trans (engineStep_idle hb)

/-- Settles O6: the accepted word has set BUSY and latched the command's own fields. -/
theorem handedWordRunsNext : Obligations.HandedWordRunsNext := by
  intro s nbits w i hw
  rw [decodeTableWord_eq_some] at hw
  obtain ⟨-, hop, hinplace⟩ := decodeWord_eq_ok_fields.1 hw
  have hhand : s.withFetchWord nbits w = { acceptCommand (tableWord nbits w) s with turns := .engine :: s.turns } := by
    simp only [State.withFetchWord, handWord, hw]
  rw [hhand, step_of_engine rfl]
  refine engineStep_busy (i := i) ?_ (latchedInstr_of_latch hop hinplace)
  show (statusIssued).getLsbD busyBit = true
  decide

/-- Settles O9. -/
theorem resetAtAnyMoment : Obligations.ResetAtAnyMoment :=
  fun _ hturn => ⟨_, step_of_reset hturn, rfl, BitVec.getLsbD_zero, fun _ => ⟨rfl, rfl, rfl⟩⟩

theorem step_wait {s : State} {rest : List HostItem} (hturn : nextTurn s = .host) (hp : s.pending = .wait :: rest) :
    step s = .next (waitPoll rest (popTurn s)) := by
  have hp' : (popTurn s).pending = .wait :: rest := hp
  simp only [step_of_host hturn, hostStep, hp']

/-- Settles O12: bit 0 of the value read is BUSY. -/
theorem waitPollsStatus : Obligations.WaitPollsStatus :=
  fun _ _ hturn hp => step_wait hturn hp

/-! HOST's accesses (R62, R65, R283). -/

/-- Settles O13: the hazard test comes before every other test of an access. -/
theorem busyAllowsOnlyStatusReads : Obligations.BusyAllowsOnlyStatusReads := by
  intro s a rest hb hm
  rw [hostMakes_step hm]
  refine ⟨fun ha => busAccess_hazard (by simpa using hb) ha, fun ha => ?statusRead, fun hinv => ?status⟩
  case statusRead => exact ha ▸ busAccess_status (afterItem s rest)
  case status =>
    obtain ⟨i, hi⟩ := hinv.busy hb
    exact hi.status

/-- An access of an allowed shape is never BusFault (R62). -/
theorem busAccess_ne_busFault {a : Access} {s : State} (ha : shapeAllowed (accessWidth a) (accessAddr a)) (hb : s.busy = false) :
    busAccess a s ≠ .fault .busFault := by
  cases a with
  | write width addr v =>
    exact fun h => nomatch (busAccess_write hb ha).symm.trans h
  | read width addr =>
    cases hv : busRead width addr s with
    | none => exact fun h => nomatch (busAccess_read_undefined hb ha hv).symm.trans h
    | some v => exact fun h => nomatch (busAccess_read hb ha hv).symm.trans h

/-- Settles O14. -/
theorem busFaultExactlyOnBadShape : Obligations.BusFaultExactlyOnBadShape := by
  intro s a rest hb hm
  rw [hostMakes_step hm]
  exact ⟨fun hfault ha => busAccess_ne_busFault ha (by simpa using hb) hfault,
    fun ha => busAccess_badShape (by simpa using hb) ha⟩

theorem step_hostRead_undefined {s : State} {width : Nat} {addr : Addr} {rest : List HostItem} (hb : s.busy = false)
    (ha : shapeAllowed width addr) (hm : hostMakes s (.read width addr) rest)
    (hv : busRead width addr (afterItem s rest) = none) : step s = .fault .undefinedRead := by
  rw [hostMakes_step hm, busAccess_read_undefined (by simpa using hb) ha hv]

/-- A window read meets an undefined byte exactly where one of its bytes below CAP is undefined (R11, R60). -/
theorem windowBytes_eq_none {m : Memory} {cap a n k : Nat} (hk : k < n) (hc : a + k < cap)
    (hu : Table.get m (a + k) = none) : windowBytes m cap a n = none := by
  cases h : windowBytes m cap a n with
  | none => rfl
  | some bs =>
    obtain ⟨hlen, hget⟩ := windowBytes_eq_some.1 h
    have hbyte := hget k hk
    rw [if_pos hc, hu, List.getElem?_eq_getElem (by omega)] at hbyte
    cases hbyte

/-- Both windows read their buffer from the offset in the window (R60). -/
theorem busRead_window {s : State} {width o : Nat} {addr : Addr} {m : Memory} (ho : o < 0x1000000)
    (hm : (addr.toNat = 0x1000000 + o ∧ m = s.img) ∨ (addr.toNat = 0x2000000 + o ∧ m = s.out)) :
    busRead width addr s = (windowBytes m s.cap.toNat o width).map leWord := by
  rcases hm with ⟨haddr, rfl⟩ | ⟨haddr, rfl⟩
  · rw [busRead_img width s (by omega), haddr, Nat.add_sub_cancel_left]
  · rw [busRead_out width s (by omega), haddr, Nat.add_sub_cancel_left]

/-- Settles O17. -/
theorem windowReads : Obligations.WindowReads := by
  intro s width o addr rest hb ha hm ho m hwindow
  have hread := busRead_window (s := afterItem s rest) (width := width) ho hwindow
  refine ⟨fun bs hlen hbytes => ?value, fun ⟨k, hk, hc, hu⟩ => ?undefined⟩
  case value =>
    refine step_hostRead hb ha hm ?_
    rw [hread, afterItem_cap, windowBytes_eq_some.2 ⟨hlen, fun k hk => (hbytes k hk).symm⟩]
    rfl
  case undefined =>
    refine step_hostRead_undefined hb ha hm ?_
    rw [hread, afterItem_cap, windowBytes_eq_none hk hc hu]
    rfl

/-! What a read depends on (R65). -/

/-- A read that completes was allowed, and has added the bus's value to HOST's reads. -/
theorem busAccess_read_next {width : Nat} {addr : Addr} {s t : State} (h : busAccess (.read width addr) s = .next t) :
    (s.busy = true → isStatusRead (.read width addr) = true) ∧ accessAllowed width addr = true ∧
      ∃ v, busRead width addr s = some v ∧ t = { s with reads := v :: s.reads } := by
  rw [busAccess] at h
  split at h
  case isTrue => cases h
  case isFalse hhazard =>
    split at h
    case isFalse => cases h
    case isTrue hallowed =>
      split at h
      case h_2 => cases h
      case h_1 v hv =>
        cases h
        exact ⟨by simpa using hhazard, hallowed, v, hv, rfl⟩

/-- The converse: such a read completes. -/
theorem busAccess_read_of_allowed {width : Nat} {addr : Addr} {s : State} {v : Word}
    (hbusy : s.busy = true → isStatusRead (.read width addr) = true) (hallowed : accessAllowed width addr = true)
    (hv : busRead width addr s = some v) :
    busAccess (.read width addr) s = .next { s with reads := v :: s.reads } := by
  have hhazard : ¬ (s.busy && !isStatusRead (.read width addr)) = true := by simpa using hbusy
  rw [busAccess, if_neg hhazard]
  simp only [if_pos hallowed, hv]

/-- The bus shows the block alone. -/
theorem sameBlock.busRead {s s' : State} (h : sameBlock s s') (width : Nat) (addr : Addr) :
    busRead width addr s' = busRead width addr s := by
  rw [h]
  rfl

theorem sameBlock.busy {s s' : State} (h : sameBlock s s') : s'.busy = s.busy := by
  rw [h]
  rfl

/-- HOST's data is no part of the block. -/
theorem sameBlock_hostData (s : State) (pending : List HostItem) (turns : List Turn) (reads : List Word) :
    sameBlock s { s with pending := pending, turns := turns, reads := reads } := rfl

/-- Settles O19: a read looks at the block's state alone and writes HOST's list alone. -/
theorem readsHaveNoSideEffect : Obligations.ReadsHaveNoSideEffect := by
  intro s t width addr rest hm ht
  rw [hostMakes_step hm] at ht
  obtain ⟨hbusy, hallowed, v, hv, rfl⟩ := busAccess_read_next ht
  refine ⟨sameBlock_hostData s _ _ _, v, rfl, fun s' rest' hsame hm' => ?_⟩
  rw [hostMakes_step hm']
  exact ⟨_, busAccess_read_of_allowed (by rw [afterItem_busy, hsame.busy]; exact hbusy) hallowed
    ((hsame.busRead width addr).trans hv), rfl⟩

/-! The SEGTAB window (R41, R60). -/

theorem busRead_segtab (width : Nat) {addr : Addr} (s : State) (h : 0x1000 ≤ addr.toNat ∧ addr.toNat < 0x2000) :
    busRead width addr s = readSegtab s.segtab (addr.toNat - 0x1000) := by
  simp only [busRead, regionOf_segtab h.1 h.2]

/-- The fourth word of an entry and the 16 bytes after the last entry. -/
theorem readSegtab_zero (t : Table SegDesc) {i j : Nat} (hj : j < 4) (h : j = 3 ∨ 255 ≤ i) :
    readSegtab t (16 * i + 4 * j) = some 0 := by
  have hindex : (16 * i + 4 * j) / 16 = i := by omega
  have hword : (16 * i + 4 * j) % 16 / 4 = j := by omega
  simp only [readSegtab, hindex, hword, Config.segMax]
  by_cases hi : i ≥ 255
  · rw [if_pos hi]
  · obtain rfl : j = 3 := by omega
    exact if_neg hi

/-- The three words of an entry. -/
theorem readSegtab_entry (t : Table SegDesc) {i j : Nat} (hj : j < 3) (hi : i < 255) :
    readSegtab t (16 * i + 4 * j) = (Table.get t i).map fun d => [d.loadAddr, d.dataLen, d.dataOff].getD j 0 := by
  have hindex : (16 * i + 4 * j) / 16 = i := by omega
  have hword : (16 * i + 4 * j) % 16 / 4 = j := by omega
  simp only [readSegtab, hindex, hword, Config.segMax, if_neg (Nat.not_le.2 hi)]
  interval_cases j <;> rfl

/-- Settles O22. -/
theorem segtabReads : Obligations.SegtabReads := by
  intro s i j addr rest hb hi hj haddr hm
  have hshape : shapeAllowed 4 addr := shapeAllowed_word (by omega)
  have hread : busRead 4 addr (afterItem s rest) = readSegtab s.segtab (16 * i + 4 * j) := by
    rw [busRead_segtab 4 _ (by omega), haddr, Nat.add_assoc, Nat.add_sub_cancel_left, afterItem_segtab]
  refine ⟨fun hzero => ?zero, fun hj3 hi255 => ⟨fun d hd => ?defined, fun hu => ?undefined⟩⟩
  case zero => exact step_hostRead hb hshape hm (hread.trans (readSegtab_zero _ hj (by omega)))
  case defined => exact step_hostRead hb hshape hm (by rw [hread, readSegtab_entry _ hj3 hi255, hd]; rfl)
  case undefined => exact step_hostRead_undefined hb hshape hm (by rw [hread, readSegtab_entry _ hj3 hi255, hu]; rfl)

end Sys2Proof.Machine
end

section
/-! What every command that completes leaves: HOST's registers and data (O47), FSM (O42), STATUS (O50), the buffers (O48) and
SEGTAB (O49), derived from the two ends of `exec_completes`. -/

namespace Sys2Proof.Machine

/-! The two ends of a command that answers a next state (R95, R256). -/

/-- By an error of its own rule, or by its own success. -/
theorem exec_next_cases {i : Instr} {s t : State} (ht : exec i s = .next t) :
    ∃ u, Carried i (startOf i s) u ∧
      ((∃ e f o g, t = errorState e f o g u ∧ o ≤ s.imageLen ∧ g ≤ 254) ∨ Ends i u t) := by
  rcases exec_completes i s with ⟨u, e, f, o, g, hc, h, ho, hg⟩ | ⟨u, t', hc, h, hend⟩ | ⟨-, h⟩
  · cases ht.symm.trans h
    rw [startOf_imageLen] at ho
    exact ⟨u, hc, .inl ⟨e, f, o, g, rfl, ho, hg⟩⟩
  · cases ht.symm.trans h
    exact ⟨u, hc, .inr hend⟩
  · cases ht.symm.trans h

/-- What a success keeps of the state `u` its rule has reached, and the values of the other registers but STATUS and DIGEST. -/
structure EndFrame (i : Instr) (u t : State) : Prop where
  cmd : t.cmd = u.cmd
  fsm : t.fsm = if i.op = 0x06 then .resealed else u.fsm
  len : t.len = u.len
  errCode : t.errCode = u.errCode
  errField : t.errField = u.errField
  errOffset : t.errOffset = u.errOffset
  errSeg : t.errSeg = u.errSeg
  magic : t.magic = u.magic
  segCount : t.segCount = u.segCount
  segDone : t.segDone = u.segDone
  cursor : t.cursor = u.cursor
  trailerStart : t.trailerStart = u.trailerStart ∨ t.trailerStart = BitVec.ofNat 32 (u.imageLen - 32)
  csum : t.csum = u.csum
  csumStored : t.csumStored = u.csumStored ∨ ∃ b : Byte, t.csumStored = b.toWord
  cap : t.cap = u.cap
  segtab : t.segtab = u.segtab
  eng : t.eng = Engine.none
  pending : t.pending = u.pending
  turns : t.turns = u.turns
  reads : t.reads = u.reads

theorem endFrame_finishOk {i : Instr} (hop : i.op ≠ 0x06) (u : State) :
    EndFrame i u (discardHidden { u with status := statusOk u.status }) := by
  constructor <;> first | rfl | exact .inl rfl | exact (if_neg hop).symm

theorem endFrame_resealed (b : Bool) (u : State) (old : Byte) (d : Vector Byte 32) :
    EndFrame (.reseal b) u (resealed u old d) := by
  constructor <;> first | rfl | exact .inr rfl | exact .inr ⟨old, rfl⟩ | simp [resealed]

theorem Ends.frame {i : Instr} {u t : State} (h : Ends i u t) : EndFrame i u t := by
  cases i with
  | hdrParse => cases h; exact endFrame_finishOk (by decide) u
  | parse => cases h; exact endFrame_finishOk (by decide) u
  | checksum => cases h; exact endFrame_finishOk (by decide) u
  | digest =>
    obtain ⟨pre, -, -, rfl⟩ := h
    constructor <;> first | rfl | exact .inl rfl | exact .inr rfl
  | verify =>
    obtain ⟨slot, pre, trailer, -, -, -, -, rfl⟩ := h
    constructor <;> first | rfl | exact .inr rfl | exact .inr ⟨slot, rfl⟩
  | reseal b =>
    obtain ⟨old, pre, -, -, -, -, rfl⟩ := h
    exact endFrame_resealed b u old _

/-- Settles O47: no rule writes these registers on its way, and both epilogues discard the hidden state. -/
theorem commandsKeepHostRegisters : Obligations.CommandsKeepHostRegisters := by
  intro i s t ht
  obtain ⟨u, hc, ⟨e, f, o, g, rfl, -⟩ | hend⟩ := exec_next_cases ht
  case inl => simp [hc.cmd, hc.len, hc.cap, hc.pending, hc.turns, hc.reads]
  case inr =>
    have hf := hend.frame
    simp [hf.cmd, hf.len, hf.cap, hf.pending, hf.turns, hf.reads, hf.eng, hc.cmd, hc.len, hc.cap, hc.pending, hc.turns, hc.reads]

/-! FSM (R200). -/

theorem op_eq_reseal_iff {i : Instr} : i.op = 0x06 ↔ ∃ b, i = .reseal b := by
  cases i <;> simp [Instr.op]

/-- Only RESEAL moves FSM before its end. -/
theorem Carried.fsm_of_ne_reseal {i : Instr} {s u : State} (hc : Carried i s u) (hop : i.op ≠ 0x06) : u.fsm = s.fsm := by
  rcases hc.fsm with h | ⟨h, -⟩
  · exact h
  · exact absurd h hop

theorem exec_fsm_of_ne_reseal {i : Instr} {s t : State} (hst : started i s) (hop : i.op ≠ 0x06) (ht : exec i s = .next t) :
    t.fsm = .idle := by
  obtain ⟨u, hc, hend⟩ := exec_next_cases ht
  have hidle : u.fsm = .idle := by rw [hc.fsm_of_ne_reseal hop, startOf_fsm, hst.2, if_neg hop]
  rcases hend with ⟨e, f, o, g, rfl, -⟩ | hend
  · rw [errorState_fsm, if_pos hidle]
  · rw [hend.frame.fsm, if_neg hop, hidle]

/-- A RESEAL that answers a next state shows its end in STATUS and FSM both. -/
theorem exec_reseal_fsm {b : Bool} {s t : State} (hst : started (.reseal b) s) (ht : exec (.reseal b) s = .next t) :
    (t.status = 0x0A ∧ t.fsm = .resealed) ∨ (t.status = 0x06 ∧ t.fsm = .rejected) := by
  by_cases hok : t.status = 0x0A
  case pos =>
    obtain ⟨u, -, ⟨herr, -⟩ | ⟨-, hend⟩⟩ := exec_reseal_cases hst ht
    · rw [herr] at hok; exact absurd hok (by decide)
    · exact .inl ⟨hok, hend.frame.fsm.trans (if_pos rfl)⟩
  case neg =>
    obtain ⟨herr, hfsm, -⟩ := failedResealLeavesImage b s t hst ht hok
    exact .inr ⟨herr, hfsm⟩

/-- Settles O42. -/
theorem fsmTransitions : Obligations.FsmTransitions := by
  intro i s t hst ht
  refine ⟨?reseal, fun hne => exec_fsm_of_ne_reseal hst (fun hop => hne (op_eq_reseal_iff.1 hop)) ht⟩
  rintro ⟨b, rfl⟩
  rcases exec_reseal_fsm hst ht with ⟨hstatus, hfsm⟩ | ⟨hstatus, hfsm⟩
  · exact .inl ⟨hfsm, by rw [State.resultValid, hstatus]; decide, by rw [State.err, hstatus]; decide⟩
  · exact .inr ⟨hfsm, by rw [State.resultValid, hstatus]; decide, by rw [State.err, hstatus]; decide⟩

/-! STATUS (R24, R95, R256). -/

/-- The values STATUS has after the completion of `i`: an error, a success, or a success of VERIFY with a finding. -/
def completedStatus (i : Instr) (w : Word) : Prop :=
  w = 0x06 ∨ w = 0x0A ∨ (i = .verify ∧ (w = 0x1A ∨ w = 0x2A ∨ w = 0x3A))

theorem started.status_of_carried {i : Instr} {s u : State} (hst : started i s) (hc : Carried i (startOf i s) u) :
    u.status = 0x01 := (hc.status.trans (startOf_status i s)).trans hst.1

/-- VERIFY's success with either finding, both or none (R230, R232). -/
theorem verified_status {u : State} (hu : u.status = 0x01) (slot : Byte) (d : Vector Byte 32) (trailer : List Byte) :
    completedStatus .verify (verified u slot d trailer).status := by
  have hstatus : (verified u slot d trailer).status =
      0x0A + (if u.eng.acc ≠ slot then 0x10 else 0) + (if d.toList ≠ trailer then 0x20 else 0) := by
    rw [verified, hu]
    exact statusOk_findings _ _
  rw [completedStatus, hstatus]
  split <;> split <;> decide

theorem Ends.status {i : Instr} {u t : State} (h : Ends i u t) (hu : u.status = 0x01) : completedStatus i t.status := by
  cases i with
  | verify =>
    obtain ⟨slot, pre, trailer, -, -, -, -, rfl⟩ := h
    exact verified_status hu slot _ trailer
  | digest =>
    obtain ⟨pre, -, -, rfl⟩ := h
    exact .inr (.inl (by simp [hu]))
  | reseal b =>
    obtain ⟨old, pre, -, -, -, -, rfl⟩ := h
    exact .inr (.inl (by simp [hu]))
  | hdrParse => cases h; exact .inr (.inl (by simp [hu]))
  | parse => cases h; exact .inr (.inl (by simp [hu]))
  | checksum => cases h; exact .inr (.inl (by simp [hu]))

theorem exec_status {i : Instr} {s t : State} (hst : started i s) (ht : exec i s = .next t) : completedStatus i t.status := by
  obtain ⟨u, hc, ⟨e, f, o, g, rfl, -⟩ | hend⟩ := exec_next_cases ht
  · exact .inl (by simp [hst.status_of_carried hc])
  · exact hend.status (hst.status_of_carried hc)

/-- BUSY is off and DONE on in every value a completion leaves. -/
theorem completedStatus.busy_done {i : Instr} {t : State} (h : completedStatus i t.status) :
    t.busy = false ∧ t.done = true := by
  rw [State.busy, State.done]
  rcases h with h | h | ⟨-, h | h | h⟩ <;> rw [h] <;> decide

/-- Settles O50: read off the five values STATUS can have. -/
theorem completionStatus : Obligations.CompletionStatus := by
  intro i s t hst ht
  have hstatus := exec_status hst ht
  obtain ⟨hbusy, hdone⟩ := hstatus.busy_done
  refine ⟨hbusy, hdone, ?oneOf, ?findings, fun k hk => ?upper⟩
  case oneOf =>
    rw [State.err, State.resultValid]
    rcases hstatus with h | h | ⟨-, h | h | h⟩ <;> rw [h] <;> decide
  case findings =>
    rw [State.csumMismatch, State.digestMismatch, State.resultValid]
    rcases hstatus with h | h | ⟨hi, h⟩
    · rw [h]; exact fun hbit => absurd hbit (by decide)
    · rw [h]; exact fun hbit => absurd hbit (by decide)
    · exact fun _ => ⟨hi, by rcases h with h | h | h <;> rw [h] <;> decide⟩
  case upper =>
    have hsmall : t.status.toNat < 2 ^ 6 := by
      rcases hstatus with h | h | ⟨-, h | h | h⟩ <;> rw [h] <;> decide
    exact Nat.testBit_lt_two_pow (hsmall.trans_le (Nat.pow_le_pow_right (by decide) hk))

/-! The buffers (R66, R205). -/

/-- Only RESEAL's success writes a buffer: its target, where it puts the slot and the trailer. -/
theorem Ends.buffers {i : Instr} {u t : State} (h : Ends i u t) :
    (t.img = u.img ∧ t.out = u.out) ∨
      ((∃ b, i = .reseal b) ∧ 33 ≤ u.imageLen ∧ ∃ ck d,
        t.img = (u.setTarget (resealedBuffer u.target u.imageLen ck d)).img ∧
        t.out = (u.setTarget (resealedBuffer u.target u.imageLen ck d)).out) := by
  cases i with
  | reseal b =>
    obtain ⟨old, pre, hL, -, -, -, rfl⟩ := h
    exact .inr ⟨⟨b, rfl⟩, hL, u.eng.acc, _, rfl, rfl⟩
  | digest => obtain ⟨pre, -, -, rfl⟩ := h; exact .inl ⟨rfl, rfl⟩
  | verify => obtain ⟨slot, pre, trailer, -, -, -, -, rfl⟩ := h; exact .inl ⟨rfl, rfl⟩
  | hdrParse => cases h; exact .inl ⟨rfl, rfl⟩
  | parse => cases h; exact .inl ⟨rfl, rfl⟩
  | checksum => cases h; exact .inl ⟨rfl, rfl⟩

/-- The buffers after any command: as its rule's start left them, or with the slot and the trailer of the result buffer
written. -/
theorem exec_buffers {i : Instr} {s t : State} (ht : exec i s = .next t) :
    (t.img = s.img ∧ t.out = (startOf i s).out) ∨
      (i = .reseal true ∧ 33 ≤ s.imageLen ∧ t.out = s.out ∧ ∃ ck d, t.img = resealedBuffer s.img s.imageLen ck d) ∨
      (i = .reseal false ∧ 33 ≤ s.imageLen ∧ t.img = s.img ∧
        ∃ ck d, t.out = resealedBuffer (startOf i s).out s.imageLen ck d) := by
  obtain ⟨u, hc, ⟨e, f, o, g, rfl, -⟩ | hend⟩ := exec_next_cases ht
  case inl => exact .inl ⟨hc.img.trans (startOf_img i s), hc.out⟩
  case inr =>
    have himg := hc.img.trans (startOf_img i s)
    have hlen := hc.imageLen.trans (startOf_imageLen i s)
    have htarget := hc.engTarget.trans (startOf_engTarget i s)
    rcases hend.buffers with ⟨h1, h2⟩ | ⟨⟨b, rfl⟩, hL, ck, d, h1, h2⟩
    · exact .inl ⟨h1.trans himg, h2.trans hc.out⟩
    · rw [hlen] at hL h1 h2
      cases b with
      | true =>
        refine .inr (.inl ⟨rfl, hL, ?_, ck, d, ?_⟩)
        · simp [h2, htarget, hc.out, startOf_out]
        · simp [h1, htarget, hc.target, startOf, selectWorking]
      | false =>
        refine .inr (.inr ⟨rfl, hL, ?_, ck, d, ?_⟩)
        · simp [h1, htarget, himg]
        · simp [h2, htarget, hc.target, startOf, selectWorking]

theorem get_resealedBuffer_above {m : Memory} {L : Nat} (hL : 33 ≤ L) (ck : Byte) (d : Vector Byte 32) {a : Nat}
    (ha : L ≤ a) : Table.get (resealedBuffer m L ck d) a = Table.get m a := by
  rw [get_resealedBuffer m hL, if_neg (by omega), if_neg (by omega)]

/-- The start of a rule writes nothing at or above L (R201). -/
theorem get_startOf_out_above (i : Instr) {s : State} {a : Nat} (ha : s.imageLen ≤ a) :
    Table.get (startOf i s).out a = Table.get s.out a := by
  rw [get_startOf_out, if_neg (by omega)]

/-- Settles O48. -/
theorem onlyResealWritesBuffers : Obligations.OnlyResealWritesBuffers := by
  intro i s t ht
  rcases exec_buffers ht with ⟨himg, hout⟩ | ⟨rfl, hL, hout, ck, d, himg⟩ | ⟨rfl, hL, himg, ck, d, hout⟩
  · exact ⟨fun _ => himg, fun hi => hout.trans (startOf_out hi s),
      fun a ha => ⟨by rw [himg], by rw [hout, get_startOf_out_above i ha]⟩⟩
  · exact ⟨fun hi => absurd rfl hi, fun _ => hout,
      fun a ha => ⟨by rw [himg, get_resealedBuffer_above hL ck d ha], by rw [hout]⟩⟩
  · exact ⟨fun _ => himg, fun hi => absurd rfl hi,
      fun a ha => ⟨by rw [himg], by rw [hout, get_resealedBuffer_above hL ck d ha, get_startOf_out_above _ ha]⟩⟩

/-! SEGTAB (R144, R286). -/

/-- What a completion leaves in SEGTAB and SEG_DONE is what its walk left there. -/
theorem exec_walk {i : Instr} {s t : State} (ht : exec i s = .next t) :
    ∃ u, Walked (startOf i s) u ∧ t.segtab = u.segtab ∧ t.segDone = u.segDone := by
  obtain ⟨u, hc, ⟨e, f, o, g, rfl, -⟩ | hend⟩ := exec_next_cases ht
  · exact ⟨u, hc.walk, rfl, rfl⟩
  · exact ⟨u, hc.walk, hend.frame.segtab, hend.frame.segDone⟩

/-- Settles O49: a walk that ends with SEG_DONE = j has written entries 0 to j - 1. -/
theorem staleEntriesStay : Obligations.StaleEntriesStay := by
  intro i s t _ ht j hj
  obtain ⟨u, hwalk, hsegtab, hdone⟩ := exec_walk ht
  rw [hdone] at hj
  rw [hsegtab, ← startOf_segtab i s]
  rcases hwalk with ⟨h, -⟩ | ⟨m, L, k, ds, -, -, hk, hd, h, hdone, -⟩
  · rw [h]
  · rw [hdone, BitVec.toNat_ofNat, Nat.mod_eq_of_lt (by omega)] at hj
    rw [h, get_writeRecords, recordsFrom_length hd, if_neg (by omega)]

end Sys2Proof.Machine
end

section
/-! The invariant: after reset (O52), under every step (O53), and what follows of it: no refusal (O54), completion of a polled
command (O11). -/

namespace Sys2Proof.Machine

/-! The invariant's parts, in the state a change leaves. -/

/-- A buffer in canonical form with cells below CAP only (R42, R43). -/
def BufferOk (cap : Nat) (m : Memory) : Prop := Memory.wf m ∧ ∀ x ∈ m, x.1 < cap

/-- SEGTAB in canonical form with entries 0 to 254 only (R41). -/
def SegtabOk (t : Table SegDesc) : Prop := Table.wf t ∧ ∀ x ∈ t, x.1 < 255

theorem memInv_iff {s : State} :
    MemInv s ↔ BufferOk s.cap.toNat s.img ∧ BufferOk s.cap.toNat s.out ∧ SegtabOk s.segtab :=
  ⟨fun h => ⟨⟨h.imgWf, h.imgCap⟩, ⟨h.outWf, h.outCap⟩, ⟨h.segtabWf, h.segtabMax⟩⟩,
    fun ⟨himg, hout, hsegtab⟩ => ⟨himg.1, hout.1, hsegtab.1, himg.2, hout.2, hsegtab.2⟩⟩

theorem BufferOk.copyBelow {cap : Nat} {src dst : Memory} (hsrc : BufferOk cap src) (hdst : BufferOk cap dst) (n : Nat) :
    BufferOk cap (Table.copyBelow src dst n) :=
  ⟨Table.copyBelow_wf hsrc.1 hdst.1 n, fun x hx => (Table.mem_copyBelow hx).elim (hsrc.2 x) (hdst.2 x)⟩

theorem BufferOk.windowWrite {cap : Nat} {m : Memory} (h : BufferOk cap m) (a : Nat) (bs : List Byte) :
    BufferOk cap (windowWrite m cap a bs) :=
  ⟨windowWrite_wf h.1 cap a bs, fun x hx => (mem_windowWrite hx).elim (h.2 x) id⟩

/-- RESEAL's two writes lie below L (R203, R204). -/
theorem BufferOk.resealed {cap L : Nat} {m : Memory} (h : BufferOk cap m) (hL : 33 ≤ L) (hcap : L ≤ cap) (ck : Byte)
    (d : Vector Byte 32) : BufferOk cap (resealedBuffer m L ck d) := by
  refine ⟨Memory.write_wf (Table.set_wf h.1 _ _) _ _, fun x hx => ?_⟩
  rcases Memory.mem_write hx with hx | ⟨-, hx⟩
  · rcases Table.mem_set hx with rfl | hx
    · show L - 33 < cap
      omega
    · exact h.2 x hx
  · rw [Vector.length_toList] at hx
    omega

theorem SegtabOk.writeRecords {t : Table SegDesc} (h : SegtabOk t) {ds : List SegDesc} (hlen : ds.length ≤ 255) :
    SegtabOk (writeRecords t 0 ds) :=
  ⟨writeRecords_wf h.1 0 ds, fun x hx => (mem_writeRecords hx).elim (h.2 x) fun hx => by omega⟩

theorem isByte_errCodeNumber (e : ErrCode) : isByte (errCodeNumber e) := by cases e <;> decide
theorem isByte_errFieldNumber (f : ErrField) : isByte (errFieldNumber f) := by cases f <;> decide

/-- A number below `2^32` is what its word shows. -/
theorem toNat_ofNat_le {k bound : Nat} (hk : k ≤ bound) : (BitVec.ofNat 32 k).toNat ≤ bound := by
  rw [BitVec.toNat_ofNat]
  exact (Nat.mod_le k _).trans hk

/-- A state with no command in progress is sound when its memories, its registers, STATUS and FSM are. -/
theorem inv_of_idle {s : State} (hmem : MemInv s) (hregs : RegInv s) (hstatus : statusLegal s.status) (hbusy : s.busy = false)
    (hidle : IdleInv s) : Inv s :=
  ⟨hmem, hregs, hstatus, fun _ => hidle, fun h => by rw [hbusy] at h; cases h⟩

/-- The invariant is about the block alone: HOST's items, the turns and HOST's reads are free. -/
theorem Inv.of_sameBlock {s t : State} (h : Inv s) (hs : sameBlock s t) : Inv t := by
  rw [hs]
  exact {
    mem := { h.mem with }
    regs := { h.regs with }
    status := h.status
    idle := fun hb => { h.idle hb with }
    busy := fun hb => (h.busy hb).imp fun i hi => { hi with } }

/-! Reset (R280, R281). -/

/-- What a reset leaves is sound: every table empty, every register 0 but CAP. -/
theorem inv_resetBlock {s : State} (hmin : 1 ≤ s.cap.toNat) (hmax : s.cap.toNat ≤ 2 ^ 24) : Inv (resetBlock s) := by
  refine inv_of_idle ?mem ?regs (.inl rfl) BitVec.getLsbD_zero ⟨rfl, .inl rfl⟩
  case mem => constructor <;> simp
  case regs => constructor <;> first | exact hmin | exact hmax | simp

/-- Settles O52: the state after reset is what a reset makes of itself. -/
theorem resetSatisfiesInvariant : Obligations.ResetSatisfiesInvariant := by
  refine inv_resetBlock (s := State.reset) ?_ ?_
  · rw [cap_toNat_reset]; exact Nat.succ_pos _
  · rw [cap_toNat_reset]; exact config_cap_le

/-! Issue (R93, R94). -/

theorem MemInv.of_eq {s t : State} (h : MemInv s) (hcap : t.cap = s.cap) (himg : t.img = s.img) (hout : t.out = s.out)
    (hsegtab : t.segtab = s.segtab) : MemInv t := by
  rw [memInv_iff, hcap, himg, hout, hsegtab]
  exact memInv_iff.1 h

/-- The result registers are 0 after an issue, whatever word was written (R93). -/
theorem regInv_clearForIssue {s : State} (h : RegInv s) (w : Word) : RegInv (clearForIssue w s) := by
  constructor <;> first | exact h.capMin | exact h.capMax | simp

theorem inv_issueError {s : State} (hmem : MemInv s) (hregs : RegInv s) (w : Word) (e : ErrCode) (f : ErrField) :
    Inv (errorState e f 0 0 (clearForIssue w s)) := by
  have hcleared := regInv_clearForIssue hregs w
  rw [errorState_clearForIssue]
  refine inv_of_idle (hmem.of_eq rfl rfl rfl rfl) ?_ (.inr (.inr (.inl rfl))) ?_ ⟨rfl, .inl rfl⟩
  · exact { hcleared with errCode := isByte_errCodeNumber e, errField := isByte_errFieldNumber f }
  · show (0x06#32).getLsbD busyBit = false
    decide

theorem inv_acceptCommand {s : State} (hmem : MemInv s) (hregs : RegInv s) (i : Instr) (hfits : s.len.toNat ≤ s.cap.toNat) :
    Inv (acceptCommand (encode i) s) := by
  have hcleared := regInv_clearForIssue hregs (encode i)
  have hbusy : (acceptCommand (encode i) s).busy = true := by
    show statusIssued.getLsbD busyBit = true
    decide
  have hlatched : BusyInv (acceptCommand (encode i) s) i := by
    rw [acceptCommand_eq, opOf_encode, inplaceOf_encode]
    exact ⟨rfl, rfl, rfl, rfl, rfl, hfits, rfl⟩
  exact ⟨hmem.of_eq rfl rfl rfl rfl, { hcleared with }, .inr (.inl hlatched.status),
    fun hidle => absurd (hbusy.symm.trans hidle) nofun, fun _ => ⟨i, hlatched⟩⟩

theorem inv_issue {s : State} (hmem : MemInv s) (hregs : RegInv s) (w : Word) : Inv (issue w s) := by
  cases hw : decodeWord w with
  | error e =>
    rw [issue_illegal hw]
    exact inv_issueError hmem hregs w _ _
  | ok i =>
    by_cases hlen : s.len.toNat ≤ s.cap.toNat
    · rw [issue_legal hw hlen, decodeWord_eq_ok_iff.1 hw]
      exact inv_acceptCommand hmem hregs i hlen
    · rw [issue_badLength hw (Nat.not_le.1 hlen)]
      exact inv_issueError hmem hregs w _ _

/-! HOST's step (R64, R65, R283). -/

/-- What a write can do: issue a word, set LEN, write into IMG below CAP, or nothing (R64). -/
theorem busWrite_cases (width : Nat) (addr : Addr) (v : Word) (s : State) :
    busWrite width addr v s = issue v s ∨ busWrite width addr v s = { s with len := v } ∨
      (∃ o bs, busWrite width addr v s = { s with img := windowWrite s.img s.cap.toNat o bs }) ∨
      busWrite width addr v s = s := by
  rcases region_cases addr with h | h | h | h | h
  · by_cases hcmd : addr.toNat = 0
    · exact .inl (busWrite_cmd width v s hcmd)
    · by_cases hlen : addr.toNat = 0xC
      · exact .inr (.inl (busWrite_len width v s hlen))
      · exact .inr (.inr (.inr (busWrite_readOnlyReg width v s ⟨h, hcmd, hlen⟩)))
  · exact .inr (.inr (.inr (busWrite_segtab width v s h)))
  · exact .inr (.inr (.inl ⟨_, _, busWrite_img width v s h⟩))
  · exact .inr (.inr (.inr (busWrite_out width v s h)))
  · exact .inr (.inr (.inr (busWrite_hole width v s h)))

/-- A write while no command is in progress keeps the invariant. -/
theorem Inv.of_busWrite {s : State} (h : Inv s) (hb : s.busy = false) (width : Nat) (addr : Addr) (v : Word) :
    Inv (busWrite width addr v s) := by
  rcases busWrite_cases width addr v s with e | e | ⟨o, bs, e⟩ | e <;> rw [e]
  · exact inv_issue h.mem h.regs v
  · exact inv_of_idle { h.mem with } { h.regs with } h.status hb { h.idle hb with }
  · obtain ⟨himg, hout, hsegtab⟩ := memInv_iff.1 h.mem
    exact inv_of_idle (memInv_iff.2 ⟨himg.windowWrite o bs, hout, hsegtab⟩) { h.regs with } h.status hb { h.idle hb with }
  · exact h

/-- A write that completes was made while no command was in progress (R283). -/
theorem busAccess_write_next {width : Nat} {addr : Addr} {v : Word} {s t : State}
    (ht : busAccess (.write width addr v) s = .next t) : s.busy = false ∧ t = busWrite width addr v s := by
  cases hb : s.busy with
  | true =>
    cases (busAccess_hazard hb (by simp)).symm.trans ht
  | false =>
    by_cases hshape : shapeAllowed width addr
    · cases (busAccess_write hb hshape).symm.trans ht
      exact ⟨rfl, rfl⟩
    · cases (busAccess_badShape (a := .write width addr v) hb hshape).symm.trans ht

theorem Inv.of_busAccess {s t : State} (h : Inv s) {a : Access} (ht : busAccess a s = .next t) : Inv t := by
  cases a with
  | write width addr v =>
    obtain ⟨hb, rfl⟩ := busAccess_write_next ht
    exact h.of_busWrite hb width addr v
  | read width addr =>
    obtain ⟨-, -, v, -, rfl⟩ := busAccess_read_next ht
    exact h.of_sameBlock (sameBlock_hostData s _ _ _)

theorem Inv.of_hostStep {s t : State} (h : Inv s) (ht : hostStep s = .next t) : Inv t := by
  rw [hostStep] at ht
  split at ht
  · cases ht; exact h
  · exact (h.of_sameBlock (sameBlock_hostData s _ _ _)).of_busAccess ht
  · cases ht; exact h.of_sameBlock rfl

/-! ENGINE's step (R95). -/

/-- The command in progress is the one latched, started as its issue left it. -/
theorem Inv.latched {s : State} (h : Inv s) (hb : s.busy = true) :
    ∃ i, latchedInstr s = some i ∧ started i s ∧ s.imageLen ≤ s.cap.toNat := by
  obtain ⟨i, hi⟩ := h.busy hb
  exact ⟨i, latchedInstr_of_latch hi.op hi.inplace, ⟨hi.status, hi.fsm⟩, hi.fits⟩

/-- OUT at a rule's start is as it was, or with IMG's cells copied in (R201). -/
theorem bufferOk_startOf_out {s : State} (i : Instr) (himg : BufferOk s.cap.toNat s.img) (hout : BufferOk s.cap.toNat s.out) :
    BufferOk s.cap.toNat (startOf i s).out := by
  by_cases hi : i = .reseal false
  · subst hi
    exact himg.copyBelow hout s.imageLen
  · rw [startOf_out hi]
    exact hout

/-- The walk writes at most 255 entries (R143). -/
theorem SegtabOk.walked {s u : State} (h : SegtabOk s.segtab) (hw : Walked s u) : SegtabOk u.segtab := by
  rcases hw with ⟨hsegtab, -⟩ | ⟨m, L, j, ds, -, -, hj, hd, hsegtab, -⟩
  · rw [hsegtab]; exact h
  · rw [hsegtab]; exact h.writeRecords ((recordsFrom_length hd).trans_le hj)

theorem exec_cap {i : Instr} {s t : State} (ht : exec i s = .next t) : t.cap = s.cap := by
  obtain ⟨-, -, hcap, -⟩ := commandsKeepHostRegisters i s t ht
  exact hcap

theorem MemInv.of_exec {i : Instr} {s t : State} (h : MemInv s) (hfits : s.imageLen ≤ s.cap.toNat) (ht : exec i s = .next t) :
    MemInv t := by
  obtain ⟨himg, hout, hsegtab⟩ := memInv_iff.1 h
  have hstart := bufferOk_startOf_out i himg hout
  obtain ⟨u, hwalk, htab, -⟩ := exec_walk ht
  have htab' : SegtabOk t.segtab := htab ▸ SegtabOk.walked (by rw [startOf_segtab]; exact hsegtab) hwalk
  rw [memInv_iff, exec_cap ht]
  rcases exec_buffers ht with ⟨h1, h2⟩ | ⟨-, hL, h2, ck, d, h1⟩ | ⟨-, hL, h1, ck, d, h2⟩ <;> rw [h1, h2]
  · exact ⟨himg, hstart, htab'⟩
  · exact ⟨himg.resealed hL hfits ck d, hout, htab'⟩
  · exact ⟨himg, hstart.resealed hL hfits ck d, htab'⟩

/-- A register that shows a byte, or is left as it was. -/
theorem isByte_of_cases {w w' : Word} (hw : isByte w) (h : w' = w ∨ ∃ b : Byte, w' = b.toWord) : isByte w' := by
  rcases h with rfl | ⟨b, rfl⟩
  · exact hw
  · exact isByte_toWord b

/-- The registers a rule has written on its way to its end. -/
theorem Carried.regInv {i : Instr} {s u : State} (hc : Carried i s u) (h : RegInv s) (hfits : s.imageLen ≤ s.cap.toNat) :
    RegInv u := by
  have hwalk : u.segDone.toNat ≤ 255 ∧ u.cursor.toNat ≤ s.cap.toNat ∧ isByte u.csum := by
    rcases hc.walk with ⟨-, hdone, hcursor, hcsum⟩ | ⟨m, L, j, ds, hL, rfl, hj, hd, -, hdone, hcursor, hcsum⟩
    · rw [hdone, hcursor, hcsum]; exact ⟨h.segDone, h.cursor, h.csum⟩
    · rw [hdone, hcursor]
      exact ⟨toNat_ofNat_le hj, toNat_ofNat_le ((walkEnd_le hd hL).trans hfits), isByte_of_cases h.csum hcsum⟩
  obtain ⟨hdone, hcursor, hcsum⟩ := hwalk
  constructor
  case capMin => rw [hc.cap]; exact h.capMin
  case capMax => rw [hc.cap]; exact h.capMax
  case errCode => rw [hc.errCode]; exact h.errCode
  case errField => rw [hc.errField]; exact h.errField
  case errOffset => rw [hc.errOffset, hc.cap]; exact h.errOffset
  case errSeg => rw [hc.errSeg]; exact h.errSeg
  case magic => exact isByte_of_cases h.magic hc.magic
  case segCount => exact isByte_of_cases h.segCount hc.segCount
  case segDone => exact hdone
  case cursor => rw [hc.cap]; exact hcursor
  case trailerStart => rw [hc.trailerStart, hc.cap]; exact h.trailerStart
  case csum => exact hcsum
  case csumStored => rw [hc.csumStored]; exact h.csumStored

theorem RegInv.errorState {u : State} (h : RegInv u) (e : ErrCode) (f : ErrField) {o g : Nat} (ho : o ≤ u.cap.toNat)
    (hg : g ≤ 254) : RegInv (errorState e f o g u) :=
  { h with
    errCode := isByte_errCodeNumber e, errField := isByte_errFieldNumber f
    errOffset := toNat_ofNat_le ho, errSeg := toNat_ofNat_le hg }

theorem EndFrame.regInv {i : Instr} {u t : State} (hf : EndFrame i u t) (h : RegInv u) (hfits : u.imageLen ≤ u.cap.toNat) :
    RegInv t := by
  constructor
  case capMin => rw [hf.cap]; exact h.capMin
  case capMax => rw [hf.cap]; exact h.capMax
  case errCode => rw [hf.errCode]; exact h.errCode
  case errField => rw [hf.errField]; exact h.errField
  case errOffset => rw [hf.errOffset, hf.cap]; exact h.errOffset
  case errSeg => rw [hf.errSeg]; exact h.errSeg
  case magic => rw [hf.magic]; exact h.magic
  case segCount => rw [hf.segCount]; exact h.segCount
  case segDone => rw [hf.segDone]; exact h.segDone
  case cursor => rw [hf.cursor, hf.cap]; exact h.cursor
  case trailerStart =>
    rw [hf.cap]
    rcases hf.trailerStart with e | e
    · rw [e]; exact h.trailerStart
    · rw [e]; exact toNat_ofNat_le (by omega)
  case csum => rw [hf.csum]; exact h.csum
  case csumStored => exact isByte_of_cases h.csumStored hf.csumStored

theorem RegInv.startOf {s : State} (h : RegInv s) (i : Instr) : RegInv (startOf i s) := by
  rw [startOf_eq]
  exact { h with }

theorem RegInv.of_exec {i : Instr} {s t : State} (h : RegInv s) (hfits : s.imageLen ≤ s.cap.toNat) (ht : exec i s = .next t) :
    RegInv t := by
  obtain ⟨u, hc, hend⟩ := exec_next_cases ht
  have hcap : u.cap = s.cap := hc.cap.trans (startOf_cap i s)
  have hlen : u.imageLen = s.imageLen := hc.imageLen.trans (startOf_imageLen i s)
  have hu : RegInv u := hc.regInv (h.startOf i) (by rw [startOf_imageLen, startOf_cap]; exact hfits)
  rcases hend with ⟨e, f, o, g, rfl, ho, hg⟩ | hend
  · exact hu.errorState e f (hcap ▸ ho.trans hfits) hg
  · exact hend.frame.regInv hu (by rw [hlen, hcap]; exact hfits)

theorem completedStatus.legal {i : Instr} {w : Word} (h : completedStatus i w) : statusLegal w := by
  rcases h with h | h | ⟨-, h | h | h⟩ <;> simp [statusLegal, h]

/-- A completion leaves no hidden state, and FSM where HOST may see it (R25, R44). -/
theorem idleInv_exec {i : Instr} {s t : State} (hst : started i s) (ht : exec i s = .next t) : IdleInv t := by
  obtain ⟨-, -, -, -, -, -, heng⟩ := commandsKeepHostRegisters i s t ht
  refine ⟨heng, ?_⟩
  by_cases hop : i.op = 0x06
  · obtain ⟨b, rfl⟩ := op_eq_reseal_iff.1 hop
    rcases exec_reseal_fsm hst ht with ⟨-, h⟩ | ⟨-, h⟩
    · exact .inr (.inl h)
    · exact .inr (.inr h)
  · exact .inl (exec_fsm_of_ne_reseal hst hop ht)

theorem Inv.of_exec {i : Instr} {s t : State} (h : Inv s) (hst : started i s) (hfits : s.imageLen ≤ s.cap.toNat)
    (ht : exec i s = .next t) : Inv t := by
  have hstatus := exec_status hst ht
  obtain ⟨hbusy, -⟩ := hstatus.busy_done
  exact inv_of_idle (h.mem.of_exec hfits ht) (h.regs.of_exec hfits ht) hstatus.legal hbusy (idleInv_exec hst ht)

theorem Inv.of_engineStep {s t : State} (h : Inv s) (ht : engineStep s = .next t) : Inv t := by
  cases hb : s.busy with
  | false =>
    rw [engineStep_idle hb] at ht
    cases ht
    exact h
  | true =>
    obtain ⟨i, hi, hst, hfits⟩ := h.latched hb
    rw [engineStep_busy hb hi] at ht
    exact h.of_exec hst hfits ht

theorem Inv.popped {s : State} (h : Inv s) : Inv (popTurn s) := h.of_sameBlock rfl

/-- Settles O53: one case for each agent. -/
theorem stepKeepsInvariant : Obligations.StepKeepsInvariant := by
  intro s t h ht
  cases hturn : nextTurn s with
  | host => exact h.popped.of_hostStep ((step_of_host hturn).symm.trans ht)
  | engine => exact h.popped.of_engineStep ((step_of_engine hturn).symm.trans ht)
  | reset =>
    cases (step_of_reset hturn).symm.trans ht
    exact inv_resetBlock h.regs.capMin h.regs.capMax

/-! No refusal (log 10). -/

theorem busAccess_ne_refused (a : Access) (s : State) (r : Refusal) : busAccess a s ≠ .refused r := by
  cases a with
  | write width addr v =>
    rw [busAccess]
    split
    · nofun
    · split <;> nofun
  | read width addr =>
    rw [busAccess]
    split
    · nofun
    · split
      · split <;> nofun
      · nofun

theorem hostStep_ne_refused (s : State) (r : Refusal) : hostStep s ≠ .refused r := by
  rw [hostStep]
  split
  · nofun
  · exact busAccess_ne_refused _ _ r
  · nofun

theorem Inv.engineStep_ne_refused {s : State} (h : Inv s) (r : Refusal) : engineStep s ≠ .refused r := by
  cases hb : s.busy with
  | false => rw [engineStep_idle hb]; nofun
  | true =>
    obtain ⟨i, hi, -⟩ := h.latched hb
    rw [engineStep_busy hb hi]
    rcases exec_cases i s with ⟨t, e⟩ | e <;> rw [e] <;> nofun

/-- Settles O54. -/
theorem soundStatesAreNeverRefused : Obligations.SoundStatesAreNeverRefused := by
  intro s r h
  cases hturn : nextTurn s with
  | host => rw [step_of_host hturn]; exact hostStep_ne_refused _ r
  | engine => rw [step_of_engine hturn]; exact h.popped.engineStep_ne_refused r
  | reset => rw [step_of_reset hturn]; nofun

/-! A polled command completes (R289, log 3). -/

/-- HOST only polls: its items are WAIT and 32-bit reads of STATUS. -/
def Polls (s : State) : Prop := ∀ x ∈ s.pending, x = .wait ∨ x = .access (.read 4 statusAddr)

/-- A polling step of HOST changes HOST's data alone, and HOST goes on polling. -/
theorem hostStep_polls {s : State} (h : Polls s) :
    ∃ t, hostStep s = .next t ∧ sameBlock s t ∧ Polls t ∧ t.turns = s.turns := by
  rw [hostStep]
  split
  next => exact ⟨s, rfl, rfl, h, rfl⟩
  next a rest hp =>
    have hrest : ∀ x ∈ rest, x = .wait ∨ x = .access (.read 4 statusAddr) := fun x hx => h x (by simp [hp, hx])
    obtain rfl : a = .read 4 statusAddr := by simpa using h (.access a) (by simp [hp])
    exact ⟨_, busAccess_status _, rfl, hrest, rfl⟩
  next rest hp =>
    have hrest : ∀ x ∈ rest, x = .wait ∨ x = .access (.read 4 statusAddr) := fun x hx => h x (by simp [hp, hx])
    refine ⟨_, rfl, rfl, fun x hx => ?_, rfl⟩
    dsimp only [waitPoll] at hx
    split at hx
    · rcases List.mem_cons.1 hx with rfl | hx
      · exact .inl rfl
      · exact hrest x hx
    · exact hrest x hx

/-- A state BUSY with no turns left: ENGINE completes the command, or reads an undefined byte (R95, R289). -/
theorem Inv.completes {s : State} (h : Inv s) (hb : s.busy = true) (hturns : s.turns = []) :
    step s = .fault .undefinedRead ∨ ∃ t, step s = .next t ∧ t.busy = false ∧ t.done = true := by
  have hturn : nextTurn s = .engine := by simp [nextTurn, hturns, hb]
  obtain ⟨i, hi, hst, -⟩ := h.popped.latched hb
  rw [step_of_engine hturn, engineStep_busy (s := popTurn s) hb hi]
  rcases exec_cases i (popTurn s) with ⟨t, ht⟩ | hfault
  · exact .inr ⟨t, ht, (exec_status hst ht).busy_done⟩
  · exact .inl hfault

/-- Settles O11, by induction on the turns HOST still has. -/
theorem issuedCommandCompletes : Obligations.IssuedCommandCompletes := by
  intro s k
  induction k generalizing s with
  | zero =>
    intro h hb hturns _
    rcases h.completes hb hturns with e | ⟨t, e, hend⟩
    · exact .inl (by rw [runSteps, e])
    · exact .inr ⟨t, by rw [runSteps, e]; rfl, hend⟩
  | succ k ih =>
    intro h hb hturns hpolls
    have hturn : nextTurn s = .host := by rw [nextTurn, hturns, List.replicate_succ]
    obtain ⟨t, ht, hsame, hpolls', hturns'⟩ := hostStep_polls (s := popTurn s) hpolls
    have hstep : step s = .next t := (step_of_host hturn).trans ht
    rw [runSteps, hstep]
    refine ih t (stepKeepsInvariant s t h hstep) (hsame.busy.trans hb) ?_ hpolls'
    rw [hturns', popTurn_turns, hturns, List.replicate_succ, List.tail_cons]

end Sys2Proof.Machine
end

section
/-! HDR_PARSE whole (O24, O27), the short image (O25) and undefined header bytes (O55). -/

namespace Sys2Proof.Machine

/-! The header parser on the start of any rule (R120). -/

/-- The state in which an error raised at the start of its rule leaves a started command (R256). -/
theorem errorState_startOf {i : Instr} {s : State} (hst : started i s) (e : ErrCode) (f : ErrField) (o g : Nat) :
    errorState e f o g (startOf i s) =
      { s with
        status := 0x06, errCode := errCodeNumber e, errField := errFieldNumber f, errOffset := BitVec.ofNat 32 o
        errSeg := BitVec.ofNat 32 g, fsm := if i.op = 0x06 then .rejected else s.fsm
        out := (startOf i s).out, eng := Engine.none } := by
  have hstatus : statusError s.status = 0x06 := hst.1 ▸ statusError_one
  rw [startOf_eq, ← hst.rejected, ← hstatus]
  rfl

theorem exec_of_short {i : Instr} {s : State} (hi : i ≠ .digest) (hst : started i s) (hL : s.imageLen < 24) :
    exec i s = .next
      { s with
        status := 0x06, errCode := 0x02, errField := 2, errOffset := 0, errSeg := 0
        fsm := if i.op = 0x06 then .rejected else s.fsm
        out := (startOf i s).out, eng := Engine.none } := by
  rw [exec_of_headerParse_raised hi (headerParse_short (by rwa [startOf_imageLen])), errorState_startOf hst]
  rfl

/-- Settles O25: the length check comes before anything but the start of the rule has run. -/
theorem shortImageIsTruncated : Obligations.ShortImageIsTruncated :=
  fun i s hi hst hL => ⟨_, exec_of_short hi hst hL, rfl, get_startOf_out i s⟩

theorem exec_of_badMagic {i : Instr} {s : State} {m : Byte} (hi : i ≠ .digest) (hst : started i s) (hL : 24 ≤ s.imageLen)
    (hm : Table.get s.img 0 = some m) (hne : m ≠ 0xE9) :
    exec i s = .next
      { s with
        magic := m.toWord, status := 0x06, errCode := 0x01, errField := 1, errOffset := 0, errSeg := 0
        fsm := if i.op = 0x06 then .rejected else s.fsm
        out := (startOf i s).out, eng := Engine.none } := by
  rw [exec_of_headerParse_raised hi (headerParse_startOf_badMagic i hL hm hne), errorState_badMagic_startOf hst]

theorem exec_of_headerParse_fault {i : Instr} {s : State} {x : Fault} (hi : i ≠ .digest)
    (h : headerParse (startOf i s) = .fault x) : exec i s = .fault x := by
  by_cases hp : i = .hdrParse
  case pos =>
    subst hp
    exact congrArg (fun r : Res Nat => (r.andThen fun _ s => finishOk s).toOutcome) h
  case neg => rw [exec_eq_headWalk ⟨hp, hi⟩, headWalk, h, Res.andThen_fault, Res.toOutcome_fault]

theorem exec_of_header_undefined {i : Instr} {s : State} (hi : i ≠ .digest) (hL : 24 ≤ s.imageLen)
    (hu : Table.get s.img 0 = none ∨ Table.get s.img 0 = some 0xE9 ∧ Table.get s.img 1 = none) :
    exec i s = .fault .undefinedRead := by
  have hlen := startOf_imageLen i s
  have hs := startOf_sameBytes i s
  rw [hs 0 (by omega), hs 1 (by omega)] at hu
  exact exec_of_headerParse_fault hi (headerParse_undefined (by omega) hu)

/-- Settles O55. -/
theorem undefinedHeaderByteFaults : Obligations.UndefinedHeaderByteFaults :=
  fun _ _ hi hL => ⟨fun hm => exec_of_header_undefined hi hL (.inl hm),
    fun hm hn => exec_of_header_undefined hi hL (.inr ⟨hm, hn⟩)⟩

/-! HDR_PARSE (R122). -/

theorem exec_hdrParse_succeeds {s : State} {n : Byte} (hst : started .hdrParse s) (hL : 24 ≤ s.imageLen)
    (hm : Table.get s.img 0 = some 0xE9) (hn : Table.get s.img 1 = some n) :
    exec .hdrParse s = .next { s with status := 0x0A, magic := 0xE9, segCount := n.toWord, eng := Engine.none } := by
  have hstatus : statusOk s.status = 0x0A := hst.1 ▸ statusOk_one
  rw [exec, execHdrParse, headerParse_ok (s := selectTarget .img s) hL hm hn, ← hstatus]
  rfl

/-- Settles O24, one clause for each end of the header parser. -/
theorem hdrParse : Obligations.HdrParse := by
  intro s hst
  refine ⟨fun hL => exec_of_short nofun hst hL, fun hL => ⟨fun hm => ?magicUndefined, fun m hm hne => ?badMagic,
    fun hm => ⟨fun hn => ?countUndefined, fun n hn => ?parsed⟩⟩⟩
  case magicUndefined => exact exec_of_header_undefined nofun hL (.inl hm)
  case badMagic => exact exec_of_badMagic nofun hst hL hm hne
  case countUndefined => exact exec_of_header_undefined nofun hL (.inr ⟨hm, hn⟩)
  case parsed => exact exec_hdrParse_succeeds hst hL hm hn

/-- Settles O27: the length, byte 0 and byte 1 decide which of HDR_PARSE's ends both commands come to. -/
theorem headerOutcomeDependsOnTwoBytes : Obligations.HeaderOutcomeDependsOnTwoBytes := by
  intro s s' t hst hst' hlen h0 h1 herr hmagic hcount ht
  have hi : Instr.hdrParse ≠ .digest := nofun
  by_cases hL : s.imageLen < 24
  case pos =>
    cases (exec_of_short hi hst hL).symm.trans ht
    exact ⟨_, exec_of_short hi hst' (hlen ▸ hL), rfl, hmagic.symm, hcount.symm, rfl⟩
  case neg =>
    have hL : 24 ≤ s.imageLen := Nat.not_lt.1 hL
    have hL' : 24 ≤ s'.imageLen := hlen ▸ hL
    cases hm : Table.get s.img 0 with
    | none => cases (exec_of_header_undefined hi hL (.inl hm)).symm.trans ht
    | some m =>
      have hm' : Table.get s'.img 0 = some m := (h0 hL).symm.trans hm
      by_cases hne : m = 0xE9
      case neg =>
        cases (exec_of_badMagic hi hst hL hm hne).symm.trans ht
        exact ⟨_, exec_of_badMagic hi hst' hL' hm' hne, rfl, rfl, hcount.symm, rfl⟩
      case pos =>
        subst hne
        cases hn : Table.get s.img 1 with
        | none => cases (exec_of_header_undefined hi hL (.inr ⟨hm, hn⟩)).symm.trans ht
        | some n =>
          have hn' : Table.get s'.img 1 = some n := (h1 hL hm).symm.trans hn
          cases (exec_hdrParse_succeeds hst hL hm hn).symm.trans ht
          exact ⟨_, exec_hdrParse_succeeds hst' hL' hm' hn', herr.symm, rfl, rfl, rfl⟩

end Sys2Proof.Machine
end

section
/-! DIGEST, whole (O34). -/

namespace Sys2Proof.Machine

/-- Settles O34: the three ends of DIGEST (R183). -/
theorem digestCommand : Obligations.DigestCommand := by
  intro s hst
  have hstatus : statusOk s.status = 0x0A := hst.1 ▸ statusOk_one
  refine ⟨fun hL => ?short, fun hL => ⟨fun bs hbs => ?succeeds, fun ⟨a, ha, hu⟩ => ?undefined⟩⟩
  case short =>
    rw [exec_digest_short hL]
    exact congrArg _ (errorState_startOf hst .tooShort .trailer 0 0)
  case succeeds => rw [exec_digest_succeeds hL hbs, hstatus]
  case undefined => exact exec_digest_undefined hL (Memory.bytes_eq_none.2 ⟨a, ha, by rwa [Nat.zero_add]⟩)

end Sys2Proof.Machine
end

section
/-! The walking commands: the first record that fails (O30), TOO_SHORT (O38), PARSE and CHECKSUM (O28, O29). -/

namespace Sys2Proof.Machine

/-! IMG's records, from the start of any rule (R201). -/

section
variable {i : Instr} {s : State} {n : Byte} {k : Nat} {ds : List SegDesc} {bs : List Byte}

theorem walkFolds_eq_true_iff : walkFolds i = true ↔ i ≠ .parse := by
  cases i <;> simp [walkFolds]

/-- VERIFY and RESEAL walk, and fold as they walk (R203, R230). -/
theorem walks_of_needsSlot (h : needsSlot i) : walks i ∧ i ≠ .parse := by
  cases i with
  | verify => exact ⟨⟨nofun, nofun⟩, nofun⟩
  | reseal b => exact ⟨⟨nofun, nofun⟩, nofun⟩
  | _ => exact h.elim

theorem startOf_records (h : recordsFrom s.img s.imageLen k 24 = some ds) (hL : 24 ≤ s.imageLen) :
    recordsFrom (startOf i s).target (startOf i s).imageLen k 24 = some ds := by
  rw [startOf_imageLen]
  cases i with
  | reseal b => exact working_records h hL
  | _ => exact h

theorem startOf_payload (h : recordsFrom s.img s.imageLen k 24 = some ds) (hL : 24 ≤ s.imageLen) :
    payload (startOf i s).target ds = payload s.img ds := by
  cases i with
  | reseal b => exact working_payload h hL
  | _ => rfl

/-- The data a walking command folds, where it folds (R164, R165). -/
theorem startOf_folded (h : recordsFrom s.img s.imageLen k 24 = some ds) (hL : 24 ≤ s.imageLen)
    (hb : i ≠ .parse → payload s.img ds = some bs) (hfold : walkFolds i = true) :
    payload (startOf i s).target ds = some bs :=
  (startOf_payload h hL).trans (hb (walkFolds_eq_true_iff.1 hfold))

theorem startOf_parses (h : Parses s.img s.imageLen n ds) : Parses (startOf i s).target (startOf i s).imageLen n ds := by
  rw [startOf_imageLen]
  cases i with
  | reseal b => exact working_parses h
  | _ => exact h

/-- The state in which the walk of command `i` over the records `ds`, whose data is `bs`, leaves `s`. -/
def pastWalk (i : Instr) (s : State) (n : Byte) (ds : List SegDesc) (bs : List Byte) : State :=
  afterWalk (walkFolds i) (walkEntry i) n ds bs (startOf i s)

/-- Past the walk: every record lies within the image (R140). -/
theorem exec_of_parses (hw : walks i) (hp : Parses s.img s.imageLen n ds) (hb : i ≠ .parse → payload s.img ds = some bs) :
    exec i s = (walkTail i (pastWalk i s n ds bs)).toOutcome := by
  rw [exec_eq_headWalk hw, headWalk_ok (quiet_walkEntry i) (startOf_parses hp) (startOf_folded hp.records hp.header hb)]
  rfl

/-- Record `k` is the first that fails (R143). -/
theorem exec_of_recordFails {f : ErrField} {o : Nat} (hw : walks i) (hL : 24 ≤ s.imageLen)
    (hm : Table.get s.img 0 = some 0xE9) (hn : Table.get s.img 1 = some n) (hk : k < n.toNat)
    (hd : recordsFrom s.img s.imageLen k 24 = some ds) (hb : i ≠ .parse → payload s.img ds = some bs)
    (hf : RecordFails s.img s.imageLen (walkEnd ds) f o) :
    exec i s = .next (errorState .truncated f o k (pastWalk i s n ds bs)) := by
  have hlen := startOf_imageLen i s
  have hs := startOf_sameBytes i s
  have hf' : RecordFails (startOf i s).target (startOf i s).imageLen (walkEnd ds) f o := by
    rw [← hlen] at hf
    exact hf.congr hs
  rw [exec_eq_headWalk hw, headWalk_fails (quiet_walkEntry i) (by omega) ((hs 0 (by omega)).symm.trans hm)
    ((hs 1 (by omega)).symm.trans hn) hk (startOf_records hd hL) (startOf_folded hd hL hb) hf']
  rfl

/-- SEGTAB after a walk that recorded `k` records (R144). -/
theorem get_writeRecords_zero {m : Memory} {L c : Nat} (h : recordsFrom m L k c = some ds) (t : Table SegDesc) (j : Nat) :
    Table.get (writeRecords t 0 ds) j = if j < k then ds[j]? else Table.get t j := by
  rw [get_writeRecords, recordsFrom_length h, Nat.zero_add, Nat.sub_zero]
  simp only [Nat.zero_le, true_and]

/-! The state past the walk, register by register (R140, R144, R164). -/

theorem pastWalk_eq (i : Instr) (s : State) (n : Byte) (ds : List SegDesc) (bs : List Byte) :
    pastWalk i s n ds bs =
      { s with
        fsm := if i.op = 0x06 then .headerValidated else s.fsm
        magic := 0xE9, segCount := n.toWord, segDone := BitVec.ofNat 32 ds.length, cursor := BitVec.ofNat 32 (walkEnd ds)
        csum := if i = .parse then s.csum else (checksumOf bs).toWord
        segtab := writeRecords s.segtab 0 ds, out := (startOf i s).out
        eng := (pastWalk i s n ds bs).eng } := by
  cases i <;> ext1 <;> simp [pastWalk, afterWalk, walkFolds, walkEntry, enterFsm, Instr.op, walkEnd, checksumOf]

@[simp] theorem pastWalk_imageLen (i : Instr) (s : State) (n : Byte) (ds : List SegDesc) (bs : List Byte) :
    (pastWalk i s n ds bs).imageLen = s.imageLen :=
  (afterWalk_imageLen (quiet_walkEntry i) ..).trans (startOf_imageLen i s)

@[simp] theorem pastWalk_target (i : Instr) (s : State) (n : Byte) (ds : List SegDesc) (bs : List Byte) :
    (pastWalk i s n ds bs).target = (startOf i s).target :=
  afterWalk_target (quiet_walkEntry i) ..

/-- A folding walk leaves the checksum of the data in the accumulator (R161, R164). -/
theorem pastWalk_acc (h : i ≠ .parse) (s : State) (n : Byte) (ds : List SegDesc) (bs : List Byte) :
    (pastWalk i s n ds bs).eng.acc = checksumOf bs := by
  rw [pastWalk, walkFolds_eq_true_iff.2 h]
  exact afterWalk_acc ..

/-- The state in which an error past the header leaves a started command (R252, R253, R256). -/
theorem errorState_pastWalk (hst : started i s) (e : ErrCode) (f : ErrField) (o g : Nat) (n : Byte) (ds : List SegDesc)
    (bs : List Byte) :
    errorState e f o g (pastWalk i s n ds bs) =
      { s with
        status := 0x06, errCode := errCodeNumber e, errField := errFieldNumber f, errOffset := BitVec.ofNat 32 o
        errSeg := BitVec.ofNat 32 g, fsm := if i.op = 0x06 then .rejected else s.fsm
        magic := 0xE9, segCount := n.toWord, segDone := BitVec.ofNat 32 ds.length, cursor := BitVec.ofNat 32 (walkEnd ds)
        csum := if i = .parse then s.csum else (checksumOf bs).toWord
        segtab := writeRecords s.segtab 0 ds, out := (startOf i s).out, eng := Engine.none } := by
  have hstatus : statusError s.status = 0x06 := hst.1 ▸ statusError_one
  have hfsm : (if (if i.op = 0x06 then Fsm.headerValidated else s.fsm) = .idle then Fsm.idle else .rejected) =
      if i.op = 0x06 then .rejected else s.fsm := by
    rw [← hst.rejected, hst.2]
    split <;> rfl
  rw [pastWalk_eq, ← hfsm, ← hstatus]
  rfl

end

/-- Settles O30. -/
theorem walkStopsAtFirstBadRecord : Obligations.WalkStopsAtFirstBadRecord := by
  intro i s n k ds bs f o hw hst hL hm hn hk hd hb hf
  have hexec := exec_of_recordFails hw hL hm hn hk hd hb hf
  rw [errorState_pastWalk hst, recordsFrom_length hd] at hexec
  exact ⟨_, hexec, ⟨rfl, rfl, rfl, rfl, rfl⟩, rfl, get_writeRecords_zero hd s.segtab, get_startOf_out i s⟩

/-- Settles O38: the length check comes after the walk and before the first write (R203, R230, R253). -/
theorem tooShortForSlot : Obligations.TooShortForSlot := by
  intro i s n ds bs hslot hst hp hb hL
  obtain ⟨hw, hne⟩ := walks_of_needsSlot hslot
  have hexec := exec_of_parses hw hp fun _ => hb
  rw [walkTail_short hslot (by rw [pastWalk_imageLen]; exact hL),
    Res.toOutcome_raised, errorState_pastWalk hst, recordsFrom_length hp.records, if_neg hne] at hexec
  exact ⟨_, hexec, rfl, get_writeRecords_zero hp.records s.segtab, get_startOf_out i s⟩

/-! PARSE and CHECKSUM (R146, R165). -/

/-- A walking command that needs no slot ends with its walk. -/
theorem exec_succeeds_of_walk {i : Instr} {s : State} {n : Byte} {ds : List SegDesc} {bs : List Byte}
    (hi : i = .parse ∨ i = .checksum) (hst : started i s) (hp : Parses s.img s.imageLen n ds)
    (hb : i ≠ .parse → payload s.img ds = some bs) :
    exec i s = .next
      { s with
        status := 0x0A, magic := 0xE9, segCount := n.toWord, segDone := n.toWord, cursor := BitVec.ofNat 32 (walkEnd ds)
        csum := if i = .parse then s.csum else (checksumOf bs).toWord
        segtab := writeRecords s.segtab 0 ds, eng := Engine.none } := by
  have hw : walks i := by rcases hi with rfl | rfl <;> exact ⟨nofun, nofun⟩
  have hstatus : statusOk s.status = 0x0A := hst.1 ▸ statusOk_one
  rw [exec_of_parses hw hp hb, pastWalk_eq, recordsFrom_length hp.records, ← hstatus]
  rcases hi with rfl | rfl <;> rfl

/-- Settles O28. -/
theorem parseSucceeds : Obligations.ParseSucceeds :=
  fun s _ _ hst hp => ⟨_, exec_succeeds_of_walk (bs := []) (.inl rfl) hst hp (absurd rfl), rfl,
    get_writeRecords_zero hp.records s.segtab⟩

/-- Settles O29. -/
theorem checksumSucceeds : Obligations.ChecksumSucceeds :=
  fun s _ _ _ hst hp hb => ⟨_, exec_succeeds_of_walk (.inr rfl) hst hp fun _ => hb, rfl,
    get_writeRecords_zero hp.records s.segtab⟩

end Sys2Proof.Machine
end

section
/-! VERIFY and RESEAL of an image whose records lie within it: their success, whole (O37, O39), and undefined bytes (O51, O56). -/

namespace Sys2Proof.Machine

/-! VERIFY and RESEAL past the walk and the length check (R203, R230). -/

section
variable {s : State} {n : Byte} {ds : List SegDesc} {bs : List Byte}

theorem exec_verify_of_parses (hp : Parses s.img s.imageLen n ds) (hb : payload s.img ds = some bs) (hL : 33 ≤ s.imageLen) :
    exec .verify s = (verifyTrailer (pastWalk .verify s n ds bs)).toOutcome := by
  rw [exec_of_parses (i := .verify) ⟨nofun, nofun⟩ hp fun _ => hb, walkTail, slotCheck_fits (by rwa [pastWalk_imageLen])]

theorem exec_reseal_of_parses {b : Bool} (hp : Parses s.img s.imageLen n ds) (hb : payload s.img ds = some bs)
    (hL : 33 ≤ s.imageLen) :
    exec (.reseal b) s = (resealTail (pastWalk (.reseal b) s n ds bs)).toOutcome := by
  rw [exec_of_parses (i := .reseal b) ⟨nofun, nofun⟩ hp fun _ => hb, walkTail, slotCheck_fits (by rwa [pastWalk_imageLen])]

/-- The state VERIFY ends in (R230). -/
theorem verified_pastWalk (hst : started .verify s) (slot : Byte) (d : Vector Byte 32) (trailer : List Byte) :
    verified (pastWalk .verify s n ds bs) slot d trailer =
      { s with
        status := 0x0A + (if checksumOf bs ≠ slot then 0x10 else 0) + (if d.toList ≠ trailer then 0x20 else 0)
        magic := 0xE9, segCount := n.toWord, segDone := BitVec.ofNat 32 ds.length, cursor := BitVec.ofNat 32 (walkEnd ds)
        csum := (checksumOf bs).toWord, trailerStart := BitVec.ofNat 32 (s.imageLen - 32), csumStored := slot.toWord
        digest := packDigest d, segtab := writeRecords s.segtab 0 ds, eng := Engine.none } := by
  rw [← statusOk_findings, ← hst.1, ← pastWalk_acc (i := .verify) nofun s n ds bs, pastWalk_eq]
  rfl

/-- Settles O37: both comparisons are made on the bytes as they stand, and nothing but SEGTAB and registers is written. -/
theorem verifyReportsFindings : Obligations.VerifyReportsFindings := by
  intro s n ds bs all slot hst hp hb hL hall hslot
  have hget : Table.get s.img (s.imageLen - 32 - 1) = some slot := by
    have hbyte := (Memory.bytes_eq_some.1 hall).2 (s.imageLen - 33) (by omega)
    rw [Nat.zero_add, hslot] at hbyte
    exact hbyte
  have htrailer := Memory.bytes_drop hall (show s.imageLen - 32 ≤ s.imageLen by omega)
  rw [Nat.zero_add, show s.imageLen - (s.imageLen - 32) = 32 by omega] at htrailer
  have hexec := exec_verify_of_parses hp hb hL
  rw [verifyTrailer_ok (s := pastWalk .verify s n ds bs) (by simpa [startOf] using hget)
    (by simpa [startOf] using Memory.bytes_take hall (Nat.sub_le ..)) (by simpa [startOf] using htrailer), Res.toOutcome_ok,
    verified_pastWalk hst, recordsFrom_length hp.records] at hexec
  exact ⟨_, hexec, rfl, get_writeRecords_zero hp.records s.segtab⟩

/-! RESEAL (R208). -/

/-- Every byte of the result buffer: the slot and the trailer lie together in `[L - 33, L)`. -/
theorem get_resealedBuffer_range (m : Memory) {L : Nat} (hL : 33 ≤ L) (ck : Byte) (d : Vector Byte 32) (a : Nat) :
    Table.get (resealedBuffer m L ck d) a =
      if L - 33 ≤ a ∧ a < L then (if a = L - 33 then some ck else d.toList[a - (L - 32)]?) else Table.get m a := by
  rw [get_resealedBuffer m hL]
  by_cases hrange : L - 33 ≤ a ∧ a < L
  · rw [if_pos hrange]
    by_cases hslot : a = L - 33
    · rw [if_pos hslot, if_pos hslot]
    · rw [if_neg hslot, if_neg hslot, if_pos (by omega)]
  · rw [if_neg hrange, if_neg (by omega), if_neg (by omega)]

/-- The state RESEAL ends in, its two buffers aside (R208). -/
theorem resealed_pastWalk {b : Bool} (hst : started (.reseal b) s) (old : Byte) (d : Vector Byte 32) :
    resealed (pastWalk (.reseal b) s n ds bs) old d =
      { s with
        status := 0x0A, fsm := .resealed, magic := 0xE9, segCount := n.toWord, segDone := BitVec.ofNat 32 ds.length
        cursor := BitVec.ofNat 32 (walkEnd ds), csum := (checksumOf bs).toWord
        trailerStart := BitVec.ofNat 32 (s.imageLen - 32), csumStored := old.toWord, digest := packDigest d
        segtab := writeRecords s.segtab 0 ds, img := (resealed (pastWalk (.reseal b) s n ds bs) old d).img
        out := (resealed (pastWalk (.reseal b) s n ds bs) old d).out, eng := Engine.none } := by
  have hstatus : statusOk s.status = 0x0A := hst.1 ▸ statusOk_one
  rw [← hstatus]
  cases b <;> rw [pastWalk_eq] <;> rfl

/-- RESEAL of an image that parses, with the slot and the bytes before it defined (R203, R204). -/
theorem exec_reseal_succeeds {b : Bool} {pre : List Byte} {old : Byte} (hp : Parses s.img s.imageLen n ds)
    (hb : payload s.img ds = some bs) (hL : 33 ≤ s.imageLen) (hpre : Memory.bytes s.img 0 (s.imageLen - 33) = some pre)
    (hold : Table.get s.img (s.imageLen - 33) = some old) :
    exec (.reseal b) s =
      .next (resealed (pastWalk (.reseal b) s n ds bs) old (Config.hash (pre ++ [checksumOf bs]))) := by
  have hs : sameBytes (pastWalk (.reseal b) s n ds bs).target s.img s.imageLen := by
    rw [pastWalk_target]
    exact (working_sameBytes b s).symm
  rw [exec_reseal_of_parses hp hb hL, resealTail_ok (s := pastWalk (.reseal b) s n ds bs) (old := old) (pre := pre)
    (by rwa [pastWalk_imageLen]) (by rw [pastWalk_imageLen, hs _ (by omega), hold])
    (by rw [pastWalk_imageLen, hs.bytes (by omega), hpre]), pastWalk_acc (i := .reseal b) nofun]
  rfl

theorem carried_pastWalk {i : Instr} (hp : Parses s.img s.imageLen n ds) : Carried i (startOf i s) (pastWalk i s n ds bs) :=
  have hp' := startOf_parses (i := i) hp
  carried_afterWalk (walkEntry_cases i) _ n bs _ hp'.header (count_le n) hp'.records

/-- RESEAL's result buffer, byte by byte (R205). -/
theorem get_resultBuffer_pastWalk (b : Bool) (hp : Parses s.img s.imageLen n ds) (hL : 33 ≤ s.imageLen) (old : Byte)
    (d : Vector Byte 32) (a : Nat) :
    Table.get (resultBuffer b (resealed (pastWalk (.reseal b) s n ds bs) old d)) a =
      if s.imageLen - 33 ≤ a ∧ a < s.imageLen then
        (if a = s.imageLen - 33 then some (checksumOf bs) else d.toList[a - (s.imageLen - 32)]?)
      else if b = true ∨ a < s.imageLen then Table.get s.img a else Table.get s.out a := by
  rw [resultBuffer_resealed (carried_pastWalk hp), pastWalk_imageLen, pastWalk_acc (i := .reseal b) nofun, pastWalk_target,
    get_resealedBuffer_range _ hL, startOf, get_working]

theorem resealed_pastWalk_out (hp : Parses s.img s.imageLen n ds) (old : Byte) (d : Vector Byte 32) :
    (resealed (pastWalk (.reseal true) s n ds bs) old d).out = s.out := by
  have hc := carried_pastWalk (i := .reseal true) (bs := bs) hp
  simp [resealed, hc.engTarget, startOf_engTarget, hc.out, startOf_out]

theorem resealed_pastWalk_img (hp : Parses s.img s.imageLen n ds) (old : Byte) (d : Vector Byte 32) :
    (resealed (pastWalk (.reseal false) s n ds bs) old d).img = s.img := by
  have hc := carried_pastWalk (i := .reseal false) (bs := bs) hp
  simp [resealed, hc.engTarget, startOf_engTarget, hc.img]

/-- Settles O39: registers by `resealed_pastWalk`, the result buffer byte by byte, the other buffer untouched. -/
theorem resealSucceeds : Obligations.ResealSucceeds := by
  intro b s n ds bs pre old hst hp hb hL hpre hold
  have hregs := resealed_pastWalk (n := n) (ds := ds) (bs := bs) hst old (Config.hash (pre ++ [checksumOf bs]))
  rw [recordsFrom_length hp.records] at hregs
  have hsegtab := congrArg State.segtab hregs
  refine ⟨_, exec_reseal_succeeds hp hb hL hpre hold, ?registers, ?segtab, ?inPlace, ?outOfPlace⟩
  case registers =>
    rw [hsegtab]
    exact hregs
  case segtab =>
    rw [hsegtab]
    exact get_writeRecords_zero hp.records s.segtab
  case inPlace =>
    rintro rfl
    refine ⟨resealed_pastWalk_out hp .., fun a => ?_⟩
    have hbyte := get_resultBuffer_pastWalk (bs := bs) true hp hL old (Config.hash (pre ++ [checksumOf bs])) a
    rw [if_pos (c := true = true ∨ a < s.imageLen) (.inl rfl)] at hbyte
    exact hbyte
  case outOfPlace =>
    rintro rfl
    refine ⟨resealed_pastWalk_img hp .., fun a => ?_⟩
    have hbyte := get_resultBuffer_pastWalk (bs := bs) false hp hL old (Config.hash (pre ++ [checksumOf bs])) a
    simp only [Bool.false_eq_true, false_or] at hbyte
    exact hbyte

/-! Undefined bytes of an image whose records lie within it (R208, R230). -/

/-- A folding command reads the data of every record (R164). -/
theorem exec_of_payload_undefined {i : Instr} (hw : walks i) (hi : i ≠ .parse) (hp : Parses s.img s.imageLen n ds)
    (hb : payload s.img ds = none) : exec i s = .fault .undefinedRead := by
  rw [exec_eq_headWalk hw, walkFolds_eq_true_iff.2 hi, headWalk_payload_undefined (quiet_walkEntry i) (startOf_parses hp)
    (by rw [startOf_payload hp.records hp.header, hb])]
  rfl

theorem verifyTrailer_undefined {u : State} {a : Nat} (ha : a < u.imageLen) (hu : Table.get u.target a = none) :
    verifyTrailer u = .fault .undefinedRead := by
  rcases verifyTrailer_cases u with ⟨slot, pre, trailer, -, hpre, htrailer, -⟩ | ⟨-, h⟩
  · by_cases hlow : a < u.imageLen - 32
    · rw [Memory.bytes_eq_none.2 ⟨a, hlow, by rwa [Nat.zero_add]⟩] at hpre
      cases hpre
    · have hundefined : Memory.bytes u.target (u.imageLen - 32) 32 = none :=
        Memory.bytes_eq_none.2 ⟨a - (u.imageLen - 32), by omega, by rwa [Nat.add_sub_cancel' (by omega)]⟩
      rw [hundefined] at htrailer
      cases htrailer
  · exact h

theorem resealTail_undefined {u : State} {a : Nat} (hL : 33 ≤ u.imageLen) (ha : a < u.imageLen - 32)
    (hu : Table.get u.target a = none) : resealTail u = .fault .undefinedRead := by
  rcases resealTail_cases hL with ⟨old, pre, hold, hpre, -⟩ | ⟨-, h⟩
  · by_cases hlow : a < u.imageLen - 33
    · rw [Memory.bytes_eq_none.2 ⟨a, hlow, by rwa [Nat.zero_add]⟩] at hpre
      cases hpre
    · rw [show u.imageLen - 33 = a by omega, hu] at hold
      cases hold
  · exact h

end

/-- Settles O51: an undefined data byte stops the fold; past the walk every byte of the range is read. -/
theorem undefinedByteFaults : Obligations.UndefinedByteFaults := by
  intro i s n ds a hi hp hL ha hu
  obtain ⟨hw, hne⟩ := walks_of_needsSlot hi
  cases hb : payload s.img ds with
  | none => exact exec_of_payload_undefined hw hne hp hb
  | some bs =>
    have hlow : a < s.imageLen := ha.trans_le (by split <;> omega)
    have hu' : Table.get (pastWalk i s n ds bs).target a = none := by
      rw [pastWalk_target, ← startOf_sameBytes i s a (by rwa [startOf_imageLen]), hu]
    cases i with
    | verify => rw [exec_verify_of_parses hp hb hL, verifyTrailer_undefined (by rwa [pastWalk_imageLen]) hu']; rfl
    | reseal b =>
      rw [exec_reseal_of_parses hp hb hL, resealTail_undefined (by rwa [pastWalk_imageLen])
        (by rw [pastWalk_imageLen]; exact ha) hu']
      rfl
    | _ => exact hi.elim

/-! Undefined bytes of a record the walk reaches (R140, R164). -/

theorem imageWord_eq_none {m : Memory} {c a : Nat} (hlow : c ≤ a) (hhigh : a < c + 4) (hu : Table.get m a = none) :
    imageWord m c = none := by
  rw [imageWord, Memory.bytes_eq_none.2 ⟨a - c, by omega, by rwa [Nat.add_sub_cancel' hlow]⟩]
  rfl

/-- A record whose load address is undefined within the image neither fails a check nor is one. -/
theorem record_of_loadAddr_undefined {m : Memory} {L c : Nat} (hL : c + 4 ≤ L) (hu : imageWord m c = none) :
    (∀ f o, ¬ RecordFails m L c f o) ∧ recordAt m L c = none := by
  refine ⟨fun f o hf => ?_, by rw [recordAt, hu]; rfl⟩
  cases hf with
  | loadAddr h => omega
  | dataLen _ hd _ => simp [hu] at hd
  | data _ _ hd _ _ => simp [hu] at hd

/-- Nor does one whose data length is. -/
theorem record_of_dataLen_undefined {m : Memory} {L c : Nat} (hL : c + 8 ≤ L) (hu : imageWord m (c + 4) = none) :
    (∀ f o, ¬ RecordFails m L c f o) ∧ recordAt m L c = none := by
  refine ⟨fun f o hf => ?_, ?_⟩
  · cases hf with
    | loadAddr h => omega
    | dataLen _ _ h => omega
    | data _ _ _ hl _ => rw [hu] at hl; cases hl
  · rw [recordAt, hu]
    cases imageWord m c <;> rfl

section
variable {i : Instr} {s : State} {n : Byte} {k a : Nat} {ds : List SegDesc}

/-- Record `k`, reached by the walk, read from the buffer the rule works on. -/
theorem exec_of_record_undefined (hw : walks i) (hL : 24 ≤ s.imageLen) (hm : Table.get s.img 0 = some 0xE9)
    (hn : Table.get s.img 1 = some n) (hk : k < n.toNat) (hd : recordsFrom s.img s.imageLen k 24 = some ds)
    (hf : ∀ f o, ¬ RecordFails (startOf i s).target s.imageLen (walkEnd ds) f o)
    (hr : ∀ d, recordAt (startOf i s).target s.imageLen (walkEnd ds) = some d →
      i ≠ .parse ∧ Memory.bytes (startOf i s).target d.dataOff.toNat d.dataLen.toNat = none) :
    exec i s = .fault .undefinedRead := by
  have hlen := startOf_imageLen i s
  have hs := startOf_sameBytes i s
  rw [← hlen] at hf hr
  rw [exec_eq_headWalk hw, headWalk_undefined (quiet_walkEntry i) (by omega) ((hs 0 (by omega)).symm.trans hm)
    ((hs 1 (by omega)).symm.trans hn) hk (startOf_records hd hL) hf fun d hat => ?_]
  · rfl
  · obtain ⟨hi, hu⟩ := hr d hat
    exact ⟨walkFolds_eq_true_iff.2 hi, hu⟩

end

/-- Settles O56: one clause for each string of bytes the walk reads of a record. -/
theorem undefinedRecordByteFaults : Obligations.UndefinedRecordByteFaults := by
  intro i s n k ds a hw hL hm hn hk hd hu c
  have hs : sameBytes s.img (startOf i s).target s.imageLen := by
    have h := startOf_sameBytes i s
    rwa [startOf_imageLen] at h
  have hundefined : a < s.imageLen → Table.get (startOf i s).target a = none := fun ha => (hs a ha).symm.trans hu
  refine ⟨fun hlow hhigh hc => ?loadAddr, fun hlow hhigh hc => ?dataLen, fun hi d hat hlow hhigh => ?data⟩
  case loadAddr =>
    obtain ⟨hf, hnone⟩ := record_of_loadAddr_undefined hc (imageWord_eq_none hlow hhigh (hundefined (by omega)))
    exact exec_of_record_undefined hw hL hm hn hk hd hf fun d hat => by rw [hnone] at hat; cases hat
  case dataLen =>
    obtain ⟨hf, hnone⟩ := record_of_dataLen_undefined hc (imageWord_eq_none hlow (by omega) (hundefined (by omega)))
    exact exec_of_record_undefined hw hL hm hn hk hd hf fun d hat => by rw [hnone] at hat; cases hat
  case data =>
    obtain ⟨-, -, hend, -⟩ := recordAt_eq_some.1 hat
    have hoff := dataOff_toNat hat s.eng.len.isLt
    have hat' : recordAt (startOf i s).target s.imageLen c = some d := recordAt_congr hat (hs.mono (by omega)) hend
    refine exec_of_record_undefined hw hL hm hn hk hd (fun f o hf => ?_) fun d' hat'' => ⟨hi, ?_⟩
    · rw [hf.recordAt_eq_none] at hat'
      cases hat'
    · cases hat'.symm.trans hat''
      exact Memory.bytes_eq_none.2
        ⟨a - d.dataOff.toNat, by omega, by rw [Nat.add_sub_cancel' hlow]; exact hundefined (by omega)⟩

end Sys2Proof.Machine
end
